-- ==== Sys2Proof/Word.lean ====
section
/-!
DEFINITION. The word types of the block (spec/00_scope.md R7 to R10): every register is a `u32`, every memory
access is a `u8`. There are no signed values.
-/

namespace Sys2Proof

/-- A register, latch or command word: `REG_W` = 32 bits (R7). -/
abbrev Word := BitVec 32

/-- One byte of memory (R50), one pixel symbol, packed byte, header byte or run byte (R55). -/
abbrev Byte := BitVec 8

end Sys2Proof
end

