-- ==== Sys2Proof/Config.lean ====
section
/-!
DEFINITION. What is fixed for one machine: the two parameters the spec leaves open (spec/00_scope.md R7), held as
plain data so that every statement ranges over every value of them, and the constants the spec decides.
The spec leaves no value undefined, so there is no free constant here.
-/

namespace Sys2Proof

/-- The parameters of one machine (R7). They are part of the state as data, and no step changes them. -/
structure Config where
  /-- `MEM_BYTES`: the number of addressable memory bytes, 1 to 2^32 (R7, spec/20_memory.md R50). -/
  memBytes : Nat
  /-- `REG_BASE`: where the platform places the 32-byte register window, any address (R7, spec/10_state.md R20). -/
  regBase : Nat
  deriving DecidableEq, Repr

/-- The parameters State.reset takes. DESIGN CHOICE, unsafe for claims about State.reset alone: the spec leaves both
open. `MEM_BYTES` is that of the spec's own vectors and programs (spec/95_test_vectors.md). notes/assumptions/1.md, 2.md. -/
def Config.standard : Config := { memBytes := 0x10000, regBase := 0 }

/-- The size of the register window in bytes (spec/10_state.md R20). -/
def Config.windowBytes : Nat := 32

/-- What a byte of memory that the state does not list reads as. DESIGN CHOICE, unsafe: the contents at power-on are the
platform's (spec/70_reset_and_hazards.md R232); 0x00 is the convention of spec/95_test_vectors.md. notes/assumptions/3.md. -/
def Config.unlistedByte : Byte := 0x00#8

/-- '1' = 0x31, a black pixel of a PixelBuffer (spec/00_scope.md R11, spec/20_memory.md R59). -/
def Config.charOne : Byte := 0x31#8

/-- '0' = 0x30, a white pixel of a PixelBuffer (R11, R59). -/
def Config.charZero : Byte := 0x30#8

/-- '#' = 0x23, the glyph of a black pixel (R11, spec/43_rle_decoder.md R162). -/
def Config.glyphBlack : Byte := 0x23#8

/-- ' ' = 0x20, the glyph of a white pixel (R11, R162). -/
def Config.glyphWhite : Byte := 0x20#8

/-- `LF` = 0x0A, the line-break byte of RLEREND (R7, spec/43_rle_decoder.md R168). -/
def Config.lineFeed : Byte := 0x0A#8

/-- `MAX_DIM` = 255, the largest row or column count the RLE format carries (R7). -/
def Config.maxDim : Nat := 255

/-- `MAX_RUN` = 255, the largest value of a run byte (R7). -/
def Config.maxRun : Nat := 255

/-- How many block steps a command is given when nothing is queued to interrupt it. It is more than any command needs
(spec/70_reset_and_hazards.md R244), so such a command runs to its completion in one move. DESIGN CHOICE, safe: a
command that needed more would stay in RUN with its working variables kept. notes/assumptions/5.md. -/
def Config.blockStepBound : Nat := 2 ^ 36

end Sys2Proof
end

