-- ==== Sys2Proof/Syntax.lean ====
section
/-!
DEFINITION. The command set, edition 1 (spec/30_encoding.md R72; spec/opcode_table.json).
A command carries no operand of its own: every operand is a latch L0 to L3 (R71).
-/

namespace Sys2Proof

/-- The six commands of the opcode map (R72), one constructor per row of the table. -/
inductive Instr where
  /-- OP 0x1: read one bit of a buffer (spec/40_bit_primitives.md R100). -/
  | getbit
  /-- OP 0x2: write one bit of a buffer (spec/40_bit_primitives.md R101). -/
  | putbit
  /-- OP 0x3: pack a PixelBuffer into a PackedBuffer (spec/41_packer.md R120). -/
  | pack
  /-- OP 0x4: run-length encode a PackedBuffer (spec/42_rle_encoder.md R140). -/
  | rleenc
  /-- OP 0x5: decode an EncodedBuffer into a PackedBuffer (spec/43_rle_decoder.md R161). -/
  | rledec
  /-- OP 0x6: decode an EncodedBuffer into glyph text (spec/43_rle_decoder.md R162). -/
  | rlerend
  deriving DecidableEq, Repr

end Sys2Proof
end

