-- ==== Sys2Proof/Machine/State.lean ====
section
/-!
DEFINITION. The state of the machine as plain data: every register, latch and working variable the spec gives the
block (spec/10_state.md), the shared memory (spec/20_memory.md), the machine's parameters, and the turns that are still
to come in the total order of host accesses and block steps (spec/10_state.md R22).
-/

namespace Sys2Proof.Machine

/-- The error signals of STATUS.ERR (spec/60_exceptions.md R200). They end a command and are NEXT states, no faults. -/
inductive Err where
  | invalidPhotoSize
  | unknownCharacter
  | rleLimitExceeded
  | malformedStream
  | illegalCommand
  | accessFault
  deriving DecidableEq, Repr

/-- The eight registers of the window (spec/10_state.md R20). -/
inductive Reg where
  | ctrl
  | cmd
  | status
  | result
  | arg0
  | arg1
  | arg2
  | arg3
  deriving DecidableEq, Repr

/-- The block's control state (spec/10_state.md R31). It is a view of STATUS.BUSY and is not stored a second time. -/
inductive Control where
  | idle
  | run
  deriving DecidableEq, Repr

/-- Where GETBIT stands (spec/40_bit_primitives.md R100). -/
inductive GetbitWork where
  /-- The read of GetBit (spec/20_memory.md R54) is still to come. -/
  | read
  /-- The byte `b` has been read, and completion comes next. -/
  | got (b : Byte)
  deriving DecidableEq, Repr

/-- Where PUTBIT stands (spec/40_bit_primitives.md R101). -/
inductive PutbitWork where
  /-- The read of byte `a` is still to come. -/
  | read
  /-- The byte `b` has been read, and the write comes next. -/
  | write (b : Byte)
  /-- The write has been made, and completion comes next. -/
  | done
  deriving DecidableEq, Repr

/-- Where PACK stands (spec/41_packer.md R120), with the pseudocode's `c`, `j`, `acc` and `ch`. -/
inductive PackWork where
  /-- The check of `n` is still to come. -/
  | entry
  /-- Pixel `8c + j` is next. -/
  | read (c j : Nat) (acc : Byte)
  /-- The byte `ch` of pixel `8c + j` has been read and is checked next. -/
  | check (c j : Nat) (acc ch : Byte)
  /-- The write of output byte `c` is next. -/
  | write (c : Nat) (acc : Byte)
  /-- The last byte is written, and completion comes next. -/
  | done
  deriving DecidableEq, Repr

/-- The working variables of RLEENC (spec/42_rle_encoder.md R140). `black` is `color = 1`. `count` is the spec's u16,
kept as a natural (notes/assumptions/11.md). -/
structure EncVars where
  i : Nat
  o : Nat
  black : Bool
  count : Nat
  b : Byte
  deriving DecidableEq, Repr

/-- Where RLEENC stands (spec/42_rle_encoder.md R140). `last` says that Emit was called for the last run. -/
inductive EncWork where
  /-- The checks of `rows` and `cols` are still to come (R141). -/
  | entry
  /-- The write of header byte 0 is next (R142). -/
  | header0
  /-- The write of header byte 1 is next (R142). -/
  | header1
  /-- The head of the pixel loop. -/
  | pixel (v : EncVars)
  /-- The byte of pixel `i` is at hand, and its bit is compared with the current colour next. -/
  | bit (v : EncVars)
  /-- Emit(k): the head of its loop (R144). -/
  | emit (v : EncVars) (k : Nat) (last : Bool)
  /-- Emit(k): a 255 has been written and its continuation 0 is next (R144). -/
  | emitZero (v : EncVars) (k : Nat) (last : Bool)
  /-- The last run is written, and completion comes next (R145). -/
  | done (v : EncVars)
  deriving DecidableEq, Repr

/-- The working variables that RLEDEC and RLEREND share (spec/43_rle_decoder.md R160, R163). `black` is `color = 1`. -/
structure ReplayVars where
  rows : Byte
  cols : Byte
  total : Nat
  black : Bool
  p : Nat
  deriving DecidableEq, Repr

/-- Where a decoding command stands (spec/43_rle_decoder.md R160, R163). `σ` is the variable of its `Put`: `acc` of
RLEDEC (R161), `q` of RLEREND (R162). -/
inductive DecWork (σ : Type) where
  /-- The check of `src_len` is still to come. -/
  | entry
  /-- The read of header byte 0 is next. -/
  | header0
  /-- The read of header byte 1 is next. -/
  | header1 (rows : Byte)
  /-- Both header bytes are read, and the check for 0 is next. -/
  | header (rows cols : Byte)
  /-- The head of Replay's loop. -/
  | next (v : ReplayVars) (x : σ)
  /-- The run byte `run` has been read, and the overrun check is next. -/
  | overrun (v : ReplayVars) (x : σ) (run : Nat)
  /-- `left` pixels of the run are still to be put. The first half of Put, or the change of colour, is next. -/
  | put (v : ReplayVars) (x : σ) (left : Nat)
  /-- The second half of Put for pixel `total` is next. -/
  | putEnd (v : ReplayVars) (x : σ) (left : Nat)
  /-- Replay is over, and what the command does after it is next. -/
  | tail (v : ReplayVars) (x : σ)
  /-- Completion comes next. -/
  | done (v : ReplayVars) (x : σ)
  deriving DecidableEq, Repr

/-- The working variables of the running command (spec/10_state.md R32), typed by the command they belong to. -/
inductive Work where
  | getbit (w : GetbitWork)
  | putbit (w : PutbitWork)
  | pack (w : PackWork)
  | rleenc (w : EncWork)
  | rledec (w : DecWork Byte)
  | rlerend (w : DecWork Nat)
  deriving DecidableEq, Repr

/-- One turn of the total order of host accesses, block steps and reset (spec/10_state.md R22,
spec/70_reset_and_hazards.md R230, R240). -/
inductive Input where
  /-- WR: a host write of `v`, `width` bits wide, at host address `addr` (spec/30_encoding.md R77). -/
  | regWrite (addr width : Nat) (v : Word)
  /-- RD: a host read, `width` bits wide, at host address `addr` (R77). -/
  | regRead (addr width : Nat)
  /-- WAIT: the host repeats RD STATUS until STATUS.BUSY = 0 (R77). -/
  | wait
  /-- A host store of one byte to memory (R240). -/
  | memWrite (addr : Nat) (v : Byte)
  /-- A host load of one byte from memory (R240). -/
  | memRead (addr : Nat)
  /-- The platform asserts reset (R230). -/
  | reset
  /-- The block takes `n` block steps before the next turn (spec/70_reset_and_hazards.md R243). -/
  | block (n : Nat)
  deriving DecidableEq, Repr

/-- `Mem` (spec/20_memory.md R50): address and byte pairs in one canonical form, see `Memory.wf`. -/
abbrev Memory := List Host.Cell

/-- The canonical form of memory: addresses strictly rising, and no entry equal to what an unlisted address reads as. -/
abbrev Memory.wf (m : Memory) : Prop :=
  m.Pairwise (fun x y => x.1 < y.1) ∧ ∀ c ∈ m, c.2 ≠ Config.unlistedByte

/-- Every listed address lies below `n` (`MEM_BYTES`, R50). -/
abbrev Memory.below (m : Memory) (n : Nat) : Prop := ∀ c ∈ m, c.1 < n

/-- The whole machine. The fields `inputs`, `quota` and `hostData` are the model's own (notes/assumptions/4.md, 5.md, 9.md). -/
structure State where
  /-- `MEM_BYTES` and `REG_BASE` (spec/00_scope.md R7). -/
  config : Config
  /-- CTRL (spec/10_state.md R23). -/
  ctrl : Word
  /-- CMD (R24). -/
  cmd : Word
  /-- STATUS (R27). -/
  status : Word
  /-- RESULT (R29). -/
  result : Word
  /-- ARG0 (R30). -/
  arg0 : Word
  /-- ARG1 (R30). -/
  arg1 : Word
  /-- ARG2 (R30). -/
  arg2 : Word
  /-- ARG3 (R30). -/
  arg3 : Word
  /-- LOP, the latched command word (R25, R30). -/
  lop : Word
  /-- L0, the latch of ARG0 (R30). -/
  l0 : Word
  /-- L1, the latch of ARG1 (R30). -/
  l1 : Word
  /-- L2, the latch of ARG2 (R30). -/
  l2 : Word
  /-- L3, the latch of ARG3 (R30). -/
  l3 : Word
  /-- The working variables of the running command (R32). None in IDLE, and none in RUN until the first block step. -/
  work : Option Work
  /-- The shared memory (spec/20_memory.md R50). -/
  mem : Memory
  /-- The turns still to come, oldest first (R22). The model's own. -/
  inputs : List Input
  /-- How many block steps the block's next move takes, none for as many as the command needs (R243). The model's own. -/
  quota : Option Nat
  /-- What the host's last read returned. The model's own. -/
  hostData : Word
  deriving DecidableEq, Repr

/-- What stops the machine because an address does not exist. -/
inductive Fault where
  /-- A host load or store at an address of `MEM_BYTES` or more, where `Mem` has no byte (spec/20_memory.md R50).
  Raised by the turns memRead and memWrite. Safe: the machine stops where the spec names no outcome. -/
  | hostAddressOutsideMemory
  deriving DecidableEq, Repr

/-- Host actions and instructions that have no move in the model (spec/93_implementation_defined.md, treatment `refuse`). -/
inductive Refusal where
  /-- An instruction whose meaning is not written yet. Raised by exec only. Safe: the machine stops. -/
  | notModelled (mnemonic : String)
  /-- A host register access that is not 32 bits wide (spec/10_state.md R21, IM22). Raised by regRead and regWrite. Safe. -/
  | hostAccessNotWordWide
  /-- A host register access at an offset that is no multiple of 4 (R21, IM23). Raised by regRead and regWrite. Safe. -/
  | hostAccessMisaligned
  /-- A host access outside the 32-byte window: no register of the block; the platform decides (IM23).
  Raised by regRead and regWrite. Safe. -/
  | hostAccessOutsideWindow
  /-- A host store to a byte the running command reads (spec/70_reset_and_hazards.md R235, IM24). Raised by memWrite. Safe. -/
  | hostStoreIntoRunningReads
  /-- A host store to a byte the running command writes (R236, IM25). Raised by memWrite. Safe. -/
  | hostStoreIntoRunningWrites
  deriving DecidableEq, Repr

/-- The machine right after reset (spec/10_state.md R38), for any parameters, any memory (spec/70_reset_and_hazards.md
R232) and any turns to come. -/
def State.resetWith (c : Config) (m : Memory) (turns : List Input) : State :=
  { config := c, ctrl := 0#32, cmd := 0#32, status := 0#32, result := 0#32, arg0 := 0#32, arg1 := 0#32, arg2 := 0#32,
    arg3 := 0#32, lop := 0#32, l0 := 0#32, l1 := 0#32, l2 := 0#32, l3 := 0#32, work := none, mem := m, inputs := turns,
    quota := none, hostData := 0#32 }

/-- The machine right after reset with the parameters of `Config.standard`, memory with nothing listed and no turn to come. -/
def State.reset : State := State.resetWith Config.standard [] []

end Sys2Proof.Machine
end

