-- ==== Sys2Proof/Machine/Flags.lean ====
section
/-!
DEFINITION. The fields of CTRL and STATUS, the error codes and the interrupt output (spec/10_state.md R23, R27, R31;
spec/60_exceptions.md R200, R206). BUSY, DONE and ERR are the only status flags (spec/10_state.md R36).
-/

namespace Sys2Proof.Machine

/-- CTRL.IE, bit 0 (R23). -/
def State.ie (s : State) : Bool := s.ctrl.getLsbD 0

/-- STATUS.BUSY, bit 0 (R27). -/
def State.busy (s : State) : Bool := s.status.getLsbD 0

/-- STATUS.DONE, bit 1 (R27). -/
def State.done (s : State) : Bool := s.status.getLsbD 1

/-- STATUS.ERR, bits 7:4 (R27). -/
def State.err (s : State) : BitVec 4 := s.status.extractLsb' 4 4

/-- IDLE when BUSY is 0 and RUN when it is 1 (R31). -/
def State.control (s : State) : Control := if s.busy then .run else .idle

/-- The interrupt output: `irq = CTRL.IE & STATUS.DONE` (R206). -/
def State.irq (s : State) : Bool := s.ie && s.done

/-- The bits of CTRL that exist: bits 31:1 read as 0 and ignore writes (R23). -/
def ctrlMask : Word := 0x00000001#32

/-- The bits of STATUS that exist: bits 3:2 and 31:8 read as 0 and ignore writes (R27). -/
def statusMask : Word := 0x000000F3#32

/-- The STATUS word with the given BUSY, DONE and ERR and every reserved bit 0 (R27). -/
def statusWord (busy done : Bool) (err : BitVec 4) : Word :=
  0#24 ++ err ++ 0#2 ++ BitVec.ofBool done ++ BitVec.ofBool busy

/-- STATUS with DONE cleared and everything else kept (R28). -/
def clearDone (status : Word) : Word := status &&& 0xFFFFFFFD#32

/-- The code of an error in STATUS.ERR (R200). Code 0 is success; 7 to 15 are never written. -/
def Err.code (e : Err) : BitVec 4 :=
  match e with
  | .invalidPhotoSize => 1#4
  | .unknownCharacter => 2#4
  | .rleLimitExceeded => 3#4
  | .malformedStream => 4#4
  | .illegalCommand => 5#4
  | .accessFault => 6#4

end Sys2Proof.Machine
end

