-- ==== Sys2Proof/Machine/Operands.lean ====
section
/-!
DEFINITION. The operand forms of the commands (spec/30_encoding.md R71, R73): full 32-bit latches as unsigned numbers,
bit indices into a buffer, pixel counts. Addresses are exact naturals, with no wrap at 2^32 (spec/20_memory.md R53).
-/

namespace Sys2Proof.Machine

/-- `ceil8(n)` = `(n + 7) // 8`, exact (spec/00_scope.md R10). -/
def ceil8 (n : Nat) : Nat := (n + 7) / 8

/-- The source buffer's base: L0 as an unsigned number (R73). -/
def State.srcBase (s : State) : Nat := s.l0.toNat

/-- The destination buffer's base: L1 as an unsigned number (R73). -/
def State.dstBase (s : State) : Nat := s.l1.toNat

/-- L2 as an unsigned number: the bit index of GETBIT and PUTBIT, `num_chars` of PACK, `rows` of RLEENC (R73). -/
def State.arg2Nat (s : State) : Nat := s.l2.toNat

/-- L3 as an unsigned number: `cols` of RLEENC, `src_len` of RLEDEC and RLEREND (R73). -/
def State.arg3Nat (s : State) : Nat := s.l3.toNat

/-- Bit 0 of L3, the value PUTBIT writes; bits 31:1 are ignored (R73, spec/40_bit_primitives.md R101). -/
def State.putValue (s : State) : Bool := s.l3.getLsbD 0

/-- The byte that holds bit `idx` of the buffer at `base`: `base + idx // 8` (spec/20_memory.md R54). -/
def bitAddr (base idx : Nat) : Nat := base + idx / 8

/-- The bit of that byte, numbered from its least significant bit: `7 - idx % 8` (R54, R56). -/
def bitPos (idx : Nat) : Nat := 7 - idx % 8

/-- Pixel `idx % 8` of a byte, most significant first (R54, R56). -/
def pixelOf (b : Byte) (idx : Nat) : Bool := b.getLsbD (bitPos idx)

/-- The byte `b` with bit `p` set to `v` and its other bits kept: `(b & ~(1 << p) & 0xFF) | (v << p)` (R101). -/
def putBitInto (b : Byte) (p : Nat) (v : Bool) : Byte :=
  (b &&& ~~~(1#8 <<< p)) ||| ((BitVec.ofBool v).setWidth 8 <<< p)

/-- The accumulator with pixel `j` of its byte or-ed in: `acc | (color << (7 - j))` (spec/41_packer.md R120,
spec/43_rle_decoder.md R161). -/
def orPixel (acc : Byte) (j : Nat) (black : Bool) : Byte :=
  acc ||| ((BitVec.ofBool black).setWidth 8 <<< (7 - j))

/-- The pixel count of RLEENC: `rows * cols` (spec/42_rle_encoder.md R140). -/
def State.encPixels (s : State) : Nat := s.arg2Nat * s.arg3Nat

/-- The pixel count of a decoding command: the product of the header bytes (spec/43_rle_decoder.md R160). -/
def ReplayVars.pixels (v : ReplayVars) : Nat := v.rows.toNat * v.cols.toNat

end Sys2Proof.Machine
end

