-- ==== Sys2Proof/Machine/Ops.lean ====
section
/-!
DEFINITION. The named operations over memory, registers and the running command: the memory port (spec/20_memory.md
R51, R52), the register window (spec/10_state.md R20 to R30), acceptance (R25), completion and error
(spec/60_exceptions.md R201, R202), reset (spec/70_reset_and_hazards.md R230), and the running of a command body.
-/

namespace Sys2Proof.Machine

/-! ### Memory -/

/-- The byte at an address: the listed one, or what an unlisted address reads as. -/
def Memory.get (m : Memory) (a : Nat) : Byte :=
  match m with
  | [] => Config.unlistedByte
  | (k, b) :: rest => if k = a then b else Memory.get rest a

/-- An entry put before `m`, unless it says what an unlisted address reads as. -/
def Memory.cons (a : Nat) (v : Byte) (m : Memory) : Memory :=
  if v = Config.unlistedByte then m else (a, v) :: m

/-- `Mem[a] <- v`, keeping the canonical form. -/
def Memory.set (m : Memory) (a : Nat) (v : Byte) : Memory :=
  match m with
  | [] => Memory.cons a v []
  | (k, b) :: rest =>
    if a < k then Memory.cons a v ((k, b) :: rest)
    else if a = k then Memory.cons a v rest
    else (k, b) :: Memory.set rest a v

/-- The machine with another memory. -/
def State.setMem (s : State) (m : Memory) : State := { s with mem := m }

/-- `MemRead(a, 1)` (R51). -/
def memRead (s : State) (a : Nat) : Except Err Byte :=
  if a < s.config.memBytes then .ok (s.mem.get a) else .error .accessFault

/-- `MemWrite(a, 1, v)` (R52): the memory after it. -/
def memWrite (s : State) (a : Nat) (v : Byte) : Except Err Memory :=
  if a < s.config.memBytes then .ok (s.mem.set a v) else .error .accessFault

/-- `GetBit(base, idx)` (R54). -/
def getBit (s : State) (base idx : Nat) : Except Err Bool :=
  match memRead s (bitAddr base idx) with
  | .ok b => .ok (pixelOf b idx)
  | .error e => .error e

/-! ### Acceptance, completion, error, reset -/

/-- Acceptance of the command word `w` (spec/10_state.md R25). -/
def State.accept (s : State) (w : Word) : State :=
  { s with
    cmd := w
    lop := w
    l0 := s.arg0
    l1 := s.arg1
    l2 := s.arg2
    l3 := s.arg3
    status := statusWord true false 0#4
    work := none }

/-- `complete(v)`: the command ends with success (spec/60_exceptions.md R202). -/
def State.complete (s : State) (v : Word) : State :=
  { s with
    result := v
    status := statusWord false true 0#4
    work := none
    quota := none }

/-- `raise e`: the command ends with an error. This is the one place where an error is taken (R201). There is no handler
and no return from it (R207, R208). -/
def State.raise (s : State) (e : Err) : State :=
  { s with
    result := 0#32
    status := statusWord false true e.code
    work := none
    quota := none }

/-- The command stays in RUN with working variables `w` (spec/10_state.md R32), because its block steps are used up. -/
def State.pause (s : State) (w : Work) : State := { s with work := some w, quota := none }

/-- Reset: every register and latch 0, IDLE, no working variables. Memory is untouched
(spec/70_reset_and_hazards.md R230 to R232), and so are the parameters and the turns to come. -/
def State.resetBlock (s : State) : State :=
  { s with
    ctrl := 0#32
    cmd := 0#32
    status := 0#32
    result := 0#32
    arg0 := 0#32
    arg1 := 0#32
    arg2 := 0#32
    arg3 := 0#32
    lop := 0#32
    l0 := 0#32
    l1 := 0#32
    l2 := 0#32
    l3 := 0#32
    work := none
    quota := none }

/-! ### The register window -/

/-- The register at an offset of the window (spec/10_state.md R20). -/
def regOfOffset (off : Nat) : Option Reg :=
  match off with
  | 0x00 => some .ctrl
  | 0x04 => some .cmd
  | 0x08 => some .status
  | 0x0C => some .result
  | 0x10 => some .arg0
  | 0x14 => some .arg1
  | 0x18 => some .arg2
  | 0x1C => some .arg3
  | _ => none

/-- The offset of a register in the window (R20). -/
def regOffset (r : Reg) : Nat :=
  match r with
  | .ctrl => 0x00
  | .cmd => 0x04
  | .status => 0x08
  | .result => 0x0C
  | .arg0 => 0x10
  | .arg1 => 0x14
  | .arg2 => 0x18
  | .arg3 => 0x1C

/-- A host read of a register (R20, R21, R23, R24, R27, R29, R30): reserved bits read as 0, and there is no side effect. -/
def readReg (s : State) (r : Reg) : Word :=
  match r with
  | .ctrl => s.ctrl &&& ctrlMask
  | .cmd => s.cmd
  | .status => s.status &&& statusMask
  | .result => s.result
  | .arg0 => s.arg0
  | .arg1 => s.arg1
  | .arg2 => s.arg2
  | .arg3 => s.arg3

/-- A host write of `v` to a register: CTRL keeps IE only (R23); CMD is accepted in IDLE and ignored in RUN (R25, R26);
a 1 in bit 1 of STATUS clears DONE (R28); RESULT ignores writes (R21); ARG0 to ARG3 take the word (R30). -/
def writeReg (s : State) (r : Reg) (v : Word) : State :=
  match r with
  | .ctrl => { s with ctrl := v &&& ctrlMask }
  | .cmd => if s.busy then s else s.accept v
  | .status => if v.getLsbD 1 && s.done then { s with status := clearDone s.status } else s
  | .result => s
  | .arg0 => { s with arg0 := v }
  | .arg1 => { s with arg1 := v }
  | .arg2 => { s with arg2 := v }
  | .arg3 => { s with arg3 := v }

/-! ### Running a command body -/

/-- What one block step of a command body does: it makes at most one memory access and goes on with other working
variables, or it completes, or it raises an error. -/
inductive Micro (ω : Type) where
  | goOn (m : Memory) (w : ω)
  | complete (v : Word)
  | raise (e : Err)
  deriving DecidableEq, Repr

/-- A block step that makes no access. -/
def Micro.internal {ω : Type} (s : State) (w : ω) : Micro ω := .goOn s.mem w

/-- A block step that reads the byte at `a` (R51) and goes on with `k` of it. -/
def Micro.reading {ω : Type} (s : State) (a : Nat) (k : Byte → ω) : Micro ω :=
  match memRead s a with
  | .ok b => .goOn s.mem (k b)
  | .error e => .raise e

/-- A block step that writes `v` at `a` (R52) and goes on with `w`. -/
def Micro.writing {ω : Type} (s : State) (a : Nat) (v : Byte) (w : ω) : Micro ω :=
  match memWrite s a v with
  | .ok m => .goOn m w
  | .error e => .raise e

/-- At most `k` block steps of a command body, whose one step is `f`, from working variables `w`. The body ends with
`complete` or `raise`; when the steps are used up before that, the command is left in RUN (spec/10_state.md R32). -/
def runBody {ω : Type} (f : State → ω → Micro ω) (inj : ω → Work) (k : Nat) (w : ω) (s : State) : State :=
  match k with
  | 0 => s.pause (inj w)
  | n + 1 =>
    match f s w with
    | .goOn m w' => runBody f inj n w' (s.setMem m)
    | .complete v => s.complete v
    | .raise e => s.raise e

/-- How far the same run gets: `mark` of the last working variables it reaches. No state changes. -/
def runMark {ω : Type} (f : State → ω → Micro ω) (mark : ω → Nat) (k : Nat) (w : ω) (s : State) : Nat :=
  match k with
  | 0 => mark w
  | n + 1 =>
    match f s w with
    | .goOn m w' => runMark f mark n w' (s.setMem m)
    | .complete _ => mark w
    | .raise _ => mark w

/-- How many block steps the block's next move takes. -/
def State.granted (s : State) : Nat :=
  match s.quota with
  | some n => n
  | none => Config.blockStepBound

end Sys2Proof.Machine
end

