-- ==== Sys2Proof/Machine/BitPrimitives.lean ====
section
/-!
DEFINITION. The bitwise buffer reader and writer: GETBIT and PUTBIT (spec/40_bit_primitives.md R100 to R102).
-/

namespace Sys2Proof.Machine

/-- The byte GETBIT reads: `L0 + L2 // 8` (R100). -/
def getbitAddr (s : State) : Nat := bitAddr s.srcBase s.arg2Nat

/-- One block step of GETBIT (R100). -/
def getbitStep (s : State) (w : GetbitWork) : Micro GetbitWork :=
  match w with
  | .read => .reading s (getbitAddr s) .got
  | .got b => .complete ((BitVec.ofBool (pixelOf b s.arg2Nat)).setWidth 32)

/-- Where GETBIT goes on: its own working variables, or its beginning when the command has made no step. -/
def getbitEnter (w : Option Work) : GetbitWork :=
  match w with
  | some (.getbit g) => g
  | _ => .read

/-- GETBIT: read one bit of a buffer (R100). -/
def execGetbit (s : State) : Host.Outcome State Fault Refusal :=
  .next (runBody getbitStep .getbit s.granted (getbitEnter s.work) s)

/-- The byte PUTBIT reads and writes: `L1 + L2 // 8` (R101). -/
def putbitAddr (s : State) : Nat := bitAddr s.dstBase s.arg2Nat

/-- One block step of PUTBIT (R101). The write is made even when it changes nothing. -/
def putbitStep (s : State) (w : PutbitWork) : Micro PutbitWork :=
  match w with
  | .read => .reading s (putbitAddr s) .write
  | .write b => .writing s (putbitAddr s) (putBitInto b (bitPos s.arg2Nat) s.putValue) .done
  | .done => .complete 0#32

/-- Where PUTBIT goes on: its own working variables, or its beginning when the command has made no step. -/
def putbitEnter (w : Option Work) : PutbitWork :=
  match w with
  | some (.putbit g) => g
  | _ => .read

/-- PUTBIT: write one bit of a buffer (R101). -/
def execPutbit (s : State) : Host.Outcome State Fault Refusal :=
  .next (runBody putbitStep .putbit s.granted (putbitEnter s.work) s)

end Sys2Proof.Machine
end

