-- ==== Sys2Proof/Machine/Packer.lean ====
section
/-!
DEFINITION. The bitmap bit packer: PACK (spec/41_packer.md R120 to R125).
-/

namespace Sys2Proof.Machine

/-- Where PACK stands after pixel `8c + j` of chunk `c` is in `acc`: the next pixel, or the write of the byte (R120). -/
def packNext (c j : Nat) (acc : Byte) : PackWork :=
  if j < 7 then .read c (j + 1) acc else .write c acc

/-- One block step of PACK (R120). A pixel past `n` is never read and leaves its pad bit 0 (R122). -/
def packStep (s : State) (w : PackWork) : Micro PackWork :=
  match w with
  | .entry => if s.arg2Nat = 0 then .raise .invalidPhotoSize else .internal s (.read 0 0 0#8)
  | .read c j acc =>
    if 8 * c + j < s.arg2Nat then .reading s (s.srcBase + (8 * c + j)) (.check c j acc)
    else .internal s (packNext c j acc)
  | .check c j acc ch =>
    if ch = Config.charOne then .internal s (packNext c j (orPixel acc j true))
    else if ch = Config.charZero then .internal s (packNext c j acc)
    else .raise .unknownCharacter
  | .write c acc =>
    .writing s (s.dstBase + c) acc (if c + 1 < ceil8 s.arg2Nat then .read (c + 1) 0 0#8 else .done)
  | .done => .complete (BitVec.ofNat 32 (ceil8 s.arg2Nat))

/-- Where PACK goes on: its own working variables, or its beginning when the command has made no step. -/
def packEnter (w : Option Work) : PackWork :=
  match w with
  | some (.pack p) => p
  | _ => .entry

/-- PACK: pack a PixelBuffer into a PackedBuffer (R120). -/
def execPack (s : State) : Host.Outcome State Fault Refusal :=
  .next (runBody packStep .pack s.granted (packEnter s.work) s)

end Sys2Proof.Machine
end

