-- ==== Sys2Proof/Machine/RleDecoder.lean ====
section
/-!
DEFINITION. The RLE decoder: RLEDEC and RLEREND over one front end and one replay (spec/43_rle_decoder.md R160 to R170).
-/

namespace Sys2Proof.Machine

/-- The two halves of a command's `Put` and what it does after Replay (R161, R162): the memory after it and the command's
own variable, or an error. -/
structure Sink (σ : Type) where
  /-- The variable before Replay. -/
  init : σ
  /-- The first half of `Put(color, t)`. -/
  first : State → ReplayVars → σ → Except Err (Memory × σ)
  /-- The second half of `Put(color, t)`. -/
  second : State → ReplayVars → σ → Except Err (Memory × σ)
  /-- What follows Replay. -/
  tail : State → ReplayVars → σ → Except Err (Memory × σ)
  /-- The value completion takes. -/
  result : ReplayVars → σ → Nat

/-- A write of `v` at `a`, after which the command's variable is `x`. -/
def sinkWrite {σ : Type} (s : State) (a : Nat) (v : Byte) (x : σ) : Except Err (Memory × σ) :=
  match memWrite s a v with
  | .ok m => .ok (m, x)
  | .error e => .error e

/-- A block step that does one of a sink's actions and goes on with `k`. -/
def Micro.sinking {ω σ : Type} (r : Except Err (Memory × σ)) (k : σ → ω) : Micro ω :=
  match r with
  | .ok (m, x) => .goOn m (k x)
  | .error e => .raise e

/-- The working variables before the first run byte (R163). -/
def replayStart (rows cols : Byte) : ReplayVars := { rows := rows, cols := cols, total := 0, black := true, p := 2 }

/-- The run byte at `p` has been read. -/
def ReplayVars.tookRun (v : ReplayVars) : ReplayVars := { v with p := v.p + 1 }

/-- The colour changes, also after a run byte 0 (R163). -/
def ReplayVars.flipped (v : ReplayVars) : ReplayVars := { v with black := !v.black }

/-- One more pixel has been put. -/
def ReplayVars.putOne (v : ReplayVars) : ReplayVars := { v with total := v.total + 1 }

/-- One block step of a decoding command: the front end (R160) and the replay (R163 to R166) around its sink. -/
def decodeStep {σ : Type} (k : Sink σ) (s : State) (w : DecWork σ) : Micro (DecWork σ) :=
  match w with
  | .entry => if s.arg3Nat < 2 then .raise .malformedStream else .internal s .header0
  | .header0 => .reading s (s.srcBase + 0) .header1
  | .header1 rows => .reading s (s.srcBase + 1) (.header rows)
  | .header rows cols =>
    if rows = 0#8 ∨ cols = 0#8 then .raise .invalidPhotoSize
    else .internal s (.next (replayStart rows cols) k.init)
  | .next v x =>
    if v.total < v.pixels then
      if v.p ≥ s.arg3Nat then .raise .malformedStream
      else .reading s (s.srcBase + v.p) (fun run => .overrun v.tookRun x run.toNat)
    else .internal s (.tail v x)
  | .overrun v x run =>
    if v.total + run > v.pixels then .raise .malformedStream else .internal s (.put v x run)
  | .put v x left =>
    match left with
    | 0 => .internal s (.next v.flipped x)
    | n + 1 => .sinking (k.first s v x) (fun y => .putEnd v y (n + 1))
  | .putEnd v x left => .sinking (k.second s v x) (fun y => .put v.putOne y (left - 1))
  | .tail v x => .sinking (k.tail s v x) (fun y => .done v y)
  | .done v x => .complete (BitVec.ofNat 32 (k.result v x))

/-- RLEDEC's Put and end (R161, R167): the byte being built is `acc`, and it is written whole when its last pixel is in. -/
def packedSink : Sink Byte where
  init := 0#8
  first := fun s v acc =>
    .ok (s.mem, orPixel (if v.total % 8 = 0 then 0#8 else acc) (v.total % 8) v.black)
  second := fun s v acc =>
    if v.total % 8 = 7 then sinkWrite s (s.dstBase + v.total / 8) acc acc else .ok (s.mem, acc)
  tail := fun s v acc =>
    if v.pixels % 8 ≠ 0 then sinkWrite s (s.dstBase + v.pixels / 8) acc acc else .ok (s.mem, acc)
  result := fun v _ => ceil8 v.pixels

/-- RLEREND's Put (R162, R168): the glyph of the pixel, then a line feed after every `cols`-th pixel. -/
def textSink : Sink Nat where
  init := 0
  first := fun s v q =>
    sinkWrite s (s.dstBase + q) (if v.black then Config.glyphBlack else Config.glyphWhite) (q + 1)
  second := fun s v q =>
    if (v.total + 1) % v.cols.toNat = 0 then sinkWrite s (s.dstBase + q) Config.lineFeed (q + 1) else .ok (s.mem, q)
  tail := fun s _ q => .ok (s.mem, q)
  result := fun _ q => q

/-- How many bytes of the stream have been read, from its base up (R160, R163): header first, then `p`. -/
def DecWork.bytesRead {σ : Type} (w : DecWork σ) : Nat :=
  match w with
  | .entry => 0
  | .header0 => 0
  | .header1 _ => 1
  | .header _ _ => 2
  | .next v _ => v.p
  | .overrun v _ _ => v.p
  | .put v _ _ => v.p
  | .putEnd v _ _ => v.p
  | .tail v _ => v.p
  | .done v _ => v.p

/-- How many bytes of the stream a decoding command at `w` has read when it ends: at most `src_len`, and none after the
one that completes its pixels (R166, spec/20_memory.md R62). -/
def decodeReads {σ : Type} (k : Sink σ) (w : DecWork σ) (s : State) : Nat :=
  runMark (decodeStep k) DecWork.bytesRead Config.blockStepBound w s

/-- Where RLEDEC goes on: its own working variables, or its beginning when the command has made no step. -/
def rledecEnter (w : Option Work) : DecWork Byte :=
  match w with
  | some (.rledec d) => d
  | _ => .entry

/-- RLEDEC: decode an EncodedBuffer into a PackedBuffer (R161). -/
def execRledec (s : State) : Host.Outcome State Fault Refusal :=
  .next (runBody (decodeStep packedSink) .rledec s.granted (rledecEnter s.work) s)

/-- How many bytes of the stream RLEDEC has read when it ends. -/
def rledecReads (s : State) : Nat := decodeReads packedSink (rledecEnter s.work) s

/-- Where RLEREND goes on: its own working variables, or its beginning when the command has made no step. -/
def rlerendEnter (w : Option Work) : DecWork Nat :=
  match w with
  | some (.rlerend d) => d
  | _ => .entry

/-- RLEREND: decode an EncodedBuffer into glyph text (R162). -/
def execRlerend (s : State) : Host.Outcome State Fault Refusal :=
  .next (runBody (decodeStep textSink) .rlerend s.granted (rlerendEnter s.work) s)

/-- How many bytes of the stream RLEREND has read when it ends. -/
def rlerendReads (s : State) : Nat := decodeReads textSink (rlerendEnter s.work) s

end Sys2Proof.Machine
end

