-- ==== Sys2Proof/Machine/RleEncoder.lean ====
section
/-!
DEFINITION. The RLE encoder: RLEENC (spec/42_rle_encoder.md R140 to R149).
-/

namespace Sys2Proof.Machine

/-- The working variables before pixel 0: the header is written, run 0 is black and empty (R140). -/
def encStart : EncVars := { i := 0, o := 2, black := true, count := 0, b := 0#8 }

/-- One byte written at the output offset, which moves on. -/
def EncVars.wrote (v : EncVars) : EncVars := { v with o := v.o + 1 }

/-- Pixel `i` counted in the current run. -/
def EncVars.counted (v : EncVars) : EncVars := { v with i := v.i + 1, count := v.count + 1 }

/-- The current run is over, and the next one, of the other colour, is empty (R140, R143). -/
def EncVars.flipped (v : EncVars) : EncVars := { v with black := !v.black, count := 0 }

/-- One block step of RLEENC (R140). Zero dimensions come before the limit (R141). -/
def rleencStep (s : State) (w : EncWork) : Micro EncWork :=
  match w with
  | .entry =>
    if s.arg2Nat = 0 ∨ s.arg3Nat = 0 then .raise .invalidPhotoSize
    else if s.arg2Nat > Config.maxDim ∨ s.arg3Nat > Config.maxDim then .raise .rleLimitExceeded
    else .internal s .header0
  | .header0 => .writing s (s.dstBase + 0) (BitVec.ofNat 8 s.arg2Nat) .header1
  | .header1 => .writing s (s.dstBase + 1) (BitVec.ofNat 8 s.arg3Nat) (.pixel encStart)
  | .pixel v =>
    if v.i < s.encPixels then
      if v.i % 8 = 0 then .reading s (s.srcBase + v.i / 8) (fun b => .bit { v with b := b })
      else .internal s (.bit v)
    else .internal s (.emit v v.count true)
  | .bit v =>
    if pixelOf v.b v.i = v.black then .internal s (.pixel v.counted) else .internal s (.emit v v.count false)
  | .emit v k last =>
    if k > Config.maxRun then
      .writing s (s.dstBase + v.o) (BitVec.ofNat 8 Config.maxRun) (.emitZero v.wrote k last)
    else
      .writing s (s.dstBase + v.o) (BitVec.ofNat 8 k)
        (if last then .done v.wrote else .pixel v.wrote.flipped.counted)
  | .emitZero v k last => .writing s (s.dstBase + v.o) 0#8 (.emit v.wrote (k - Config.maxRun) last)
  | .done v => .complete (BitVec.ofNat 32 v.o)

/-- Where RLEENC goes on: its own working variables, or its beginning when the command has made no step. -/
def rleencEnter (w : Option Work) : EncWork :=
  match w with
  | some (.rleenc e) => e
  | _ => .entry

/-- RLEENC: run-length encode a PackedBuffer (R140). -/
def execRleenc (s : State) : Host.Outcome State Fault Refusal :=
  .next (runBody rleencStep .rleenc s.granted (rleencEnter s.work) s)

/-- How many bytes have been written, from the destination base up (R140, R142): header first, then `o`. -/
def EncWork.written (w : EncWork) : Nat :=
  match w with
  | .entry => 0
  | .header0 => 0
  | .header1 => 1
  | .pixel v => v.o
  | .bit v => v.o
  | .emit v _ _ => v.o
  | .emitZero v _ _ => v.o
  | .done v => v.o

/-- How many bytes, from the destination base up, the command has written when it ends: RESULT of R145 on success, and
on an error the bytes written before it (spec/20_memory.md R62, IM25). -/
def rleencWrites (s : State) : Nat :=
  runMark rleencStep EncWork.written Config.blockStepBound (rleencEnter s.work) s

end Sys2Proof.Machine
end

