-- ==== Sys2Proof/Machine/Dispatch.lean ====
section
/-!
DEFINITION. The meaning of every command: one arm per row of the opcode map (spec/30_encoding.md R72).
-/

namespace Sys2Proof.Machine

def exec (i : Instr) (s : State) : Host.Outcome State Fault Refusal :=
  match i with
  | .getbit => Sys2Proof.Machine.execGetbit s
  | .putbit => Sys2Proof.Machine.execPutbit s
  | .pack => Sys2Proof.Machine.execPack s
  | .rleenc => Sys2Proof.Machine.execRleenc s
  | .rledec => Sys2Proof.Machine.execRledec s
  | .rlerend => Sys2Proof.Machine.execRlerend s

end Sys2Proof.Machine
end

