-- ==== Sys2Proof/WellFormed.lean ====
section
/-!
DEFINITION. What the spec requires of an instruction, of a machine's parameters and of a host register access before
the machine gives them a meaning.
-/

namespace Sys2Proof

/-- Every command is well formed: it holds no register number, immediate or mode field (spec/30_encoding.md R71).
The reserved bits and opcodes are refused by the decoder, before an `Instr` exists (R74, R75). -/
def Instr.wellFormed (i : Instr) : Bool :=
  match i with
  | .getbit => true
  | .putbit => true
  | .pack => true
  | .rleenc => true
  | .rledec => true
  | .rlerend => true

/-- `MEM_BYTES` lies between 1 and 2^32 (spec/00_scope.md R7, spec/20_memory.md R50). `REG_BASE` is any address. -/
abbrev Config.wellFormed (c : Config) : Prop := 1 ≤ c.memBytes ∧ c.memBytes ≤ 2 ^ 32

/-- A host register access is 32 bits wide, at an offset in the window that is a multiple of 4 (spec/10_state.md R20,
R21; spec/93_implementation_defined.md IM22, IM23). -/
abbrev HostAccess.wellFormed (c : Config) (addr width : Nat) : Prop :=
  width = 32 ∧ c.regBase ≤ addr ∧ addr < c.regBase + Config.windowBytes ∧ (addr - c.regBase) % 4 = 0

end Sys2Proof
end

