-- ==== Sys2Proof/Decode.lean ====
section
/-!
DEFINITION. Decoding a command word (spec/30_encoding.md R70 to R76) and, after it, the encoder written from the same
table. A command is exactly one 32-bit word, so a decoder needs no length logic (R76) and no byte order (spec/20_memory.md R55).
-/

namespace Sys2Proof

/-- Why a command word is illegal (R75). Both raise IllegalCommand when the word is executed (R74). -/
inductive DecodeError where
  /-- Some bit of RSVD, bits 31:4, is set, whatever OP holds (R74, IM17). -/
  | reservedBits
  /-- OP is 0x0 or 0x7 to 0xF (R75, IM15, IM16). -/
  | reservedOpcode
  deriving DecidableEq, Repr

/-- The OP field, bits 3:0 (R70). -/
def opField (w : Word) : BitVec 4 := w.extractLsb' 0 4

/-- The RSVD field, bits 31:4 (R70). -/
def rsvdField (w : Word) : BitVec 28 := w.extractLsb' 4 28

/-- The opcode map (R72). -/
def decodeOp (op : BitVec 4) : Option Instr :=
  if op = 0x1#4 then some .getbit
  else if op = 0x2#4 then some .putbit
  else if op = 0x3#4 then some .pack
  else if op = 0x4#4 then some .rleenc
  else if op = 0x5#4 then some .rledec
  else if op = 0x6#4 then some .rlerend
  else none

/-- Decode a latched command word (R74): RSVD first, then OP. -/
def decode (w : Word) : Except DecodeError Instr :=
  if rsvdField w = 0#28 then
    match decodeOp (opField w) with
    | some i => .ok i
    | none => .error .reservedOpcode
  else .error .reservedBits

/-- The opcode of a command (R72). -/
def opcode (i : Instr) : BitVec 4 :=
  match i with
  | .getbit => 0x1#4
  | .putbit => 0x2#4
  | .pack => 0x3#4
  | .rleenc => 0x4#4
  | .rledec => 0x5#4
  | .rlerend => 0x6#4

/-- The command word of a command: RSVD 0 and OP from the map (R70, R72). -/
def encode (i : Instr) : Word := 0#28 ++ opcode i

/-- The command word whose bits the opcode table numbers as `w`, with `nbits` of them given and every bit above them 0.
The window is written in whole 32-bit words, so the word itself is what the machine sees (R76, spec/20_memory.md R55). -/
def tableWord (nbits w : Nat) : Word := BitVec.ofNat 32 (w % 2 ^ nbits)

/-- What the decoder reads from the table's word `w` of `nbits` bits. A row of more than 32 bits is no command (R76). -/
def decodeTableWord (nbits w : Nat) : Option Instr :=
  if nbits ≤ 32 then
    match decode (tableWord nbits w) with
    | .ok i => some i
    | .error _ => none
  else none

end Sys2Proof
end

