-- ==== Sys2Proof/Machine/HostPort.lean ====
section
/-!
DEFINITION. What the host and the platform do to the machine (spec/70_reset_and_hazards.md R230 to R240): register
accesses, loads and stores of memory, reset; and the host program notation (spec/30_encoding.md R77, R78).
-/

namespace Sys2Proof.Machine

/-! ### Register accesses -/

/-- The register a host access reaches, or why it has no move (spec/10_state.md R20, R21; IM22, IM23). -/
def hostReg (s : State) (addr width : Nat) : Except Refusal Reg :=
  if addr < s.config.regBase ∨ s.config.regBase + Config.windowBytes ≤ addr then .error .hostAccessOutsideWindow
  else if width ≠ 32 then .error .hostAccessNotWordWide
  else
    match regOfOffset (addr - s.config.regBase) with
    | some r => .ok r
    | none => .error .hostAccessMisaligned

/-- A host write to the window (R21). -/
def hostRegWrite (s : State) (addr width : Nat) (v : Word) : Host.Outcome State Fault Refusal :=
  match hostReg s addr width with
  | .ok r => .next (writeReg s r v)
  | .error e => .refused e

/-- A host read of the window: no register changes, and the host has the value (R21). -/
def hostRegRead (s : State) (addr width : Nat) : Host.Outcome State Fault Refusal :=
  match hostReg s addr width with
  | .ok r => .next { s with hostData := readReg s r }
  | .error e => .refused e

/-! ### The ranges of the running command -/

/-- A run of bytes: `len` of them from `base` up. -/
structure Span where
  base : Nat
  len : Nat
  deriving DecidableEq, Repr

/-- The address lies in the span. -/
abbrev Span.contains (r : Span) (a : Nat) : Prop := r.base ≤ a ∧ a < r.base + r.len

/-- No bytes. -/
def Span.none : Span := { base := 0, len := 0 }

/-- The checks of RLEENC pass (spec/42_rle_encoder.md R141). -/
abbrev encChecksPass (s : State) : Prop :=
  1 ≤ s.arg2Nat ∧ s.arg2Nat ≤ Config.maxDim ∧ 1 ≤ s.arg3Nat ∧ s.arg3Nat ≤ Config.maxDim

/-- The header bytes of a decoding command: those it has read, or, before that, those it will read from memory. -/
def decDims {σ : Type} (s : State) (w : DecWork σ) : Byte × Byte :=
  match w with
  | .entry => (s.mem.get (s.srcBase + 0), s.mem.get (s.srcBase + 1))
  | .header0 => (s.mem.get (s.srcBase + 0), s.mem.get (s.srcBase + 1))
  | .header1 rows => (rows, s.mem.get (s.srcBase + 1))
  | .header rows cols => (rows, cols)
  | .next v _ => (v.rows, v.cols)
  | .overrun v _ _ => (v.rows, v.cols)
  | .put v _ _ => (v.rows, v.cols)
  | .putEnd v _ _ => (v.rows, v.cols)
  | .tail v _ => (v.rows, v.cols)
  | .done v _ => (v.rows, v.cols)

/-- The header bytes of RLEDEC (spec/43_rle_decoder.md R160). -/
def rledecDims (s : State) : Byte × Byte :=
  match s.work with
  | some (.rledec w) => decDims s w
  | _ => decDims s (DecWork.entry (σ := Byte))

/-- The header bytes of RLEREND (R160). -/
def rlerendDims (s : State) : Byte × Byte :=
  match s.work with
  | some (.rlerend w) => decDims s w
  | _ => decDims s (DecWork.entry (σ := Nat))

/-- The "reads" range of the running command (spec/20_memory.md R62): for a decoding command, which reads "at most `L3`
bytes", the bytes it reads until it ends. Empty for a command whose checks fail before any access. notes/assumptions/6.md. -/
def readsOf (i : Instr) (s : State) : Span :=
  match i with
  | .getbit => { base := bitAddr s.srcBase s.arg2Nat, len := 1 }
  | .putbit => { base := bitAddr s.dstBase s.arg2Nat, len := 1 }
  | .pack => { base := s.srcBase, len := s.arg2Nat }
  | .rleenc => if encChecksPass s then { base := s.srcBase, len := ceil8 s.encPixels } else Span.none
  | .rledec => { base := s.srcBase, len := rledecReads s }
  | .rlerend => { base := s.srcBase, len := rlerendReads s }

/-- The "writes" range of a decoding command with header bytes `d` that writes `n` bytes for them (R62). -/
def decWrites (s : State) (d : Byte × Byte) (n : Nat) : Span :=
  if 2 ≤ s.arg3Nat ∧ d.1 ≠ 0#8 ∧ d.2 ≠ 0#8 then { base := s.dstBase, len := n } else Span.none

/-- The "writes" range of the running command (R62). For RLEENC that is RESULT bytes, those it writes until it ends, and
not the N + 3 bytes of its largest range. DEDUCED, safe. notes/assumptions/6.md. -/
def writesOf (i : Instr) (s : State) : Span :=
  match i with
  | .getbit => Span.none
  | .putbit => { base := bitAddr s.dstBase s.arg2Nat, len := 1 }
  | .pack => { base := s.dstBase, len := ceil8 s.arg2Nat }
  | .rleenc => { base := s.dstBase, len := rleencWrites s }
  | .rledec => decWrites s (rledecDims s) (ceil8 ((rledecDims s).1.toNat * (rledecDims s).2.toNat))
  | .rlerend =>
    decWrites s (rlerendDims s) ((rlerendDims s).1.toNat * (rlerendDims s).2.toNat + (rlerendDims s).1.toNat)

/-- The host's store would fall into the running command's "reads" range (spec/70_reset_and_hazards.md R235). An illegal
command reads nothing. -/
def storeHitsReads (s : State) (a : Nat) : Bool :=
  s.busy &&
    match decode s.lop with
    | .ok i => decide ((readsOf i s).contains a)
    | .error _ => false

/-- The host's store would fall into the running command's "writes" range (R236). An illegal command writes nothing. -/
def storeHitsWrites (s : State) (a : Nat) : Bool :=
  s.busy &&
    match decode s.lop with
    | .ok i => decide ((writesOf i s).contains a)
    | .error _ => false

/-! ### Memory accesses -/

/-- A host store of one byte (R240). It has no move in a running command's ranges (R235, R236, IM24, IM25). -/
def hostMemWrite (s : State) (a : Nat) (v : Byte) : Host.Outcome State Fault Refusal :=
  if storeHitsReads s a then .refused .hostStoreIntoRunningReads
  else if storeHitsWrites s a then .refused .hostStoreIntoRunningWrites
  else if a < s.config.memBytes then .next (s.setMem (s.mem.set a v))
  else .fault .hostAddressOutsideMemory

/-- A host load of one byte, at any time: the byte's value at this point of the total order (R236, IM27). -/
def hostMemRead (s : State) (a : Nat) : Host.Outcome State Fault Refusal :=
  if a < s.config.memBytes then .next { s with hostData := (s.mem.get a).setWidth 32 }
  else .fault .hostAddressOutsideMemory

/-! ### The notation of host programs -/

/-- `WR <reg>, <value>` (spec/30_encoding.md R77). -/
def hostWR (c : Config) (r : Reg) (v : Word) : Input := .regWrite (c.regBase + regOffset r) 32 v

/-- `RD <reg>` (R77). -/
def hostRD (c : Config) (r : Reg) : Input := .regRead (c.regBase + regOffset r) 32

/-- `RUN <mnemonic>, a0, a1, a2, a3` (R78). -/
def hostRUN (c : Config) (i : Instr) (a0 a1 a2 a3 : Word) : List Input :=
  [hostWR c .arg0 a0, hostWR c .arg1 a1, hostWR c .arg2 a2, hostWR c .arg3 a3, hostWR c .cmd (encode i), .wait]

/-- `CLRDONE` (R78). -/
def hostCLRDONE (c : Config) : List Input := [hostWR c .status 0x00000002#32]

end Sys2Proof.Machine
end

