-- ==== Sys2Proof/Machine/Block.lean ====
section
/-!
DEFINITION. The block's own move and the taking of a turn (spec/10_state.md R22, R31; spec/30_encoding.md R74).
-/

namespace Sys2Proof.Machine

/-- An illegal command raises IllegalCommand, with no memory access (R74). That takes one block step. -/
def illegalMove (s : State) : Host.Outcome State Fault Refusal :=
  match s.granted with
  | 0 => .next { s with quota := none }
  | _ + 1 => .next (s.raise .illegalCommand)

/-- The block moves. In RUN it decodes LOP and goes on with the command it names (R74). In IDLE it has nothing to do and
makes no memory access (spec/20_memory.md R63, spec/60_exceptions.md R214). -/
def blockMove (s : State) : Host.Outcome State Fault Refusal :=
  if s.busy then
    match decode s.lop with
    | .ok i => exec i s
    | .error _ => illegalMove s
  else .next { s with quota := none }

/-- WAIT: the host reads STATUS until BUSY is 0 (R77). Its reads have no side effect, so while BUSY is 1 the turn is the
block's, and the WAIT stays first in line. notes/assumptions/8.md. -/
def hostWait (s : State) : Host.Outcome State Fault Refusal :=
  if s.busy then blockMove { s with inputs := .wait :: s.inputs, quota := none }
  else .next { s with hostData := readReg s .status }

/-- One turn of the total order is taken (R22). `s` no longer lists it. -/
def takeTurn (t : Input) (s : State) : Host.Outcome State Fault Refusal :=
  match t with
  | .regWrite addr width v => hostRegWrite s addr width v
  | .regRead addr width => hostRegRead s addr width
  | .wait => hostWait s
  | .memWrite addr v => hostMemWrite s addr v
  | .memRead addr => hostMemRead s addr
  | .reset => .next s.resetBlock
  | .block n => blockMove { s with quota := some n }

/-- One step of the machine: the oldest turn to come is taken, and when none is listed the block moves. -/
def stepMachine (s : State) : Host.Outcome State Fault Refusal :=
  match s.inputs with
  | [] => blockMove s
  | t :: rest => takeTurn t { s with inputs := rest }

/-- The machine with the table's word accepted as a command, and no turn before the block's (R25). -/
def fetchWord (s : State) (nbits w : Nat) : State :=
  { s.accept (tableWord nbits w) with inputs := [], quota := none }

end Sys2Proof.Machine
end

