-- ==== Sys2Proof/Machine/Step.lean ====
section
/-!
DEFINITION. The step of the machine, by the names the host uses.
-/

namespace Sys2Proof.Machine

/-- One step: one turn of the total order, or the block's move when no turn is listed (spec/10_state.md R22). -/
def step (s : State) : Host.Outcome State Fault Refusal := stepMachine s

/-- The machine whose very next step runs the command word with bits `w`. There is no program counter and no fetch
(spec/10_state.md R35): the word is accepted as if the host had written it to CMD. notes/assumptions/10.md. -/
def State.withFetchWord (s : State) (nbits w : Nat) : State := fetchWord s nbits w

end Sys2Proof.Machine
end

