-- ==== Sys2Proof/Machine/Pseudocode.lean ====
section
/-!
DEFINITION. The command bodies a second time, as whole sequential programs in the shape of the spec's pseudocode
(spec/40_bit_primitives.md R100, R101; spec/41_packer.md R120; spec/42_rle_encoder.md R140; spec/43_rle_decoder.md R160
to R163), and the codec on lists of pixels. The machine does not call them: the statements compare it with them.
-/

namespace Sys2Proof.Machine

/-- A piece of a command body: from the memory before it to the memory after it, with a value or an error. -/
abbrev Body (α : Type) : Type := Memory → Memory × Except Err α

/-- A body that only answers. -/
def Body.give {α : Type} (x : α) : Body α := fun m => (m, .ok x)

/-- `raise <Error>` (spec/00_scope.md R11). -/
def Body.fail {α : Type} (e : Err) : Body α := fun m => (m, .error e)

/-- One body after another. Nothing follows an error (spec/60_exceptions.md R204). -/
def Body.andThen {α β : Type} (b : Body α) (k : α → Body β) : Body β := fun m =>
  match b m with
  | (m', .ok x) => k x m'
  | (m', .error e) => (m', .error e)

/-- `MemRead(a, 1)` (spec/20_memory.md R51). -/
def Body.load (s : State) (a : Nat) : Body Byte := fun m => (m, memRead (s.setMem m) a)

/-- `MemWrite(a, 1, v)` (R52). -/
def Body.store (s : State) (a : Nat) (v : Byte) : Body Unit := fun m =>
  match memWrite (s.setMem m) a v with
  | .ok m' => (m', .ok ())
  | .error e => (m, .error e)

/-- `for i in from .. from + n - 1`, with `x` the variables the loop changes (R11). -/
def Body.loop {σ : Type} (n i : Nat) (x : σ) (f : Nat → σ → Body σ) : Body σ :=
  match n with
  | 0 => Body.give x
  | k + 1 => (f i x).andThen (fun y => Body.loop k (i + 1) y f)

/-- The end of a command: `complete` with the body's value, or its error (spec/60_exceptions.md R201, R202). -/
def conclude (s : State) (b : Body Nat) : State :=
  match b s.mem with
  | (m, .ok v) => (s.setMem m).complete (BitVec.ofNat 32 v)
  | (m, .error e) => (s.setMem m).raise e

/-- The pseudocode of GETBIT (R100). -/
def pseudoGetbit (s : State) : Body Nat :=
  (Body.load s (s.l0.toNat + s.l2.toNat / 8)).andThen (fun b =>
    Body.give (if b.getLsbD (7 - s.l2.toNat % 8) then 1 else 0))

/-- The pseudocode of PUTBIT (R101). -/
def pseudoPutbit (s : State) : Body Nat :=
  (Body.load s (s.l1.toNat + s.l2.toNat / 8)).andThen (fun b =>
    (Body.store s (s.l1.toNat + s.l2.toNat / 8)
      ((b &&& ~~~(1#8 <<< (7 - s.l2.toNat % 8)) &&& 0xFF#8) |||
        ((s.l3.extractLsb' 0 1).setWidth 8 <<< (7 - s.l2.toNat % 8)))).andThen (fun _ =>
      Body.give 0))

/-- The accumulator of one chunk of PACK with pixel `j` added (R120). -/
def pseudoPackPixel (s : State) (c j : Nat) (acc : Byte) : Body Byte :=
  if 8 * c + j < s.l2.toNat then
    (Body.load s (s.l0.toNat + (8 * c + j))).andThen (fun ch =>
      if ch = 0x31#8 then Body.give (acc ||| (1#8 <<< (7 - j)))
      else if ch = 0x30#8 then Body.give acc
      else Body.fail .unknownCharacter)
  else Body.give acc

/-- The pseudocode of PACK (R120). -/
def pseudoPack (s : State) : Body Nat :=
  if s.l2.toNat = 0 then Body.fail .invalidPhotoSize
  else
    (Body.loop (ceil8 s.l2.toNat) 0 () (fun c _ =>
      (Body.loop 8 0 0#8 (fun j acc => pseudoPackPixel s c j acc)).andThen (fun acc =>
        Body.store s (s.l1.toNat + c) acc))).andThen (fun _ =>
      Body.give (ceil8 s.l2.toNat))

/-- Emit(k) at output offset `o` (R140, R144): `(k - 1) // 255` pairs 255, 0 and then the rest; the offset after it. -/
def pseudoEmit (s : State) (o k : Nat) : Body Nat :=
  (Body.loop ((k - 1) / 255) 0 o (fun _ o =>
    (Body.store s (s.l1.toNat + o) 255#8).andThen (fun _ =>
      (Body.store s (s.l1.toNat + (o + 1)) 0#8).andThen (fun _ =>
        Body.give (o + 2))))).andThen (fun o =>
    (Body.store s (s.l1.toNat + o) (BitVec.ofNat 8 (k - 255 * ((k - 1) / 255)))).andThen (fun _ =>
      Body.give (o + 1)))

/-- The variables of RLEENC's pixel loop. -/
structure PseudoRun where
  o : Nat
  color : Bool
  count : Nat
  b : Byte
  deriving DecidableEq, Repr

/-- One pass of RLEENC's pixel loop (R140). -/
def pseudoEncodePixel (s : State) (i : Nat) (r : PseudoRun) : Body PseudoRun :=
  (if i % 8 = 0 then Body.load s (s.l0.toNat + i / 8) else Body.give r.b).andThen (fun b =>
    if b.getLsbD (7 - i % 8) = r.color then
      Body.give { o := r.o, color := r.color, count := r.count + 1, b := b }
    else
      (pseudoEmit s r.o r.count).andThen (fun o =>
        Body.give { o := o, color := !r.color, count := 1, b := b }))

/-- The pseudocode of RLEENC (R140, R141). -/
def pseudoRleenc (s : State) : Body Nat :=
  if s.l2.toNat = 0 ∨ s.l3.toNat = 0 then Body.fail .invalidPhotoSize
  else if 255 < s.l2.toNat ∨ 255 < s.l3.toNat then Body.fail .rleLimitExceeded
  else
    (Body.store s (s.l1.toNat + 0) (BitVec.ofNat 8 s.l2.toNat)).andThen (fun _ =>
      (Body.store s (s.l1.toNat + 1) (BitVec.ofNat 8 s.l3.toNat)).andThen (fun _ =>
        (Body.loop (s.l2.toNat * s.l3.toNat) 0 { o := 2, color := true, count := 0, b := 0#8 }
          (fun i r => pseudoEncodePixel s i r)).andThen (fun r =>
          pseudoEmit s r.o r.count)))

/-- Front() (R160): the header bytes. -/
def pseudoFront (s : State) : Body (Byte × Byte) :=
  if s.l3.toNat < 2 then Body.fail .malformedStream
  else
    (Body.load s (s.l0.toNat + 0)).andThen (fun rows =>
      (Body.load s (s.l0.toNat + 1)).andThen (fun cols =>
        if rows = 0#8 ∨ cols = 0#8 then Body.fail .invalidPhotoSize else Body.give (rows, cols)))

/-- Replay(N, Put) (R163). `left` is how many bytes of the stream, from offset `p`, are left before `src_len`. -/
def pseudoReplay {σ : Type} (s : State) (n : Nat) (put : Bool → Nat → σ → Body σ) (left p total : Nat) (color : Bool)
    (x : σ) : Body σ :=
  if total < n then
    match left with
    | 0 => Body.fail .malformedStream
    | k + 1 =>
      (Body.load s (s.l0.toNat + p)).andThen (fun run =>
        if n < total + run.toNat then Body.fail .malformedStream
        else
          (Body.loop run.toNat total x (fun t y => put color t y)).andThen (fun y =>
            pseudoReplay s n put k (p + 1) (total + run.toNat) (!color) y))
  else Body.give x

/-- The pseudocode of RLEDEC (R161). -/
def pseudoRledec (s : State) : Body Nat :=
  (pseudoFront s).andThen (fun d =>
    (pseudoReplay s (d.1.toNat * d.2.toNat)
      (fun color t acc =>
        if t % 8 = 7 then
          (Body.store s (s.l1.toNat + t / 8)
            ((if t % 8 = 0 then 0#8 else acc) ||| ((BitVec.ofBool color).setWidth 8 <<< (7 - t % 8)))).andThen (fun _ =>
            Body.give ((if t % 8 = 0 then 0#8 else acc) ||| ((BitVec.ofBool color).setWidth 8 <<< (7 - t % 8))))
        else Body.give ((if t % 8 = 0 then 0#8 else acc) ||| ((BitVec.ofBool color).setWidth 8 <<< (7 - t % 8))))
      (s.l3.toNat - 2) 2 0 true 0#8).andThen (fun acc =>
      if d.1.toNat * d.2.toNat % 8 = 0 then Body.give (ceil8 (d.1.toNat * d.2.toNat))
      else
        (Body.store s (s.l1.toNat + d.1.toNat * d.2.toNat / 8) acc).andThen (fun _ =>
          Body.give (ceil8 (d.1.toNat * d.2.toNat)))))

/-- The pseudocode of RLEREND (R162). -/
def pseudoRlerend (s : State) : Body Nat :=
  (pseudoFront s).andThen (fun d =>
    pseudoReplay s (d.1.toNat * d.2.toNat)
      (fun color t q =>
        (Body.store s (s.l1.toNat + q) (if color then 0x23#8 else 0x20#8)).andThen (fun _ =>
          if (t + 1) % d.2.toNat = 0 then
            (Body.store s (s.l1.toNat + (q + 1)) 0x0A#8).andThen (fun _ => Body.give (q + 2))
          else Body.give (q + 1)))
      (s.l3.toNat - 2) 2 0 true 0)

/-- The pseudocode of a command. -/
def pseudocode (i : Instr) (s : State) : Body Nat :=
  match i with
  | .getbit => pseudoGetbit s
  | .putbit => pseudoPutbit s
  | .pack => pseudoPack s
  | .rleenc => pseudoRleenc s
  | .rledec => pseudoRledec s
  | .rlerend => pseudoRlerend s

/-! ### The codec on lists -/

/-- Bit `i` of the PackedBuffer at `base` (spec/20_memory.md R54, R60). -/
def pixelAt (m : Memory) (base i : Nat) : Bool := (Memory.get m (base + i / 8)).getLsbD (7 - i % 8)

/-- The first `n` pixels of the PackedBuffer at `base`. -/
def pixelsAt (m : Memory) (base n : Nat) : List Bool := (List.range n).map (pixelAt m base)

/-- The `n` bytes from `base` up. -/
def bytesAt (m : Memory) (base n : Nat) : List Byte := (List.range n).map (fun i => Memory.get m (base + i))

/-- The lengths of the runs of a list of pixels, beginning with a run of `color` that already counts `count`
(spec/42_rle_encoder.md R143). -/
def runLengths (color : Bool) (count : Nat) (px : List Bool) : List Nat :=
  match px with
  | [] => [count]
  | b :: rest => if b = color then runLengths color (count + 1) rest else count :: runLengths (!color) 1 rest

/-- The run bytes of one run: `(L - 1) // 255` pairs 255, 0 and then the rest (R144). -/
def runBytes (len : Nat) : List Byte :=
  (List.replicate ((len - 1) / 255) [255#8, 0#8]).flatten ++ [BitVec.ofNat 8 (len - 255 * ((len - 1) / 255))]

/-- The EncodedBuffer of a picture (spec/20_memory.md R61): the header and the run bytes, run 0 black. -/
def encodedBuffer (rows cols : Nat) (px : List Bool) : List Byte :=
  BitVec.ofNat 8 rows :: BitVec.ofNat 8 cols :: (runLengths true 0 px).flatMap runBytes

/-- Why a list of run bytes is not a picture of `n` pixels, or the pixels (spec/43_rle_decoder.md R163 to R166). Bytes
after the one that completes `n` pixels are not looked at. -/
def replayRuns (n : Nat) (color : Bool) (done : List Bool) (runs : List Byte) : Except Err (List Bool) :=
  if done.length < n then
    match runs with
    | [] => .error .malformedStream
    | r :: rest =>
      if n < done.length + r.toNat then .error .malformedStream
      else replayRuns n (!color) (done ++ List.replicate r.toNat color) rest
  else .ok done

/-- How many of the run bytes are read when `left` pixels are still to come: all up to the one that completes or passes
them (spec/43_rle_decoder.md R163 to R166). -/
def runsRead (left : Nat) (runs : List Byte) : Nat :=
  match runs with
  | [] => 0
  | r :: rest => if left = 0 then 0 else runsRead (left - r.toNat) rest + 1

/-- The text of the pixels from pixel `t` on, in rows of `cols` (spec/43_rle_decoder.md R162, R168). -/
def glyphText (cols t : Nat) (px : List Bool) : List Byte :=
  match px with
  | [] => []
  | b :: rest =>
    (if b then 0x23#8 else 0x20#8) ::
      (if (t + 1) % cols = 0 then 0x0A#8 :: glyphText cols (t + 1) rest else glyphText cols (t + 1) rest)

end Sys2Proof.Machine
end

