-- ==== Sys2Proof/Safety.lean ====
section
/-!
DEFINITION. The terms claims are stated in: the invariant of the machine, what a command leaves unchanged, the
conditions under which a command runs to its result, and what a step may not do.
-/

namespace Sys2Proof.Machine

/-! ### The working variables of a running command -/

/-- The command the working variables belong to. -/
def Work.cmd (w : Work) : Instr :=
  match w with
  | .getbit _ => .getbit
  | .putbit _ => .putbit
  | .pack _ => .pack
  | .rleenc _ => .rleenc
  | .rledec _ => .rledec
  | .rlerend _ => .rlerend

/-- The ranges of PACK's variables (spec/41_packer.md R120). -/
def PackWork.ok (s : State) (w : PackWork) : Prop :=
  match w with
  | .entry => True
  | .read c j _ => c < ceil8 s.arg2Nat ∧ j < 8
  | .check c j _ _ => c < ceil8 s.arg2Nat ∧ j < 8 ∧ 8 * c + j < s.arg2Nat
  | .write c _ => c < ceil8 s.arg2Nat
  | .done => s.arg2Nat ≠ 0

/-- RLEENC's variables at a pixel: nothing counted before pixel 0; later the current run is not empty, and the bytes
written so far with one byte for each pixel of the current run are at most `i + 3` (spec/42_rle_encoder.md R148). -/
def EncVars.ok (v : EncVars) : Prop :=
  (v.i = 0 ∧ v.o = 2 ∧ v.count = 0 ∧ v.black = true) ∨
    (1 ≤ v.i ∧ 1 ≤ v.count ∧ v.count ≤ v.i ∧ 2 ≤ v.o ∧ v.o + v.count ≤ v.i + 3)

/-- RLEENC's variables inside Emit: `i` is the pixel the run ended at, the last run's at the last pixel, and the bytes
written with those Emit(k) still writes are at most `i + 3`. -/
def EncVars.emitOk (s : State) (v : EncVars) (k : Nat) (last : Bool) : Prop :=
  (last = true → v.i = s.encPixels) ∧ (last = false → v.i < s.encPixels) ∧ k ≤ v.i ∧ 2 ≤ v.o ∧
    v.o + max k 1 ≤ v.i + 3

/-- The ranges of RLEENC's variables (R140, R148). -/
def EncWork.ok (s : State) (w : EncWork) : Prop :=
  match w with
  | .entry => True
  | .header0 => encChecksPass s
  | .header1 => encChecksPass s
  | .pixel v => encChecksPass s ∧ v.ok ∧ v.i ≤ s.encPixels
  | .bit v => encChecksPass s ∧ v.ok ∧ v.i < s.encPixels
  | .emit v k last => encChecksPass s ∧ v.emitOk s k last
  | .emitZero v k last =>
    encChecksPass s ∧ 255 < k ∧ (last = true → v.i = s.encPixels) ∧ (last = false → v.i < s.encPixels) ∧ k ≤ v.i ∧
      2 ≤ v.o ∧ v.o + 1 + (k - 255) ≤ v.i + 3
  | .done v => encChecksPass s ∧ 3 ≤ v.o ∧ v.o ≤ s.encPixels + 3

/-- The ranges of a decoding command's shared variables (spec/43_rle_decoder.md R160, R163). -/
def ReplayVars.ok (s : State) (v : ReplayVars) : Prop :=
  v.rows ≠ 0#8 ∧ v.cols ≠ 0#8 ∧ 2 ≤ v.p ∧ v.p ≤ s.arg3Nat

/-- The ranges of a decoding command's variables (R160, R163). `own` is the range of the command's own variable, told
whether the first half of the Put of pixel `total` is made. -/
def DecWork.ok {σ : Type} (own : ReplayVars → Bool → σ → Prop) (s : State) (w : DecWork σ) : Prop :=
  match w with
  | .entry => True
  | .header0 => 2 ≤ s.arg3Nat
  | .header1 _ => 2 ≤ s.arg3Nat
  | .header _ _ => 2 ≤ s.arg3Nat
  | .next v x => v.ok s ∧ v.total ≤ v.pixels ∧ own v false x
  | .overrun v x run => v.ok s ∧ v.total < v.pixels ∧ run ≤ 255 ∧ own v false x
  | .put v x left => v.ok s ∧ v.total + left ≤ v.pixels ∧ left ≤ 255 ∧ own v false x
  | .putEnd v x left => v.ok s ∧ 1 ≤ left ∧ v.total + left ≤ v.pixels ∧ left ≤ 255 ∧ own v true x
  | .tail v x => v.ok s ∧ v.total = v.pixels ∧ own v false x
  | .done v x => v.ok s ∧ v.total = v.pixels ∧ own v false x

/-- RLEDEC's accumulator may be any byte. -/
def accOk (_ : ReplayVars) (_ : Bool) (_ : Byte) : Prop := True

/-- RLEREND's output offset: one byte for each glyph and one for each full row (R162, R168). -/
def offsetOk (v : ReplayVars) (half : Bool) (q : Nat) : Prop :=
  q = v.total + v.total / v.cols.toNat + (if half then 1 else 0)

/-- The working variables are in the ranges the pseudocode gives them, for the latches of `s`. -/
def Work.ok (s : State) (w : Work) : Prop :=
  match w with
  | .getbit _ => True
  | .putbit _ => True
  | .pack p => p.ok s
  | .rleenc e => e.ok s
  | .rledec d => d.ok accOk s
  | .rlerend d => d.ok offsetOk s

/-- The command's working variables, if it has any yet, are in range. -/
def State.workOk (s : State) : Prop := ∀ w, s.work = some w → w.ok s

/-! ### The invariant -/

/-- What holds of the machine at reset and after every step, whatever the host does. -/
structure State.Inv (s : State) : Prop where
  /-- `MEM_BYTES` is 1 to 2^32 (spec/00_scope.md R7). -/
  config : s.config.wellFormed
  /-- Memory keeps its canonical form. -/
  memWf : Memory.wf s.mem
  /-- No byte lies outside `Mem` (spec/20_memory.md R50). -/
  memBelow : Memory.below s.mem s.config.memBytes
  /-- Bits 31:1 of CTRL are 0 (spec/10_state.md R23). -/
  ctrlReserved : s.ctrl &&& ~~~ctrlMask = 0#32
  /-- Bits 3:2 and 31:8 of STATUS are 0 (R27). -/
  statusReserved : s.status &&& ~~~statusMask = 0#32
  /-- BUSY and DONE are never 1 together (R27). -/
  notBusyDone : ¬(s.busy = true ∧ s.done = true)
  /-- ERR is a code of the table, 0 to 6 (spec/60_exceptions.md R200). -/
  errRange : s.err.toNat ≤ 6
  /-- No error is shown while a command runs (R25). -/
  errBusy : s.busy = true → s.err = 0#4
  /-- After an error RESULT is 0 (R29, R201). -/
  errResult : s.err ≠ 0#4 → s.result = 0#32
  /-- CMD reads as the last command word accepted, which is what LOP holds (R24, R25). -/
  cmdLop : s.cmd = s.lop
  /-- Working variables exist only in RUN and belong to the latched command (R32). -/
  workRuns : ∀ w, s.work = some w → s.busy = true ∧ decode s.lop = .ok w.cmd
  /-- The working variables are in range. -/
  workRange : s.workOk
  /-- Between two turns no number of block steps is left over. -/
  quotaNone : s.quota = none

/-! ### Frames and conditions -/

/-- Everything a command body leaves alone: the parameters, CTRL, CMD, ARG0 to ARG3, the latches, the turns to come and
the host's data (spec/10_state.md R30, R33, spec/60_exceptions.md R201, R202). -/
structure State.KeepsRegisters (s t : State) : Prop where
  config : t.config = s.config
  ctrl : t.ctrl = s.ctrl
  cmd : t.cmd = s.cmd
  arg0 : t.arg0 = s.arg0
  arg1 : t.arg1 = s.arg1
  arg2 : t.arg2 = s.arg2
  arg3 : t.arg3 = s.arg3
  lop : t.lop = s.lop
  l0 : t.l0 = s.l0
  l1 : t.l1 = s.l1
  l2 : t.l2 = s.l2
  l3 : t.l3 = s.l3
  inputs : t.inputs = s.inputs
  hostData : t.hostData = s.hostData

/-- How STATUS and RESULT stand after a move of the block in RUN: the command goes on and both are kept, or it has
completed with success or with an error (spec/60_exceptions.md R201, R202). -/
def State.CompletesOrGoesOn (s t : State) : Prop :=
  (t.work ≠ none ∧ t.status = s.status ∧ t.result = s.result) ∨
    (t.work = none ∧ t.status = statusWord false true 0#4) ∨
    (t.work = none ∧ t.result = 0#32 ∧ ∃ e : Err, t.status = statusWord false true e.code)

/-- The command has made no block step yet, and nothing is queued to interrupt it. -/
abbrev State.Fresh (s : State) : Prop := s.work = none ∧ s.quota = none

/-- Two ranges of bytes do not overlap. -/
abbrev Apart (a n b k : Nat) : Prop := a + n ≤ b ∨ b + k ≤ a

/-- PACK has pixels, all of them '0' or '1', both ranges lie in memory, and they do not overlap. -/
abbrev State.PackReady (s : State) : Prop :=
  s.Fresh ∧ Memory.wf s.mem ∧ s.l2.toNat ≠ 0 ∧
    (∀ i < s.l2.toNat, Memory.get s.mem (s.l0.toNat + i) = 0x31#8 ∨ Memory.get s.mem (s.l0.toNat + i) = 0x30#8) ∧
    s.l0.toNat + s.l2.toNat ≤ s.config.memBytes ∧ s.l1.toNat + ceil8 s.l2.toNat ≤ s.config.memBytes ∧
    Apart s.l0.toNat s.l2.toNat s.l1.toNat (ceil8 s.l2.toNat)

/-- RLEENC has dimensions 1 to 255, the source and the largest destination lie in memory, and they do not overlap. -/
abbrev State.RleencReady (s : State) : Prop :=
  s.Fresh ∧ Memory.wf s.mem ∧ 1 ≤ s.l2.toNat ∧ s.l2.toNat ≤ 255 ∧ 1 ≤ s.l3.toNat ∧ s.l3.toNat ≤ 255 ∧
    s.l0.toNat + ceil8 (s.l2.toNat * s.l3.toNat) ≤ s.config.memBytes ∧
    s.l1.toNat + (s.l2.toNat * s.l3.toNat + 3) ≤ s.config.memBytes ∧
    Apart s.l0.toNat (ceil8 (s.l2.toNat * s.l3.toNat)) s.l1.toNat (s.l2.toNat * s.l3.toNat + 3)

/-- `rows` of the EncodedBuffer at L0. -/
def State.streamRows (s : State) : Nat := (Memory.get s.mem s.l0.toNat).toNat

/-- `cols` of the EncodedBuffer at L0. -/
def State.streamCols (s : State) : Nat := (Memory.get s.mem (s.l0.toNat + 1)).toNat

/-- The run bytes of the EncodedBuffer at L0 that `src_len` allows the block to read. -/
def State.streamRuns (s : State) : List Byte := bytesAt s.mem (s.l0.toNat + 2) (s.l3.toNat - 2)

/-- The pixels the stream at L0 replays to, or why it is malformed. -/
def State.streamPixels (s : State) : Except Err (List Bool) :=
  replayRuns (s.streamRows * s.streamCols) true [] s.streamRuns

/-- A decoding command has a stream of at least its header, no header byte is 0, the stream and the `n` bytes of the
destination lie in memory, and they do not overlap. -/
abbrev State.DecodeReady (s : State) (n : Nat) : Prop :=
  s.Fresh ∧ Memory.wf s.mem ∧ 2 ≤ s.l3.toNat ∧ s.streamRows ≠ 0 ∧ s.streamCols ≠ 0 ∧
    s.l0.toNat + s.l3.toNat ≤ s.config.memBytes ∧ s.l1.toNat + n ≤ s.config.memBytes ∧
    Apart s.l0.toNat s.l3.toNat s.l1.toNat n

/-- The step answers a next state: it neither faults nor is refused. -/
def Advances (s : State) : Prop := ∃ t, step s = .next t

end Sys2Proof.Machine
end

