-- ==== Sys2Proof/Certificates/Slice0/Obligations.lean ====
section
/-!
DEFINITION. The statements for the provers, each after a numbered rule of spec/. "The model's choice" marks what a
notes/assumptions entry declares. Hypotheses are on the state and the operands alone.
-/

open Sys2Proof Sys2Proof.Machine

/-! ### Encoding (spec/30_encoding.md) -/

/-- R72: a word selects a command exactly when all 32 of its bits match the row; every other word selects none. -/
def Obligations.CommandWordsSelectCommands : Prop :=
  ∀ w : Word,
    (decode w = .ok .getbit ↔ w &&& 0xFFFFFFFF#32 = 0x00000001#32) ∧
    (decode w = .ok .putbit ↔ w &&& 0xFFFFFFFF#32 = 0x00000002#32) ∧
    (decode w = .ok .pack ↔ w &&& 0xFFFFFFFF#32 = 0x00000003#32) ∧
    (decode w = .ok .rleenc ↔ w &&& 0xFFFFFFFF#32 = 0x00000004#32) ∧
    (decode w = .ok .rledec ↔ w &&& 0xFFFFFFFF#32 = 0x00000005#32) ∧
    (decode w = .ok .rlerend ↔ w &&& 0xFFFFFFFF#32 = 0x00000006#32) ∧
    ((∃ e, decode w = .error e) ↔ w = 0x00000000#32 ∨ 0x00000007#32 ≤ w)

/-- R70, R72: encoding a well-formed command and decoding the word gives it back, and no other word decodes to it. -/
def Obligations.DecodeInvertsEncode : Prop :=
  (∀ i : Instr, i.wellFormed = true → decode (encode i) = .ok i) ∧
  (∀ (w : Word) (i : Instr), decode w = .ok i → encode i = w)

/-- R72, a sanity statement: the six command words, and the table's reading of them. -/
def Obligations.TableWordsDecode : Prop :=
  decodeTableWord 32 1 = some .getbit ∧ decodeTableWord 32 2 = some .putbit ∧ decodeTableWord 32 3 = some .pack ∧
    decodeTableWord 32 4 = some .rleenc ∧ decodeTableWord 32 5 = some .rledec ∧ decodeTableWord 32 6 = some .rlerend ∧
    decodeTableWord 32 0x13 = none ∧ decodeTableWord 32 0x80000001 = none

/-- R74: after acceptance the block decodes LOP, RSVD before OP. A legal word runs its command; any other raises
IllegalCommand, code 5, with no memory access and nothing else changed. The move has at least one block step. -/
def Obligations.LatchedWordDecides : Prop :=
  ∀ s : State, s.inputs = [] → s.busy = true → s.quota ≠ some 0 →
    (s.lop.extractLsb' 4 28 ≠ 0#28 → step s = .next (s.raise .illegalCommand)) ∧
    (s.lop.extractLsb' 4 28 = 0#28 →
      (s.lop.extractLsb' 0 4 = 0x1#4 → step s = exec .getbit s) ∧
      (s.lop.extractLsb' 0 4 = 0x2#4 → step s = exec .putbit s) ∧
      (s.lop.extractLsb' 0 4 = 0x3#4 → step s = exec .pack s) ∧
      (s.lop.extractLsb' 0 4 = 0x4#4 → step s = exec .rleenc s) ∧
      (s.lop.extractLsb' 0 4 = 0x5#4 → step s = exec .rledec s) ∧
      (s.lop.extractLsb' 0 4 = 0x6#4 → step s = exec .rlerend s) ∧
      (s.lop.extractLsb' 0 4 = 0x0#4 ∨ 0x7#4 ≤ s.lop.extractLsb' 0 4 → step s = .next (s.raise .illegalCommand))) ∧
    (s.raise .illegalCommand).err = 5#4 ∧ (s.raise .illegalCommand).result = 0#32 ∧
    (s.raise .illegalCommand).mem = s.mem

/-- R74, R22: a step in RUN is exec of the command LOP decodes to: on the state itself when no turn is listed; for a block
turn with its number of block steps, the turn taken; for a WAIT with the WAIT still first in line. In the same three cases
an illegal LOP ends in one block step with IllegalCommand, ERR 5, RESULT 0 and memory as it was; with no block step to make
it stays (turns and block steps are the model's choice, notes/assumptions/4, 5, 8). -/
def Obligations.StepRunsDecodedCommand : Prop :=
  (∀ (s : State) (i : Instr), s.busy = true → decode s.lop = .ok i →
    (s.inputs = [] → step s = exec i s) ∧
    (∀ n rest, s.inputs = .block n :: rest → step s = exec i { s with inputs := rest, quota := some n }) ∧
    (∀ rest, s.inputs = .wait :: rest → step s = exec i { s with quota := none })) ∧
  (∀ (s : State) (e : DecodeError), s.busy = true → decode s.lop = .error e →
    (s.inputs = [] → s.quota ≠ some 0 → step s = .next (s.raise .illegalCommand)) ∧
    (∀ n rest, s.inputs = .block (n + 1) :: rest → step s = .next ({ s with inputs := rest }.raise .illegalCommand)) ∧
    (∀ rest, s.inputs = .block 0 :: rest → step s = .next { s with inputs := rest, quota := none }) ∧
    (∀ rest, s.inputs = .wait :: rest → step s = .next (s.raise .illegalCommand)) ∧
    (∀ rest, ({ s with inputs := rest }.raise .illegalCommand).err = 5#4 ∧
      ({ s with inputs := rest }.raise .illegalCommand).result = 0#32 ∧
      ({ s with inputs := rest }.raise .illegalCommand).mem = s.mem))

/-! ### The register window (spec/10_state.md) -/

/-- R25: a CMD write in IDLE is accepted: CMD and LOP take the word, the latches copy ARG0 to ARG3, DONE and ERR become 0
and BUSY 1. RESULT keeps its old value, and nothing else changes. -/
def Obligations.CmdWriteAcceptedInIdle : Prop :=
  ∀ (s : State) (w : Word) (rest : List Input), s.inputs = hostWR s.config .cmd w :: rest → s.busy = false →
    ∃ t, step s = .next t ∧ t.cmd = w ∧ t.lop = w ∧ t.l0 = s.arg0 ∧ t.l1 = s.arg1 ∧ t.l2 = s.arg2 ∧ t.l3 = s.arg3 ∧
      t.done = false ∧ t.err = 0#4 ∧ t.busy = true ∧ t.result = s.result ∧ t.work = none ∧ t.mem = s.mem ∧
      t.ctrl = s.ctrl ∧ t.arg0 = s.arg0 ∧ t.arg1 = s.arg1 ∧ t.arg2 = s.arg2 ∧ t.arg3 = s.arg3 ∧ t.config = s.config ∧
      t.inputs = rest ∧ t.hostData = s.hostData ∧
      ∀ i, decode w = .ok i → rest = [] → step t = exec i t

/-- R26: a CMD write in RUN changes no register, no latch and no memory; the write is over and nothing else happens. -/
def Obligations.CmdWriteIgnoredInRun : Prop :=
  ∀ (s : State) (w : Word) (rest : List Input), s.inputs = hostWR s.config .cmd w :: rest → s.busy = true →
    step s = .next { s with inputs := rest }

/-- R23: a CTRL write takes effect at once, in IDLE and in RUN: IE is bit 0 of the word, the other bits read as 0, and
nothing else changes. -/
def Obligations.CtrlWriteKeepsIeOnly : Prop :=
  ∀ (s : State) (v : Word) (rest : List Input), s.inputs = hostWR s.config .ctrl v :: rest →
    ∃ t, step s = .next t ∧ t = { s with inputs := rest, ctrl := t.ctrl } ∧ t.ie = v.getLsbD 0 ∧
      ∀ k < 32, (readReg t .ctrl).getLsbD k = (decide (k = 0) && v.getLsbD 0)

/-- R28: a STATUS write with bit 1 set while DONE is 1 clears DONE and leaves ERR, RESULT, BUSY and all else; with bit 1
clear, or while DONE is 0, it changes nothing. -/
def Obligations.StatusWriteClearsDone : Prop :=
  ∀ (s : State) (v : Word) (rest : List Input), s.inputs = hostWR s.config .status v :: rest →
    (v.getLsbD 1 = true → s.done = true →
      ∃ t, step s = .next t ∧ t.done = false ∧ t.err = s.err ∧ t.busy = s.busy ∧
        t = { s with inputs := rest, status := t.status }) ∧
    (v.getLsbD 1 = false ∨ s.done = false → step s = .next { s with inputs := rest })

/-- R30: ARG0 to ARG3 take the word written, in IDLE and in RUN, and nothing else changes; they read as all 32 bits they
hold; acceptance copies them to the latches; and a command neither reads nor writes them: with other values in them it does the same. -/
def Obligations.ArgRegistersAreLatched : Prop :=
  (∀ (s : State) (v : Word) (rest : List Input),
    (s.inputs = hostWR s.config .arg0 v :: rest → step s = .next { s with inputs := rest, arg0 := v }) ∧
    (s.inputs = hostWR s.config .arg1 v :: rest → step s = .next { s with inputs := rest, arg1 := v }) ∧
    (s.inputs = hostWR s.config .arg2 v :: rest → step s = .next { s with inputs := rest, arg2 := v }) ∧
    (s.inputs = hostWR s.config .arg3 v :: rest → step s = .next { s with inputs := rest, arg3 := v })) ∧
  (∀ (s : State) (w : Word), (s.accept w).l0 = s.arg0 ∧ (s.accept w).l1 = s.arg1 ∧ (s.accept w).l2 = s.arg2 ∧
    (s.accept w).l3 = s.arg3 ∧ (s.accept w).lop = w) ∧
  (∀ s : State, readReg s .arg0 = s.arg0 ∧ readReg s .arg1 = s.arg1 ∧ readReg s .arg2 = s.arg2 ∧
    readReg s .arg3 = s.arg3) ∧
  (∀ (i : Instr) (s t : State) (a0 a1 a2 a3 : Word), exec i s = .next t →
    exec i { s with arg0 := a0, arg1 := a1, arg2 := a2, arg3 := a3 } =
      .next { t with arg0 := a0, arg1 := a1, arg2 := a2, arg3 := a3 } ∧
    t.arg0 = s.arg0 ∧ t.arg1 = s.arg1 ∧ t.arg2 = s.arg2 ∧ t.arg3 = s.arg3)

/-- R21: a write to the read-only RESULT is ignored. -/
def Obligations.ResultWriteIgnored : Prop :=
  ∀ (s : State) (v : Word) (rest : List Input), s.inputs = hostWR s.config .result v :: rest →
    step s = .next { s with inputs := rest }

/-- R20, R21: a 32-bit read at each offset of the window gives that register, with reserved bits 0, and changes nothing
but what the host holds. -/
def Obligations.RegisterReadsChangeNothing : Prop :=
  ∀ (s : State) (rest : List Input),
    (s.inputs = .regRead (s.config.regBase + 0x00) 32 :: rest →
      step s = .next { s with inputs := rest, hostData := s.ctrl &&& 0x00000001#32 }) ∧
    (s.inputs = .regRead (s.config.regBase + 0x04) 32 :: rest →
      step s = .next { s with inputs := rest, hostData := s.cmd }) ∧
    (s.inputs = .regRead (s.config.regBase + 0x08) 32 :: rest →
      step s = .next { s with inputs := rest, hostData := s.status &&& 0x000000F3#32 }) ∧
    (s.inputs = .regRead (s.config.regBase + 0x0C) 32 :: rest →
      step s = .next { s with inputs := rest, hostData := s.result }) ∧
    (s.inputs = .regRead (s.config.regBase + 0x10) 32 :: rest →
      step s = .next { s with inputs := rest, hostData := s.arg0 }) ∧
    (s.inputs = .regRead (s.config.regBase + 0x14) 32 :: rest →
      step s = .next { s with inputs := rest, hostData := s.arg1 }) ∧
    (s.inputs = .regRead (s.config.regBase + 0x18) 32 :: rest →
      step s = .next { s with inputs := rest, hostData := s.arg2 }) ∧
    (s.inputs = .regRead (s.config.regBase + 0x1C) 32 :: rest →
      step s = .next { s with inputs := rest, hostData := s.arg3 })

/-- R20, R21: a register access has a move exactly when it is 32 bits wide, in the window, at a multiple of 4; any other
is refused by name (the names are the model's, notes/assumptions/7). -/
def Obligations.OnlyAlignedWordAccessesMove : Prop :=
  ∀ (s : State) (addr width : Nat) (v : Word) (rest : List Input),
    (s.inputs = .regWrite addr width v :: rest →
      ((∃ t, step s = .next t) ↔ HostAccess.wellFormed s.config addr width) ∧
      (¬HostAccess.wellFormed s.config addr width → ∃ r, step s = .refused r)) ∧
    (s.inputs = .regRead addr width :: rest →
      ((∃ t, step s = .next t) ↔ HostAccess.wellFormed s.config addr width) ∧
      (¬HostAccess.wellFormed s.config addr width → ∃ r, step s = .refused r))

/-- R29: only completion writes RESULT: any other step but a reset keeps it, and a step that changes it ends a command. -/
def Obligations.OnlyCompletionWritesResult : Prop :=
  ∀ s t : State, step s = .next t →
    t.result = s.result ∨ (s.busy = true ∧ t.busy = false ∧ t.done = true) ∨ ∃ rest, s.inputs = .reset :: rest

/-! ### Memory (spec/20_memory.md) -/

/-- R51: MemRead gives the byte of memory, or AccessFault at MEM_BYTES and above. -/
def Obligations.MemReadRule : Prop :=
  ∀ (s : State) (a : Nat),
    (s.config.memBytes ≤ a → memRead s a = .error .accessFault) ∧
    (a < s.config.memBytes → memRead s a = .ok (Memory.get s.mem a))

/-- R52: MemWrite changes the byte at its address and no other, or raises AccessFault at MEM_BYTES and above. -/
def Obligations.MemWriteRule : Prop :=
  ∀ (s : State) (a : Nat) (v : Byte), Memory.wf s.mem →
    (s.config.memBytes ≤ a → memWrite s a v = .error .accessFault) ∧
    (a < s.config.memBytes →
      ∃ m, memWrite s a v = .ok m ∧ ∀ b, Memory.get m b = if b = a then v else Memory.get s.mem b)

/-- R53: a base and an offset add exactly. With MEM_BYTES at most 2^32 an address of 2^32 or more always raises
AccessFault, so a bit index past the top does not wrap around. -/
def Obligations.AddressesDoNotWrap : Prop :=
  ∀ (s : State), s.config.wellFormed → s.Fresh →
    (2 ^ 32 ≤ s.l0.toNat + s.l2.toNat / 8 → exec .getbit s = .next (s.raise .accessFault)) ∧
    (2 ^ 32 ≤ s.l1.toNat + s.l2.toNat / 8 → exec .putbit s = .next (s.raise .accessFault))

/-- R54: GetBit(base, idx) is bit 7 - idx % 8 of the byte at base + idx // 8, or AccessFault. -/
def Obligations.GetBitPrimitive : Prop :=
  ∀ (s : State) (base : Word) (idx : Nat),
    (base.toNat + idx / 8 < s.config.memBytes →
      getBit s base.toNat idx = .ok ((Memory.get s.mem (base.toNat + idx / 8)).getLsbD (7 - idx % 8))) ∧
    (s.config.memBytes ≤ base.toNat + idx / 8 → getBit s base.toNat idx = .error .accessFault)

/-- R63, R214: in IDLE the block makes no memory access and no register changes. That the step of an idle machine with no
turn listed answers the same state, and that a block turn in IDLE is just taken, is the model's reading
(notes/assumptions/12, DEDUCED; turns and block steps are notes/assumptions/4, 5). -/
def Obligations.IdleBlockTouchesNothing : Prop :=
  ∀ s : State, s.busy = false →
    (s.inputs = [] → step s = .next { s with quota := none }) ∧
    (∀ n rest, s.inputs = .block n :: rest → step s = .next { s with inputs := rest, quota := none })

/-- R50, R236, R240: a host load gives the byte at any time, and a host store outside the running command's ranges, or in
IDLE, changes that byte alone. The model's choice: the fault outside memory (notes/assumptions/7), the ranges
(notes/assumptions/6), the zero-extended byte in the host's data (notes/assumptions/9) and the one-byte access
(notes/assumptions/13). -/
def Obligations.HostMemoryAccesses : Prop :=
  ∀ (s : State) (a : Nat) (v : Byte) (rest : List Input),
    (s.inputs = .memRead a :: rest → a < s.config.memBytes →
      step s = .next { s with inputs := rest, hostData := (Memory.get s.mem a).setWidth 32 }) ∧
    (s.inputs = .memRead a :: rest → s.config.memBytes ≤ a → step s = .fault .hostAddressOutsideMemory) ∧
    (s.inputs = .memWrite a v :: rest → storeHitsReads s a = false → storeHitsWrites s a = false →
      a < s.config.memBytes → step s = .next { s with inputs := rest, mem := Memory.set s.mem a v }) ∧
    (s.inputs = .memWrite a v :: rest → storeHitsReads s a = false → storeHitsWrites s a = false →
      s.config.memBytes ≤ a → step s = .fault .hostAddressOutsideMemory) ∧
    (s.busy = false → storeHitsReads s a = false ∧ storeHitsWrites s a = false) ∧
    (decode s.lop = .ok .getbit → a ≠ s.l0.toNat + s.l2.toNat / 8 →
      storeHitsReads s a = false ∧ storeHitsWrites s a = false) ∧
    (decode s.lop = .ok .putbit → a ≠ s.l1.toNat + s.l2.toNat / 8 →
      storeHitsReads s a = false ∧ storeHitsWrites s a = false) ∧
    (decode s.lop = .ok .pack → (a < s.l0.toNat ∨ s.l0.toNat + s.l2.toNat ≤ a) →
      (a < s.l1.toNat ∨ s.l1.toNat + ceil8 s.l2.toNat ≤ a) →
      storeHitsReads s a = false ∧ storeHitsWrites s a = false) ∧
    (decode s.lop = .ok .rleenc → (a < s.l0.toNat ∨ s.l0.toNat + ceil8 (s.l2.toNat * s.l3.toNat) ≤ a) →
      (a < s.l1.toNat ∨ s.l1.toNat + rleencWrites s ≤ a) →
      storeHitsReads s a = false ∧ storeHitsWrites s a = false) ∧
    (decode s.lop = .ok .rledec → (a < s.l0.toNat ∨ s.l0.toNat + rledecReads s ≤ a) →
      (a < s.l1.toNat ∨ s.l1.toNat + ceil8 ((rledecDims s).1.toNat * (rledecDims s).2.toNat) ≤ a) →
      storeHitsReads s a = false ∧ storeHitsWrites s a = false) ∧
    (decode s.lop = .ok .rlerend → (a < s.l0.toNat ∨ s.l0.toNat + rlerendReads s ≤ a) →
      (a < s.l1.toNat ∨
        s.l1.toNat + ((rlerendDims s).1.toNat * (rlerendDims s).2.toNat + (rlerendDims s).1.toNat) ≤ a) →
      storeHitsReads s a = false ∧ storeHitsWrites s a = false)

/-- R62, R235, R236: while a command runs, a host store into a range R62 gives it has no move. The ranges "at most L3
bytes" and RESULT bytes are the bytes read or written until the command ends (notes/assumptions/6, DEDUCED). -/
def Obligations.HostStoreIntoRunningRangeRefused : Prop :=
  ∀ (s : State) (a : Nat) (v : Byte) (rest : List Input), s.inputs = .memWrite a v :: rest → s.busy = true →
    (decode s.lop = .ok .getbit → a = s.l0.toNat + s.l2.toNat / 8 →
      step s = .refused .hostStoreIntoRunningReads) ∧
    (decode s.lop = .ok .putbit → a = s.l1.toNat + s.l2.toNat / 8 →
      step s = .refused .hostStoreIntoRunningReads) ∧
    (decode s.lop = .ok .pack → s.l0.toNat ≤ a → a < s.l0.toNat + s.l2.toNat →
      step s = .refused .hostStoreIntoRunningReads) ∧
    (decode s.lop = .ok .pack → s.l1.toNat ≤ a → a < s.l1.toNat + ceil8 s.l2.toNat → ∃ r, step s = .refused r) ∧
    (decode s.lop = .ok .rleenc → 1 ≤ s.l2.toNat → s.l2.toNat ≤ 255 → 1 ≤ s.l3.toNat → s.l3.toNat ≤ 255 →
      s.l0.toNat ≤ a → a < s.l0.toNat + ceil8 (s.l2.toNat * s.l3.toNat) →
      step s = .refused .hostStoreIntoRunningReads) ∧
    (decode s.lop = .ok .rleenc → s.l1.toNat ≤ a → a < s.l1.toNat + rleencWrites s → ∃ r, step s = .refused r) ∧
    (decode s.lop = .ok .rleenc → s.workOk → s.quota = none →
      ∀ t, exec .rleenc s = .next t → t.err = 0#4 → s.l1.toNat ≤ a → a < s.l1.toNat + t.result.toNat →
        ∃ r, step s = .refused r) ∧
    (decode s.lop = .ok .rledec → s.l0.toNat ≤ a → a < s.l0.toNat + rledecReads s →
      step s = .refused .hostStoreIntoRunningReads) ∧
    (decode s.lop = .ok .rlerend → s.l0.toNat ≤ a → a < s.l0.toNat + rlerendReads s →
      step s = .refused .hostStoreIntoRunningReads) ∧
    (decode s.lop = .ok .rledec ∨ decode s.lop = .ok .rlerend → s.work = none → 2 ≤ s.l3.toNat →
      s.l0.toNat + 1 < s.config.memBytes → a = s.l0.toNat ∨ a = s.l0.toNat + 1 →
      step s = .refused .hostStoreIntoRunningReads) ∧
    (decode s.lop = .ok .rledec → 2 ≤ s.l3.toNat → (rledecDims s).1 ≠ 0#8 → (rledecDims s).2 ≠ 0#8 →
      s.l1.toNat ≤ a → a < s.l1.toNat + ceil8 ((rledecDims s).1.toNat * (rledecDims s).2.toNat) →
      ∃ r, step s = .refused r) ∧
    (decode s.lop = .ok .rlerend → 2 ≤ s.l3.toNat → (rlerendDims s).1 ≠ 0#8 → (rlerendDims s).2 ≠ 0#8 →
      s.l1.toNat ≤ a →
      a < s.l1.toNat + ((rlerendDims s).1.toNat * (rlerendDims s).2.toNat + (rlerendDims s).1.toNat) →
      ∃ r, step s = .refused r) ∧
    (s.work = none → ((rledecDims s).1.toNat, (rledecDims s).2.toNat) = (s.streamRows, s.streamCols) ∧
      ((rlerendDims s).1.toNat, (rlerendDims s).2.toNat) = (s.streamRows, s.streamCols))

/-- R62, R145, R163 to R166: how far the ranges reach that R62 does not give by a formula of the latches. RLEENC writes
RESULT bytes when it succeeds, from any point of the command. A decoding command reads its header and its run bytes up to the
one that completes or passes rows * cols pixels, or to `src_len`. The reading of R62 is notes/assumptions/6 (DEDUCED). -/
def Obligations.RunningRangesAreThoseReached : Prop :=
  (∀ s t : State, s.workOk → s.quota = none → exec .rleenc s = .next t → t.err = 0#4 →
    rleencWrites s = t.result.toNat) ∧
  (∀ s : State, s.DecodeReady (ceil8 (s.streamRows * s.streamCols)) →
    rledecReads s = 2 + runsRead (s.streamRows * s.streamCols) s.streamRuns ∧ rledecReads s ≤ s.l3.toNat) ∧
  (∀ s : State, s.DecodeReady (s.streamRows * s.streamCols + s.streamRows) →
    rlerendReads s = 2 + runsRead (s.streamRows * s.streamCols) s.streamRuns ∧ rlerendReads s ≤ s.l3.toNat)

/-- R64, R235, R236, headline: a host store that has a move never changes what the running command does. From any state
of the invariant in RUN, at any point of any command, the store made before the rest of the command and the store made
after it give the same machine. The ranges are the reading of R62 in notes/assumptions/6 (DEDUCED). -/
def Obligations.HostStoreOutsideRangesHarmless : Prop :=
  ∀ (s : State) (a : Nat) (v : Byte), s.Inv → s.inputs = [] → s.busy = true → a < s.config.memBytes →
    storeHitsReads s a = false → storeHitsWrites s a = false →
    ∃ t, step s = .next t ∧
      step (s.setMem (Memory.set s.mem a v)) = .next (t.setMem (Memory.set t.mem a v))

/-! ### GETBIT and PUTBIT (spec/40_bit_primitives.md) -/

/-- R100: GETBIT. Command word 1; RESULT is bit 7 - L2 % 8 of byte L0 + L2 // 8, zero-extended, and nothing but completion
changes; AccessFault exactly when that byte is at MEM_BYTES or above. -/
def Obligations.GetbitReadsTheBit : Prop :=
  decode 0x00000001#32 = .ok .getbit ∧
  ∀ s : State, s.Fresh →
    (s.l0.toNat + s.l2.toNat / 8 < s.config.memBytes →
      exec .getbit s = .next (s.complete
        (if (Memory.get s.mem (s.l0.toNat + s.l2.toNat / 8)).getLsbD (7 - s.l2.toNat % 8) then 1#32 else 0#32))) ∧
    (s.config.memBytes ≤ s.l0.toNat + s.l2.toNat / 8 → exec .getbit s = .next (s.raise .accessFault))

/-- R101: PUTBIT. Command word 2; byte L1 + L2 // 8 gets bit 7 - L2 % 8 set to bit 0 of L3, RESULT is 0, and nothing else
but completion changes; AccessFault exactly when that byte is at MEM_BYTES or above, and then memory is not changed. -/
def Obligations.PutbitWritesTheBit : Prop :=
  decode 0x00000002#32 = .ok .putbit ∧
  ∀ s : State, s.Fresh →
    (s.l1.toNat + s.l2.toNat / 8 < s.config.memBytes →
      ∃ b2 : Byte, exec .putbit s =
          .next ((s.setMem (Memory.set s.mem (s.l1.toNat + s.l2.toNat / 8) b2)).complete 0#32) ∧
        b2 = ((Memory.get s.mem (s.l1.toNat + s.l2.toNat / 8) &&& ~~~(1#8 <<< (7 - s.l2.toNat % 8)) &&& 0xFF#8) |||
          ((s.l3.extractLsb' 0 1).setWidth 8 <<< (7 - s.l2.toNat % 8))) ∧
        ∀ k < 8, b2.getLsbD k =
          if k = 7 - s.l2.toNat % 8 then s.l3.getLsbD 0
          else (Memory.get s.mem (s.l1.toNat + s.l2.toNat / 8)).getLsbD k) ∧
    (s.config.memBytes ≤ s.l1.toNat + s.l2.toNat / 8 → exec .putbit s = .next (s.raise .accessFault))

/-- R102: after a PUTBIT of value v at (base, idx), a GETBIT there returns v if no write to that byte comes between, and
GetBit at any other index returns what it returned before. -/
def Obligations.PutbitThenGetbitAgree : Prop :=
  ∀ s : State, s.Fresh → Memory.wf s.mem → s.l1.toNat + s.l2.toNat / 8 < s.config.memBytes →
    ∃ t, exec .putbit s = .next t ∧ t.err = 0#4 ∧
      (∀ idx : Nat, idx ≠ s.l2.toNat → getBit t s.l1.toNat idx = getBit s s.l1.toNat idx) ∧
      ∀ u : State, u.Fresh → u.config = s.config → u.l0 = s.l1 → u.l2 = s.l2 →
        Memory.get u.mem (s.l1.toNat + s.l2.toNat / 8) = Memory.get t.mem (s.l1.toNat + s.l2.toNat / 8) →
        exec .getbit u = .next (u.complete (if s.l3.getLsbD 0 then 1#32 else 0#32))

/-! ### PACK (spec/41_packer.md) -/

/-- R121, step 1: PACK of no pixels ends with InvalidPhotoSize and touches nothing. -/
def Obligations.PackRejectsNoPixels : Prop :=
  ∀ s : State, s.Fresh → s.l2 = 0#32 → exec .pack s = .next (s.raise .invalidPhotoSize)

/-- R120, R122, R123: PACK of n valid pixels writes ceil8(n) bytes, bit 7 - j of byte c set exactly when pixel 8c + j is
'1', every pad bit 0, no other byte changed, and RESULT is ceil8(n). -/
def Obligations.PackWritesPackedBytes : Prop :=
  ∀ s : State, s.PackReady →
    ∃ m, exec .pack s = .next ((s.setMem m).complete (BitVec.ofNat 32 (ceil8 s.l2.toNat))) ∧
      (∀ c < ceil8 s.l2.toNat, ∀ j < 8, (Memory.get m (s.l1.toNat + c)).getLsbD (7 - j) =
        (decide (8 * c + j < s.l2.toNat) && decide (Memory.get s.mem (s.l0.toNat + (8 * c + j)) = 0x31#8))) ∧
      ∀ a, (∀ c < ceil8 s.l2.toNat, a ≠ s.l1.toNat + c) → Memory.get m a = Memory.get s.mem a

/-- R121, R124: PACK stops at its first pixel i that is neither '0' nor '1'. RESULT is 0, bytes 0 to i // 8 - 1 of the
destination hold their packed values, and no other byte has been written. -/
def Obligations.PackStopsAtFirstBadPixel : Prop :=
  ∀ (s : State) (i : Nat), s.Fresh → Memory.wf s.mem → i < s.l2.toNat →
    (∀ k < i, Memory.get s.mem (s.l0.toNat + k) = 0x31#8 ∨ Memory.get s.mem (s.l0.toNat + k) = 0x30#8) →
    Memory.get s.mem (s.l0.toNat + i) ≠ 0x31#8 → Memory.get s.mem (s.l0.toNat + i) ≠ 0x30#8 →
    s.l0.toNat + i < s.config.memBytes → s.l1.toNat + i / 8 ≤ s.config.memBytes →
    Apart s.l0.toNat (i + 1) s.l1.toNat (i / 8) →
    ∃ m, exec .pack s = .next ((s.setMem m).raise .unknownCharacter) ∧
      (∀ c < i / 8, ∀ j < 8, (Memory.get m (s.l1.toNat + c)).getLsbD (7 - j) =
        decide (Memory.get s.mem (s.l0.toNat + (8 * c + j)) = 0x31#8)) ∧
      ∀ a, (∀ c < i / 8, a ≠ s.l1.toNat + c) → Memory.get m a = Memory.get s.mem a

/-- R125: after PACK succeeds, GetBit(L1, i) is 1 exactly when pixel i is '1', provided the ranges do not overlap. -/
def Obligations.PackRoundTrip : Prop :=
  ∀ s t : State, s.Fresh → Memory.wf s.mem → exec .pack s = .next t → t.err = 0#4 →
    Apart s.l0.toNat s.l2.toNat s.l1.toNat (ceil8 s.l2.toNat) →
    ∀ i < s.l2.toNat, getBit t s.l1.toNat i = .ok (decide (Memory.get s.mem (s.l0.toNat + i) = 0x31#8))

/-! ### RLEENC (spec/42_rle_encoder.md) -/

/-- R141: a zero dimension gives InvalidPhotoSize even when the other exceeds 255; otherwise one above 255 gives
RleLimitExceeded. Neither check touches memory. -/
def Obligations.RleencChecksDimensions : Prop :=
  ∀ s : State, s.Fresh →
    (s.l2 = 0#32 ∨ s.l3 = 0#32 → exec .rleenc s = .next (s.raise .invalidPhotoSize)) ∧
    (s.l2 ≠ 0#32 → s.l3 ≠ 0#32 → 255 < s.l2.toNat ∨ 255 < s.l3.toNat →
      exec .rleenc s = .next (s.raise .rleLimitExceeded))

/-- R140, R142 to R145: RLEENC writes the header and the run bytes of the picture, RESULT is their number, and no other
byte changes. -/
def Obligations.RleencWritesEncodedBuffer : Prop :=
  ∀ s : State, s.RleencReady →
    ∃ m enc, enc = encodedBuffer s.l2.toNat s.l3.toNat (pixelsAt s.mem s.l0.toNat (s.l2.toNat * s.l3.toNat)) ∧
      exec .rleenc s = .next ((s.setMem m).complete (BitVec.ofNat 32 enc.length)) ∧
      bytesAt m s.l1.toNat enc.length = enc ∧
      ∀ a, (∀ o < enc.length, a ≠ s.l1.toNat + o) → Memory.get m a = Memory.get s.mem a

/-- R147: on success the run bytes sum to rows * cols, whatever overlaps, and replaying them gives pixel i = GetBit(L0, i)
of the source as it was. For the second the source and the bytes written do not overlap, so that no write falls on a source
byte before it is read (R146, R68). -/
def Obligations.EncodedRunsReplayToPicture : Prop :=
  ∀ s t : State, s.Fresh → Memory.wf s.mem → exec .rleenc s = .next t → t.err = 0#4 →
    ((bytesAt t.mem (s.l1.toNat + 2) (t.result.toNat - 2)).map BitVec.toNat).sum = s.l2.toNat * s.l3.toNat ∧
    (Apart s.l0.toNat (ceil8 (s.l2.toNat * s.l3.toNat)) s.l1.toNat t.result.toNat →
      replayRuns (s.l2.toNat * s.l3.toNat) true [] (bytesAt t.mem (s.l1.toNat + 2) (t.result.toNat - 2)) =
        .ok (pixelsAt s.mem s.l0.toNat (s.l2.toNat * s.l3.toNat)))

/-- R148: RLEENC writes at most N + 1 run bytes, so RESULT is at most N + 3, and at most 65028; a picture that starts white
and alternates every pixel reaches the bound. -/
def Obligations.EncodedSizeBound : Prop :=
  (∀ s t : State, s.Fresh → exec .rleenc s = .next t → t.err = 0#4 →
    t.result.toNat ≤ s.l2.toNat * s.l3.toNat + 3 ∧ t.result.toNat ≤ 65028) ∧
  (∀ s : State, s.RleencReady →
    (∀ i < s.l2.toNat * s.l3.toNat, pixelAt s.mem s.l0.toNat i = decide (i % 2 = 1)) →
    ∃ t, exec .rleenc s = .next t ∧ t.err = 0#4 ∧ t.result.toNat = s.l2.toNat * s.l3.toNat + 3)

/-! ### RLEDEC and RLEREND (spec/43_rle_decoder.md) -/

/-- R160: src_len below 2 is a MalformedStream; a header byte that is not in memory is an AccessFault; a header byte 0 is an
InvalidPhotoSize. Both decoding commands, with no byte written. -/
def Obligations.DecodeFrontEndChecks : Prop :=
  ∀ (s : State) (i : Instr), s.Fresh → i = .rledec ∨ i = .rlerend →
    (s.l3.toNat < 2 → exec i s = .next (s.raise .malformedStream)) ∧
    (2 ≤ s.l3.toNat → s.config.memBytes ≤ s.l0.toNat + 1 → exec i s = .next (s.raise .accessFault)) ∧
    (2 ≤ s.l3.toNat → s.l0.toNat + 1 < s.config.memBytes → s.streamRows = 0 ∨ s.streamCols = 0 →
      exec i s = .next (s.raise .invalidPhotoSize))

/-- R161, R167: RLEDEC of a well-formed stream writes the decoded pixels as a PackedBuffer with pad bits 0, RESULT is
ceil8(rows * cols), and no other byte changes. -/
def Obligations.RledecWritesPackedBuffer : Prop :=
  ∀ (s : State) (px : List Bool), s.DecodeReady (ceil8 (s.streamRows * s.streamCols)) → s.streamPixels = .ok px →
    ∃ m, exec .rledec s =
        .next ((s.setMem m).complete (BitVec.ofNat 32 (ceil8 (s.streamRows * s.streamCols)))) ∧
      pixelsAt m s.l1.toNat (s.streamRows * s.streamCols) = px ∧
      (∀ i, s.streamRows * s.streamCols ≤ i → i < 8 * ceil8 (s.streamRows * s.streamCols) →
        pixelAt m s.l1.toNat i = false) ∧
      ∀ a, (∀ c < ceil8 (s.streamRows * s.streamCols), a ≠ s.l1.toNat + c) → Memory.get m a = Memory.get s.mem a

/-- R162, R168: RLEREND of a well-formed stream writes one glyph a pixel and a line feed after every cols-th, RESULT is
rows * cols + rows, and no other byte changes. -/
def Obligations.RlerendWritesGlyphText : Prop :=
  ∀ (s : State) (px : List Bool), s.DecodeReady (s.streamRows * s.streamCols + s.streamRows) →
    s.streamPixels = .ok px →
    ∃ m, exec .rlerend s =
        .next ((s.setMem m).complete (BitVec.ofNat 32 (s.streamRows * s.streamCols + s.streamRows))) ∧
      bytesAt m s.l1.toNat (s.streamRows * s.streamCols + s.streamRows) = glyphText s.streamCols 0 px ∧
      ∀ a, (∀ q < s.streamRows * s.streamCols + s.streamRows, a ≠ s.l1.toNat + q) →
        Memory.get m a = Memory.get s.mem a

/-- R164, R165, R170: a stream that ends before rows * cols pixels, or a run that passes them, ends either decoding command
with MalformedStream; RESULT is 0 and no byte outside the destination range changes. -/
def Obligations.MalformedStreamsAreReported : Prop :=
  ∀ (s : State) (e : Err), s.streamPixels = .error e →
    (s.DecodeReady (ceil8 (s.streamRows * s.streamCols)) →
      ∃ m, exec .rledec s = .next ((s.setMem m).raise .malformedStream) ∧
        ∀ a, (∀ c < ceil8 (s.streamRows * s.streamCols), a ≠ s.l1.toNat + c) →
          Memory.get m a = Memory.get s.mem a) ∧
    (s.DecodeReady (s.streamRows * s.streamCols + s.streamRows) →
      ∃ m, exec .rlerend s = .next ((s.setMem m).raise .malformedStream) ∧
        ∀ a, (∀ q < s.streamRows * s.streamCols + s.streamRows, a ≠ s.l1.toNat + q) →
          Memory.get m a = Memory.get s.mem a)

/-- R169, headline: encoding a PackedBuffer at P to E and decoding E to Q gives back every pixel. P, E and Q do not overlap,
the destination of the decoder lies in memory, and src_len is at least the encoder's RESULT. -/
def Obligations.RleRoundTrip : Prop :=
  ∀ s t u : State, s.Fresh → Memory.wf s.mem → exec .rleenc s = .next t → t.err = 0#4 →
    u.Fresh → u.mem = t.mem → u.config = s.config → u.l0 = s.l1 → t.result.toNat ≤ u.l3.toNat →
    Apart s.l0.toNat (ceil8 (s.l2.toNat * s.l3.toNat)) s.l1.toNat t.result.toNat →
    Apart s.l0.toNat (ceil8 (s.l2.toNat * s.l3.toNat)) u.l1.toNat (ceil8 (s.l2.toNat * s.l3.toNat)) →
    Apart s.l1.toNat t.result.toNat u.l1.toNat (ceil8 (s.l2.toNat * s.l3.toNat)) →
    u.l1.toNat + ceil8 (s.l2.toNat * s.l3.toNat) ≤ u.config.memBytes →
    ∃ v, exec .rledec u = .next v ∧ v.err = 0#4 ∧ v.result.toNat = ceil8 (s.l2.toNat * s.l3.toNat) ∧
      ∀ i < s.l2.toNat * s.l3.toNat, getBit v u.l1.toNat i = getBit s s.l0.toNat i

/-! ### The bodies against their pseudocode -/

/-- R100, R101: GETBIT and PUTBIT do what their pseudocode does, in every case: success, AccessFault. -/
def Obligations.BitCommandsFollowPseudocode : Prop :=
  ∀ s : State, s.Fresh →
    exec .getbit s = .next (conclude s (pseudoGetbit s)) ∧ exec .putbit s = .next (conclude s (pseudoPutbit s))

/-- R120, R63, R68: PACK does what its pseudocode does, access by access, in every case: success, each error at its place,
overlapping ranges. -/
def Obligations.PackFollowsPseudocode : Prop :=
  ∀ s : State, s.Fresh → exec .pack s = .next (conclude s (pseudoPack s))

/-- R140, R63, R68: RLEENC does what its pseudocode does, in every case. -/
def Obligations.RleencFollowsPseudocode : Prop :=
  ∀ s : State, s.Fresh → exec .rleenc s = .next (conclude s (pseudoRleenc s))

/-- R161, R163, R63, R68: RLEDEC does what its pseudocode does, in every case. -/
def Obligations.RledecFollowsPseudocode : Prop :=
  ∀ s : State, s.Fresh → exec .rledec s = .next (conclude s (pseudoRledec s))

/-- R162, R163, R63, R68: RLEREND does what its pseudocode does, in every case. -/
def Obligations.RlerendFollowsPseudocode : Prop :=
  ∀ s : State, s.Fresh → exec .rlerend s = .next (conclude s (pseudoRlerend s))

/-! ### Completion, errors, interrupt (spec/60_exceptions.md) -/

/-- R200, R201: an error ends the command in one step: ERR is its code, RESULT 0, BUSY 0, DONE 1; memory and every other
register stay. -/
def Obligations.ErrorEndsCommand : Prop :=
  (Err.code .invalidPhotoSize = 1#4 ∧ Err.code .unknownCharacter = 2#4 ∧ Err.code .rleLimitExceeded = 3#4 ∧
    Err.code .malformedStream = 4#4 ∧ Err.code .illegalCommand = 5#4 ∧ Err.code .accessFault = 6#4) ∧
  ∀ (s : State) (e : Err), (s.raise e).err = e.code ∧ (s.raise e).result = 0#32 ∧ (s.raise e).busy = false ∧
    (s.raise e).done = true ∧ (s.raise e).mem = s.mem ∧ s.KeepsRegisters (s.raise e) ∧ (s.raise e).control = .idle

/-- R202: success ends the command in one step: RESULT is the value, ERR 0, BUSY 0, DONE 1; memory and every other register
stay. -/
def Obligations.SuccessEndsCommand : Prop :=
  ∀ (s : State) (v : Word), (s.complete v).result = v ∧ (s.complete v).err = 0#4 ∧ (s.complete v).busy = false ∧
    (s.complete v).done = true ∧ (s.complete v).mem = s.mem ∧ s.KeepsRegisters (s.complete v) ∧
    (s.complete v).control = .idle

/-- R206: irq is CTRL.IE and STATUS.DONE. Success and error raise it alike when IE is 1; clearing DONE, acceptance and reset
clear it; setting IE while DONE is 1 raises it at once. -/
def Obligations.InterruptIsIeAndDone : Prop :=
  ∀ s : State, s.irq = (s.ctrl.getLsbD 0 && s.status.getLsbD 1) ∧
    (∀ v, (s.complete v).irq = s.ie) ∧ (∀ e, (s.raise e).irq = s.ie) ∧ (∀ w, (s.accept w).irq = false) ∧
    s.resetBlock.irq = false ∧ (∀ v : Word, v.getLsbD 1 = true → (writeReg s .status v).irq = false) ∧
    (∀ v : Word, v.getLsbD 0 = true → (writeReg s .ctrl v).irq = s.done) ∧
    (∀ v : Word, v.getLsbD 0 = false → (writeReg s .ctrl v).irq = false)

/-- R73, R123, R145: what RESULT holds after each command that succeeds, overlapping ranges or not, and 0 after each that
does not (R201). -/
def Obligations.ResultsOfCommands : Prop :=
  ∀ s t : State, s.Fresh →
    (∀ i, exec i s = .next t → t.err ≠ 0#4 → t.result = 0#32) ∧
    (exec .getbit s = .next t → t.err = 0#4 →
      t.result = if pixelAt s.mem s.l0.toNat s.l2.toNat then 1#32 else 0#32) ∧
    (exec .putbit s = .next t → t.err = 0#4 → t.result = 0#32) ∧
    (exec .pack s = .next t → t.err = 0#4 → t.result.toNat = ceil8 s.l2.toNat) ∧
    (exec .rleenc s = .next t → t.err = 0#4 → 3 ≤ t.result.toNat) ∧
    (exec .rledec s = .next t → t.err = 0#4 → t.result.toNat = ceil8 (s.streamRows * s.streamCols)) ∧
    (exec .rlerend s = .next t → t.err = 0#4 →
      t.result.toNat = s.streamRows * s.streamCols + s.streamRows)

/-! ### Reset, progress and the whole machine (spec/70_reset_and_hazards.md) -/

/-- R230, R231, R232: reset in any state, running or not, makes every register and latch 0, the block IDLE and irq 0 in one
step. A running command is abandoned: it makes no further access and does not complete. Memory is untouched. What the host
last read stays (notes/assumptions/9, the model's own field), and with no further turn the idle machine steps to itself
(notes/assumptions/12, DEDUCED). -/
def Obligations.ResetClearsTheBlock : Prop :=
  ∀ (s : State) (rest : List Input), s.inputs = .reset :: rest →
    ∃ t, step s = .next t ∧ t.ctrl = 0#32 ∧ t.cmd = 0#32 ∧ t.status = 0#32 ∧ t.result = 0#32 ∧ t.arg0 = 0#32 ∧
      t.arg1 = 0#32 ∧ t.arg2 = 0#32 ∧ t.arg3 = 0#32 ∧ t.lop = 0#32 ∧ t.l0 = 0#32 ∧ t.l1 = 0#32 ∧ t.l2 = 0#32 ∧
      t.l3 = 0#32 ∧ t.work = none ∧ t.control = .idle ∧ t.irq = false ∧ t.mem = s.mem ∧ t.config = s.config ∧
      t.inputs = rest ∧ t.hostData = s.hostData ∧ (rest = [] → step t = .next t)

/-- R38: the state after reset, for any parameters and any memory. -/
def Obligations.ResetValues : Prop :=
  ∀ (c : Config) (m : Memory) (turns : List Input), ∃ s, s = State.resetWith c m turns ∧
    s.ctrl = 0x00000000#32 ∧ s.cmd = 0x00000000#32 ∧ s.status = 0x00000000#32 ∧ s.busy = false ∧ s.done = false ∧
    s.err = 0#4 ∧ s.result = 0x00000000#32 ∧ s.arg0 = 0x00000000#32 ∧ s.arg1 = 0x00000000#32 ∧
    s.arg2 = 0x00000000#32 ∧ s.arg3 = 0x00000000#32 ∧ s.control = .idle ∧ s.lop = 0x00000000#32 ∧
    s.l0 = 0x00000000#32 ∧ s.l1 = 0x00000000#32 ∧ s.l2 = 0x00000000#32 ∧ s.l3 = 0x00000000#32 ∧ s.work = none ∧
    s.irq = false ∧ s.mem = m

/-- R244: every command, fresh or resumed at any point with its variables in range, completes when nothing interrupts it.
The bound on the block steps of one move is the model's choice (notes/assumptions/5), and no command reaches it. -/
def Obligations.EveryCommandCompletes : Prop :=
  ∀ (i : Instr) (s : State), s.workOk → s.quota = none →
    ∃ t, exec i s = .next t ∧ t.work = none ∧ t.busy = false ∧ t.done = true ∧ t.quota = none

/-- R22, R32, R243: how many block steps a command takes at a time makes no difference. Stopped after k block steps, it has
completed with the outcome of the uninterrupted command, or going on gives that outcome. -/
def Obligations.PausingChangesNothing : Prop :=
  ∀ (i : Instr) (s t : State) (k : Nat), s.workOk → s.quota = none →
    exec i { s with quota := some k } = .next t →
    t.workOk ∧ t.quota = none ∧ (t.work = none → exec i s = .next t) ∧ (t.work ≠ none → exec i t = exec i s)

/-- R77: a WAIT ends. In RUN the command completes and the WAIT is still first in line; in IDLE the host has read STATUS. -/
def Obligations.WaitSeesTheBlockIdle : Prop :=
  ∀ (s : State) (rest : List Input), s.Inv → s.inputs = .wait :: rest →
    (s.busy = true → ∃ t, step s = .next t ∧ t.busy = false ∧ t.done = true ∧ t.inputs = .wait :: rest) ∧
    (s.busy = false → step s = .next { s with inputs := rest, hostData := s.status &&& 0x000000F3#32 })

/-- R30, R33, R201, R202: whatever a command does, however many block steps it takes, it leaves CTRL, CMD, ARG0 to ARG3, the
latches and all that is not its own alone, and STATUS and RESULT change by completion or an error only. All six commands. -/
def Obligations.CommandsKeepRegisters : Prop :=
  ∀ (i : Instr) (s t : State), exec i s = .next t → s.KeepsRegisters t ∧ s.CompletesOrGoesOn t

/-- R62, R100, R101: GETBIT changes no byte of memory, and PUTBIT none but the byte it addresses. -/
def Obligations.BitCommandsMemoryFrame : Prop :=
  ∀ s t : State,
    (exec .getbit s = .next t → ∀ a, Memory.get t.mem a = Memory.get s.mem a) ∧
    (exec .putbit s = .next t → ∀ a, a ≠ putbitAddr s → Memory.get t.mem a = Memory.get s.mem a)

/-- R62, R120: PACK changes no byte but output bytes 0 to ceil8(n) - 1, wherever it is stopped or resumed. -/
def Obligations.PackMemoryFrame : Prop :=
  ∀ s t : State, s.workOk → exec .pack s = .next t →
    ∀ a, (∀ c < ceil8 s.arg2Nat, a ≠ s.dstBase + c) → Memory.get t.mem a = Memory.get s.mem a

/-- R62, R140, R148: RLEENC changes no byte but the N + 3 of its largest destination, and none when its checks fail; and of
those none but the bytes it has written when it ends. -/
def Obligations.RleencMemoryFrame : Prop :=
  ∀ s t : State, s.workOk → exec .rleenc s = .next t →
    ∀ a, (encChecksPass s → ∀ o < s.encPixels + 3, a ≠ s.dstBase + o) ∨
        (∀ o < rleencWrites s, a ≠ s.dstBase + o) →
      Memory.get t.mem a = Memory.get s.mem a

/-- R62, R161, R162: RLEDEC changes no byte but output bytes 0 to ceil8(N) - 1, and RLEREND none but output bytes 0 to
N + rows - 1, for the header of the stream. -/
def Obligations.DecoderMemoryFrame : Prop :=
  ∀ s t : State, s.workOk →
    (exec .rledec s = .next t →
      ∀ a, (∀ c < ceil8 ((rledecDims s).1.toNat * (rledecDims s).2.toNat), a ≠ s.dstBase + c) →
        Memory.get t.mem a = Memory.get s.mem a) ∧
    (exec .rlerend s = .next t →
      ∀ a, (∀ q < (rlerendDims s).1.toNat * (rlerendDims s).2.toNat + (rlerendDims s).1.toNat, a ≠ s.dstBase + q) →
        Memory.get t.mem a = Memory.get s.mem a)

/-- R38: the invariant holds after reset, for every MEM_BYTES of 1 to 2^32, every REG_BASE, every memory and every list of
turns. -/
def Obligations.ResetMeetsInvariant : Prop :=
  (∀ (c : Config) (m : Memory) (turns : List Input), c.wellFormed → Memory.wf m → Memory.below m c.memBytes →
    (State.resetWith c m turns).Inv) ∧
  State.reset.Inv

/-- R23 to R32, R200, R201, headline: every step keeps the invariant, whatever turn it takes and at any point of any command:
memory keeps its form and bound, reserved bits stay 0, BUSY and DONE are never 1 together, ERR is a code of the table, CMD
is the latched word, and working variables exist only in RUN and stay in range. -/
def Obligations.StepKeepsInvariant : Prop :=
  ∀ s t : State, s.Inv → step s = .next t → t.Inv
end

