-- ==== Sys2Proof/Laws/State.lean ====
section
/-!
SUPPORT. What each named update of the state does to each field, one lemma a field, so that no proof unfolds an update.
-/

namespace Sys2Proof.Machine

/-! ### State.setMem -/

@[simp] theorem State.setMem_config (s : State) (m : Memory) : (s.setMem m).config = s.config := rfl
@[simp] theorem State.setMem_ctrl (s : State) (m : Memory) : (s.setMem m).ctrl = s.ctrl := rfl
@[simp] theorem State.setMem_cmd (s : State) (m : Memory) : (s.setMem m).cmd = s.cmd := rfl
@[simp] theorem State.setMem_status (s : State) (m : Memory) : (s.setMem m).status = s.status := rfl
@[simp] theorem State.setMem_result (s : State) (m : Memory) : (s.setMem m).result = s.result := rfl
@[simp] theorem State.setMem_arg0 (s : State) (m : Memory) : (s.setMem m).arg0 = s.arg0 := rfl
@[simp] theorem State.setMem_arg1 (s : State) (m : Memory) : (s.setMem m).arg1 = s.arg1 := rfl
@[simp] theorem State.setMem_arg2 (s : State) (m : Memory) : (s.setMem m).arg2 = s.arg2 := rfl
@[simp] theorem State.setMem_arg3 (s : State) (m : Memory) : (s.setMem m).arg3 = s.arg3 := rfl
@[simp] theorem State.setMem_lop (s : State) (m : Memory) : (s.setMem m).lop = s.lop := rfl
@[simp] theorem State.setMem_l0 (s : State) (m : Memory) : (s.setMem m).l0 = s.l0 := rfl
@[simp] theorem State.setMem_l1 (s : State) (m : Memory) : (s.setMem m).l1 = s.l1 := rfl
@[simp] theorem State.setMem_l2 (s : State) (m : Memory) : (s.setMem m).l2 = s.l2 := rfl
@[simp] theorem State.setMem_l3 (s : State) (m : Memory) : (s.setMem m).l3 = s.l3 := rfl
@[simp] theorem State.setMem_work (s : State) (m : Memory) : (s.setMem m).work = s.work := rfl
@[simp] theorem State.setMem_mem (s : State) (m : Memory) : (s.setMem m).mem = m := rfl
@[simp] theorem State.setMem_inputs (s : State) (m : Memory) : (s.setMem m).inputs = s.inputs := rfl
@[simp] theorem State.setMem_quota (s : State) (m : Memory) : (s.setMem m).quota = s.quota := rfl
@[simp] theorem State.setMem_hostData (s : State) (m : Memory) : (s.setMem m).hostData = s.hostData := rfl

/-! ### State.accept -/

@[simp] theorem State.accept_config (s : State) (w : Word) : (s.accept w).config = s.config := rfl
@[simp] theorem State.accept_ctrl (s : State) (w : Word) : (s.accept w).ctrl = s.ctrl := rfl
@[simp] theorem State.accept_cmd (s : State) (w : Word) : (s.accept w).cmd = w := rfl
@[simp] theorem State.accept_status (s : State) (w : Word) : (s.accept w).status = statusWord true false 0#4 := rfl
@[simp] theorem State.accept_result (s : State) (w : Word) : (s.accept w).result = s.result := rfl
@[simp] theorem State.accept_arg0 (s : State) (w : Word) : (s.accept w).arg0 = s.arg0 := rfl
@[simp] theorem State.accept_arg1 (s : State) (w : Word) : (s.accept w).arg1 = s.arg1 := rfl
@[simp] theorem State.accept_arg2 (s : State) (w : Word) : (s.accept w).arg2 = s.arg2 := rfl
@[simp] theorem State.accept_arg3 (s : State) (w : Word) : (s.accept w).arg3 = s.arg3 := rfl
@[simp] theorem State.accept_lop (s : State) (w : Word) : (s.accept w).lop = w := rfl
@[simp] theorem State.accept_l0 (s : State) (w : Word) : (s.accept w).l0 = s.arg0 := rfl
@[simp] theorem State.accept_l1 (s : State) (w : Word) : (s.accept w).l1 = s.arg1 := rfl
@[simp] theorem State.accept_l2 (s : State) (w : Word) : (s.accept w).l2 = s.arg2 := rfl
@[simp] theorem State.accept_l3 (s : State) (w : Word) : (s.accept w).l3 = s.arg3 := rfl
@[simp] theorem State.accept_work (s : State) (w : Word) : (s.accept w).work = none := rfl
@[simp] theorem State.accept_mem (s : State) (w : Word) : (s.accept w).mem = s.mem := rfl
@[simp] theorem State.accept_inputs (s : State) (w : Word) : (s.accept w).inputs = s.inputs := rfl
@[simp] theorem State.accept_quota (s : State) (w : Word) : (s.accept w).quota = s.quota := rfl
@[simp] theorem State.accept_hostData (s : State) (w : Word) : (s.accept w).hostData = s.hostData := rfl

/-! ### State.complete -/

@[simp] theorem State.complete_config (s : State) (v : Word) : (s.complete v).config = s.config := rfl
@[simp] theorem State.complete_ctrl (s : State) (v : Word) : (s.complete v).ctrl = s.ctrl := rfl
@[simp] theorem State.complete_cmd (s : State) (v : Word) : (s.complete v).cmd = s.cmd := rfl
@[simp] theorem State.complete_status (s : State) (v : Word) : (s.complete v).status = statusWord false true 0#4 := rfl
@[simp] theorem State.complete_result (s : State) (v : Word) : (s.complete v).result = v := rfl
@[simp] theorem State.complete_arg0 (s : State) (v : Word) : (s.complete v).arg0 = s.arg0 := rfl
@[simp] theorem State.complete_arg1 (s : State) (v : Word) : (s.complete v).arg1 = s.arg1 := rfl
@[simp] theorem State.complete_arg2 (s : State) (v : Word) : (s.complete v).arg2 = s.arg2 := rfl
@[simp] theorem State.complete_arg3 (s : State) (v : Word) : (s.complete v).arg3 = s.arg3 := rfl
@[simp] theorem State.complete_lop (s : State) (v : Word) : (s.complete v).lop = s.lop := rfl
@[simp] theorem State.complete_l0 (s : State) (v : Word) : (s.complete v).l0 = s.l0 := rfl
@[simp] theorem State.complete_l1 (s : State) (v : Word) : (s.complete v).l1 = s.l1 := rfl
@[simp] theorem State.complete_l2 (s : State) (v : Word) : (s.complete v).l2 = s.l2 := rfl
@[simp] theorem State.complete_l3 (s : State) (v : Word) : (s.complete v).l3 = s.l3 := rfl
@[simp] theorem State.complete_work (s : State) (v : Word) : (s.complete v).work = none := rfl
@[simp] theorem State.complete_mem (s : State) (v : Word) : (s.complete v).mem = s.mem := rfl
@[simp] theorem State.complete_inputs (s : State) (v : Word) : (s.complete v).inputs = s.inputs := rfl
@[simp] theorem State.complete_quota (s : State) (v : Word) : (s.complete v).quota = none := rfl
@[simp] theorem State.complete_hostData (s : State) (v : Word) : (s.complete v).hostData = s.hostData := rfl

/-! ### State.raise -/

@[simp] theorem State.raise_config (s : State) (e : Err) : (s.raise e).config = s.config := rfl
@[simp] theorem State.raise_ctrl (s : State) (e : Err) : (s.raise e).ctrl = s.ctrl := rfl
@[simp] theorem State.raise_cmd (s : State) (e : Err) : (s.raise e).cmd = s.cmd := rfl
@[simp] theorem State.raise_status (s : State) (e : Err) : (s.raise e).status = statusWord false true e.code := rfl
@[simp] theorem State.raise_result (s : State) (e : Err) : (s.raise e).result = 0#32 := rfl
@[simp] theorem State.raise_arg0 (s : State) (e : Err) : (s.raise e).arg0 = s.arg0 := rfl
@[simp] theorem State.raise_arg1 (s : State) (e : Err) : (s.raise e).arg1 = s.arg1 := rfl
@[simp] theorem State.raise_arg2 (s : State) (e : Err) : (s.raise e).arg2 = s.arg2 := rfl
@[simp] theorem State.raise_arg3 (s : State) (e : Err) : (s.raise e).arg3 = s.arg3 := rfl
@[simp] theorem State.raise_lop (s : State) (e : Err) : (s.raise e).lop = s.lop := rfl
@[simp] theorem State.raise_l0 (s : State) (e : Err) : (s.raise e).l0 = s.l0 := rfl
@[simp] theorem State.raise_l1 (s : State) (e : Err) : (s.raise e).l1 = s.l1 := rfl
@[simp] theorem State.raise_l2 (s : State) (e : Err) : (s.raise e).l2 = s.l2 := rfl
@[simp] theorem State.raise_l3 (s : State) (e : Err) : (s.raise e).l3 = s.l3 := rfl
@[simp] theorem State.raise_work (s : State) (e : Err) : (s.raise e).work = none := rfl
@[simp] theorem State.raise_mem (s : State) (e : Err) : (s.raise e).mem = s.mem := rfl
@[simp] theorem State.raise_inputs (s : State) (e : Err) : (s.raise e).inputs = s.inputs := rfl
@[simp] theorem State.raise_quota (s : State) (e : Err) : (s.raise e).quota = none := rfl
@[simp] theorem State.raise_hostData (s : State) (e : Err) : (s.raise e).hostData = s.hostData := rfl

/-! ### State.pause -/

@[simp] theorem State.pause_config (s : State) (w : Work) : (s.pause w).config = s.config := rfl
@[simp] theorem State.pause_ctrl (s : State) (w : Work) : (s.pause w).ctrl = s.ctrl := rfl
@[simp] theorem State.pause_cmd (s : State) (w : Work) : (s.pause w).cmd = s.cmd := rfl
@[simp] theorem State.pause_status (s : State) (w : Work) : (s.pause w).status = s.status := rfl
@[simp] theorem State.pause_result (s : State) (w : Work) : (s.pause w).result = s.result := rfl
@[simp] theorem State.pause_arg0 (s : State) (w : Work) : (s.pause w).arg0 = s.arg0 := rfl
@[simp] theorem State.pause_arg1 (s : State) (w : Work) : (s.pause w).arg1 = s.arg1 := rfl
@[simp] theorem State.pause_arg2 (s : State) (w : Work) : (s.pause w).arg2 = s.arg2 := rfl
@[simp] theorem State.pause_arg3 (s : State) (w : Work) : (s.pause w).arg3 = s.arg3 := rfl
@[simp] theorem State.pause_lop (s : State) (w : Work) : (s.pause w).lop = s.lop := rfl
@[simp] theorem State.pause_l0 (s : State) (w : Work) : (s.pause w).l0 = s.l0 := rfl
@[simp] theorem State.pause_l1 (s : State) (w : Work) : (s.pause w).l1 = s.l1 := rfl
@[simp] theorem State.pause_l2 (s : State) (w : Work) : (s.pause w).l2 = s.l2 := rfl
@[simp] theorem State.pause_l3 (s : State) (w : Work) : (s.pause w).l3 = s.l3 := rfl
@[simp] theorem State.pause_work (s : State) (w : Work) : (s.pause w).work = some w := rfl
@[simp] theorem State.pause_mem (s : State) (w : Work) : (s.pause w).mem = s.mem := rfl
@[simp] theorem State.pause_inputs (s : State) (w : Work) : (s.pause w).inputs = s.inputs := rfl
@[simp] theorem State.pause_quota (s : State) (w : Work) : (s.pause w).quota = none := rfl
@[simp] theorem State.pause_hostData (s : State) (w : Work) : (s.pause w).hostData = s.hostData := rfl

/-! ### State.resetBlock -/

@[simp] theorem State.resetBlock_config (s : State) : (s.resetBlock).config = s.config := rfl
@[simp] theorem State.resetBlock_ctrl (s : State) : (s.resetBlock).ctrl = 0#32 := rfl
@[simp] theorem State.resetBlock_cmd (s : State) : (s.resetBlock).cmd = 0#32 := rfl
@[simp] theorem State.resetBlock_status (s : State) : (s.resetBlock).status = 0#32 := rfl
@[simp] theorem State.resetBlock_result (s : State) : (s.resetBlock).result = 0#32 := rfl
@[simp] theorem State.resetBlock_arg0 (s : State) : (s.resetBlock).arg0 = 0#32 := rfl
@[simp] theorem State.resetBlock_arg1 (s : State) : (s.resetBlock).arg1 = 0#32 := rfl
@[simp] theorem State.resetBlock_arg2 (s : State) : (s.resetBlock).arg2 = 0#32 := rfl
@[simp] theorem State.resetBlock_arg3 (s : State) : (s.resetBlock).arg3 = 0#32 := rfl
@[simp] theorem State.resetBlock_lop (s : State) : (s.resetBlock).lop = 0#32 := rfl
@[simp] theorem State.resetBlock_l0 (s : State) : (s.resetBlock).l0 = 0#32 := rfl
@[simp] theorem State.resetBlock_l1 (s : State) : (s.resetBlock).l1 = 0#32 := rfl
@[simp] theorem State.resetBlock_l2 (s : State) : (s.resetBlock).l2 = 0#32 := rfl
@[simp] theorem State.resetBlock_l3 (s : State) : (s.resetBlock).l3 = 0#32 := rfl
@[simp] theorem State.resetBlock_work (s : State) : (s.resetBlock).work = none := rfl
@[simp] theorem State.resetBlock_mem (s : State) : (s.resetBlock).mem = s.mem := rfl
@[simp] theorem State.resetBlock_inputs (s : State) : (s.resetBlock).inputs = s.inputs := rfl
@[simp] theorem State.resetBlock_quota (s : State) : (s.resetBlock).quota = none := rfl
@[simp] theorem State.resetBlock_hostData (s : State) : (s.resetBlock).hostData = s.hostData := rfl

end Sys2Proof.Machine
end

