-- ==== Sys2Proof/Laws/Flags.lean ====
section
/-!
SUPPORT. The fields of STATUS after each update that writes it, and the reserved bits (spec/10_state.md R23, R27).
-/

namespace Sys2Proof.Machine

theorem statusWord_busy (b d : Bool) (e : BitVec 4) : (statusWord b d e).getLsbD 0 = b := by
  revert b d e; decide

theorem statusWord_done (b d : Bool) (e : BitVec 4) : (statusWord b d e).getLsbD 1 = d := by
  revert b d e; decide

theorem statusWord_err (b d : Bool) (e : BitVec 4) : (statusWord b d e).extractLsb' 4 4 = e := by
  revert b d e; decide

theorem statusWord_reserved (b d : Bool) (e : BitVec 4) : statusWord b d e &&& ~~~statusMask = 0#32 := by
  revert b d e; decide

@[simp] theorem State.accept_busy (s : State) (w : Word) : (s.accept w).busy = true := statusWord_busy ..
@[simp] theorem State.accept_done (s : State) (w : Word) : (s.accept w).done = false := statusWord_done ..
@[simp] theorem State.accept_err (s : State) (w : Word) : (s.accept w).err = 0#4 := statusWord_err ..
@[simp] theorem State.complete_busy (s : State) (v : Word) : (s.complete v).busy = false := statusWord_busy ..
@[simp] theorem State.complete_done (s : State) (v : Word) : (s.complete v).done = true := statusWord_done ..
@[simp] theorem State.complete_err (s : State) (v : Word) : (s.complete v).err = 0#4 := statusWord_err ..
@[simp] theorem State.raise_busy (s : State) (e : Err) : (s.raise e).busy = false := statusWord_busy ..
@[simp] theorem State.raise_done (s : State) (e : Err) : (s.raise e).done = true := statusWord_done ..
@[simp] theorem State.raise_err (s : State) (e : Err) : (s.raise e).err = e.code := statusWord_err ..
@[simp] theorem State.setMem_busy (s : State) (m : Memory) : (s.setMem m).busy = s.busy := rfl
@[simp] theorem State.setMem_done (s : State) (m : Memory) : (s.setMem m).done = s.done := rfl
@[simp] theorem State.setMem_err (s : State) (m : Memory) : (s.setMem m).err = s.err := rfl
@[simp] theorem State.pause_busy (s : State) (w : Work) : (s.pause w).busy = s.busy := rfl
@[simp] theorem State.pause_done (s : State) (w : Work) : (s.pause w).done = s.done := rfl
@[simp] theorem State.pause_err (s : State) (w : Work) : (s.pause w).err = s.err := rfl
@[simp] theorem State.resetBlock_busy (s : State) : s.resetBlock.busy = false := by simp [State.busy]
@[simp] theorem State.resetBlock_done (s : State) : s.resetBlock.done = false := by simp [State.done]
@[simp] theorem State.resetBlock_err (s : State) : s.resetBlock.err = 0#4 := by simp [State.err]

/-- Clearing DONE keeps BUSY (R28). -/
theorem clearDone_busy (w : Word) : (clearDone w).getLsbD 0 = w.getLsbD 0 := by
  simp [clearDone]

/-- Clearing DONE clears it (R28). -/
theorem clearDone_done (w : Word) : (clearDone w).getLsbD 1 = false := by
  simp [clearDone]

/-- Clearing DONE keeps ERR (R28). -/
theorem clearDone_err (w : Word) : (clearDone w).extractLsb' 4 4 = w.extractLsb' 4 4 := by
  ext i h
  have : i < 4 := h
  interval_cases i <;> simp [clearDone]

/-- The accessors after a write that clears DONE (R28). -/
@[simp] theorem State.clearDone_busy (s : State) : ({ s with status := clearDone s.status } : State).busy = s.busy :=
  Sys2Proof.Machine.clearDone_busy s.status
@[simp] theorem State.clearDone_done (s : State) : ({ s with status := clearDone s.status } : State).done = false :=
  Sys2Proof.Machine.clearDone_done s.status
@[simp] theorem State.clearDone_err (s : State) : ({ s with status := clearDone s.status } : State).err = s.err :=
  Sys2Proof.Machine.clearDone_err s.status

/-- Clearing DONE sets no reserved bit (R28). -/
theorem clearDone_reserved (w : Word) (h : w &&& ~~~statusMask = 0#32) : clearDone w &&& ~~~statusMask = 0#32 := by
  unfold clearDone
  rw [BitVec.and_assoc, BitVec.and_comm 0xFFFFFFFD#32, ← BitVec.and_assoc, h, BitVec.zero_and]

/-- Every error has a code of the table, 1 to 6 (spec/60_exceptions.md R200). -/
theorem Err.code_range (e : Err) : 1 ≤ e.code.toNat ∧ e.code.toNat ≤ 6 := by
  cases e <;> decide

end Sys2Proof.Machine
end

