-- ==== Sys2Proof/Laws/Memory.lean ====
section
/-!
SUPPORT. The laws of memory (spec/20_memory.md R50 to R52): reading what was written, leaving other places alone, keeping
the canonical form and the bound, and equality of memories that read the same.
-/

namespace Sys2Proof.Machine

@[simp] theorem Memory.get_nil (a : Nat) : Memory.get [] a = Config.unlistedByte := rfl

@[simp] theorem Memory.get_cons (k : Nat) (b : Byte) (rest : Memory) (a : Nat) :
    Memory.get ((k, b) :: rest) a = if k = a then b else Memory.get rest a := rfl

/-- Putting an entry before `m` leaves every other address alone. -/
theorem Memory.get_consEntry_ne (m : Memory) (a k : Nat) (v : Byte) (h : k ≠ a) :
    Memory.get (Memory.cons k v m) a = Memory.get m a := by
  unfold Memory.cons
  split
  · rfl
  · simp [h]

/-- A write leaves every other address alone. -/
theorem Memory.get_set_ne (m : Memory) (a b : Nat) (v : Byte) (h : b ≠ a) :
    Memory.get (Memory.set m a v) b = Memory.get m b := by
  induction m with
  | nil => simpa [Memory.set] using Memory.get_consEntry_ne [] b a v (Ne.symm h)
  | cons c rest ih =>
    obtain ⟨k, w⟩ := c
    unfold Memory.set
    split
    · exact Memory.get_consEntry_ne _ b a v (Ne.symm h)
    · split
      · rename_i hk
        have hkb : ¬ k = b := by omega
        rw [Memory.get_consEntry_ne _ b a v (Ne.symm h), Memory.get_cons, if_neg hkb]
      · simp [ih]

/-- An address below every listed one is not listed. -/
theorem Memory.get_of_lt (m : Memory) (a : Nat) (h : ∀ c ∈ m, a < c.1) : Memory.get m a = Config.unlistedByte := by
  induction m with
  | nil => rfl
  | cons c rest ih =>
    obtain ⟨k, w⟩ := c
    have hk : a < k := h (k, w) (by simp)
    have : ¬ k = a := by omega
    rw [Memory.get_cons, if_neg this]
    exact ih fun c hc => h c (by simp [hc])

theorem Memory.get_consEntry_self (m : Memory) (a : Nat) (v : Byte) (h : ∀ c ∈ m, a < c.1) :
    Memory.get (Memory.cons a v m) a = v := by
  unfold Memory.cons
  split
  · rename_i hv; rw [hv]; exact Memory.get_of_lt m a h
  · simp

theorem Memory.wf_tail {c : Host.Cell} {rest : Memory} (h : Memory.wf (c :: rest)) : Memory.wf rest :=
  ⟨(List.pairwise_cons.mp h.1).2, fun d hd => h.2 d (by simp [hd])⟩

theorem Memory.wf_head {c : Host.Cell} {rest : Memory} (h : Memory.wf (c :: rest)) : ∀ d ∈ rest, c.1 < d.1 :=
  (List.pairwise_cons.mp h.1).1

/-- A read after a write to the same address gives the value written. -/
theorem Memory.get_set_self (m : Memory) (a : Nat) (v : Byte) (h : Memory.wf m) :
    Memory.get (Memory.set m a v) a = v := by
  induction m with
  | nil => exact Memory.get_consEntry_self [] a v (by simp)
  | cons c rest ih =>
    obtain ⟨k, w⟩ := c
    have hd := Memory.wf_head h
    unfold Memory.set
    split
    · rename_i hlt
      refine Memory.get_consEntry_self _ a v fun d hdm => ?_
      rcases List.mem_cons.mp hdm with rfl | hdm
      · exact hlt
      · exact lt_trans hlt (hd d hdm)
    · split
      · rename_i hk; subst hk
        exact Memory.get_consEntry_self _ a v hd
      · rename_i hk
        have : ¬ k = a := by omega
        rw [Memory.get_cons, if_neg this]
        exact ih (Memory.wf_tail h)

/-- Reading after a write, at any address. -/
theorem Memory.get_set (m : Memory) (a b : Nat) (v : Byte) (h : Memory.wf m) :
    Memory.get (Memory.set m a v) b = if b = a then v else Memory.get m b := by
  split
  · rename_i hb; subst hb; exact Memory.get_set_self m b v h
  · rename_i hb; exact Memory.get_set_ne m a b v hb

/-- Every entry after a write was there before or is the one written. -/
theorem Memory.mem_set (m : Memory) (a : Nat) (v : Byte) (c : Host.Cell) (h : c ∈ Memory.set m a v) :
    c ∈ m ∨ (c = (a, v) ∧ v ≠ Config.unlistedByte) := by
  have hc : ∀ n : Memory, c ∈ Memory.cons a v n → c ∈ n ∨ (c = (a, v) ∧ v ≠ Config.unlistedByte) := by
    intro n hn
    unfold Memory.cons at hn
    split at hn
    · exact .inl hn
    · rcases List.mem_cons.mp hn with rfl | hn
      · exact .inr ⟨rfl, by assumption⟩
      · exact .inl hn
  induction m with
  | nil => exact hc [] h
  | cons d rest ih =>
    obtain ⟨k, w⟩ := d
    unfold Memory.set at h
    split at h
    · exact hc _ h
    · split at h
      · exact (hc _ h).imp_left fun hr => by simp [hr]
      · rcases List.mem_cons.mp h with rfl | h
        · simp
        · exact (ih h).imp_left fun hr => by simp [hr]

theorem Memory.wf_consEntry (m : Memory) (a : Nat) (v : Byte) (h : Memory.wf m) (hl : ∀ c ∈ m, a < c.1) :
    Memory.wf (Memory.cons a v m) := by
  unfold Memory.cons
  split
  · exact h
  · rename_i hv
    refine ⟨List.pairwise_cons.mpr ⟨hl, h.1⟩, fun c hc => ?_⟩
    rcases List.mem_cons.mp hc with rfl | hc
    · exact hv
    · exact h.2 c hc

/-- A write keeps the canonical form. -/
theorem Memory.wf_set (m : Memory) (a : Nat) (v : Byte) (h : Memory.wf m) : Memory.wf (Memory.set m a v) := by
  induction m with
  | nil => exact Memory.wf_consEntry [] a v h (by simp)
  | cons c rest ih =>
    obtain ⟨k, w⟩ := c
    have hd := Memory.wf_head h
    unfold Memory.set
    split
    · rename_i hlt
      refine Memory.wf_consEntry _ a v h fun d hdm => ?_
      rcases List.mem_cons.mp hdm with rfl | hdm
      · exact hlt
      · exact lt_trans hlt (hd d hdm)
    · split
      · rename_i hk; subst hk
        exact Memory.wf_consEntry _ a v (Memory.wf_tail h) hd
      · have ih' := ih (Memory.wf_tail h)
        refine ⟨List.pairwise_cons.mpr ⟨fun d hdm => ?_, ih'.1⟩, fun d hdm => ?_⟩
        · rcases Memory.mem_set rest a v d hdm with hdm | ⟨rfl, -⟩
          · exact hd d hdm
          · show k < a; omega
        · rcases List.mem_cons.mp hdm with rfl | hdm
          · exact h.2 (k, w) (by simp)
          · exact ih'.2 d hdm

/-- A write below `n` keeps every listed address below `n`. -/
theorem Memory.below_set (m : Memory) (n a : Nat) (v : Byte) (h : Memory.below m n) (ha : a < n) :
    Memory.below (Memory.set m a v) n := by
  intro c hc
  rcases Memory.mem_set m a v c hc with hc | ⟨rfl, -⟩
  · exact h c hc
  · exact ha

/-- The memory of State.reset has the canonical form. -/
theorem Memory.wf_reset : Memory.wf State.reset.mem := by decide

/-- Memories in canonical form that read the same are equal. -/
theorem Memory.ext_get (m n : Memory) (hm : Memory.wf m) (hn : Memory.wf n)
    (h : ∀ a, Memory.get m a = Memory.get n a) : m = n := by
  induction m generalizing n with
  | nil =>
    cases n with
    | nil => rfl
    | cons d r =>
      obtain ⟨k, w⟩ := d
      have := h k
      simp at this
      exact absurd this.symm (hn.2 (k, w) (by simp))
  | cons c rest ih =>
    obtain ⟨k, w⟩ := c
    have hw : w ≠ Config.unlistedByte := hm.2 (k, w) (by simp)
    cases n with
    | nil =>
      have := h k
      simp at this
      exact absurd this hw
    | cons d r =>
      obtain ⟨k', w'⟩ := d
      have hw' : w' ≠ Config.unlistedByte := hn.2 (k', w') (by simp)
      have hk : k = k' := by
        rcases Nat.lt_trichotomy k k' with hlt | heq | hgt
        · have h1 := h k
          rw [Memory.get_of_lt ((k', w') :: r) k (fun d hd => ?_)] at h1
          · simp at h1; exact absurd h1 hw
          · rcases List.mem_cons.mp hd with rfl | hd
            · exact hlt
            · exact lt_trans hlt (Memory.wf_head hn d hd)
        · exact heq
        · have h1 := h k'
          rw [Memory.get_of_lt ((k, w) :: rest) k' (fun d hd => ?_)] at h1
          · simp at h1; exact absurd h1.symm hw'
          · rcases List.mem_cons.mp hd with rfl | hd
            · exact hgt
            · exact lt_trans hgt (Memory.wf_head hm d hd)
      subst hk
      have hv : w = w' := by simpa using h k
      subst hv
      congr 1
      refine ih r (Memory.wf_tail hm) (Memory.wf_tail hn) fun a => ?_
      by_cases ha : k = a
      · subst ha
        rw [Memory.get_of_lt rest k (Memory.wf_head hm), Memory.get_of_lt r k (Memory.wf_head hn)]
      · simpa [ha] using h a

end Sys2Proof.Machine
end

