-- ==== Sys2Proof/Laws/PerInstr.lean ====
section
/-!
SUPPORT. Statements about every instruction as syntax, one lemma per constructor.
-/

/-- The command word of an instruction is a legal one: it is well formed, RSVD is 0 and OP is 1 to 6
(spec/30_encoding.md R70, R72, R75). -/
def Sys2Proof.Laws.LegalWord.Statement (i : Sys2Proof.Instr) : Prop :=
  i.wellFormed = true ∧ Sys2Proof.rsvdField (Sys2Proof.encode i) = 0#28 ∧
    1 ≤ (Sys2Proof.opField (Sys2Proof.encode i)).toNat ∧ (Sys2Proof.opField (Sys2Proof.encode i)).toNat ≤ 6

theorem Sys2Proof.Laws.LegalWord.getbit : Sys2Proof.Laws.LegalWord.Statement .getbit := by
  unfold Sys2Proof.Laws.LegalWord.Statement; decide

theorem Sys2Proof.Laws.LegalWord.putbit : Sys2Proof.Laws.LegalWord.Statement .putbit := by
  unfold Sys2Proof.Laws.LegalWord.Statement; decide

theorem Sys2Proof.Laws.LegalWord.pack : Sys2Proof.Laws.LegalWord.Statement .pack := by
  unfold Sys2Proof.Laws.LegalWord.Statement; decide

theorem Sys2Proof.Laws.LegalWord.rleenc : Sys2Proof.Laws.LegalWord.Statement .rleenc := by
  unfold Sys2Proof.Laws.LegalWord.Statement; decide

theorem Sys2Proof.Laws.LegalWord.rledec : Sys2Proof.Laws.LegalWord.Statement .rledec := by
  unfold Sys2Proof.Laws.LegalWord.Statement; decide

theorem Sys2Proof.Laws.LegalWord.rlerend : Sys2Proof.Laws.LegalWord.Statement .rlerend := by
  unfold Sys2Proof.Laws.LegalWord.Statement; decide
end

