-- ==== Sys2Proof/Laws/Run.lean ====
section
/-!
SUPPORT. Everything the running of a command body can do: its steps one by one, the principle by which a property of
every block step becomes one of the whole run, how runs compose, and what no run touches.
-/

namespace Sys2Proof.Machine

variable {ω : Type} {f : State → ω → Micro ω} {inj : ω → Work}

@[simp] theorem runBody_zero (w : ω) (s : State) : runBody f inj 0 w s = s.pause (inj w) := rfl

theorem runBody_succ (k : Nat) (w : ω) (s : State) :
    runBody f inj (k + 1) w s =
      match f s w with
      | .goOn m w' => runBody f inj k w' (s.setMem m)
      | .complete v => s.complete v
      | .raise e => s.raise e := rfl

/-- A run from a property `P` of state and working variables ends in `Q`, when every block step keeps `P` or ends in `Q`. -/
theorem runBody_induction {P : State → ω → Prop} {Q : State → Prop}
    (hpause : ∀ s w, P s w → Q (s.pause (inj w)))
    (hgo : ∀ s w m w', P s w → f s w = .goOn m w' → P (s.setMem m) w')
    (hcomplete : ∀ s w v, P s w → f s w = .complete v → Q (s.complete v))
    (hraise : ∀ s w e, P s w → f s w = .raise e → Q (s.raise e))
    (k : Nat) (w : ω) (s : State) (h : P s w) : Q (runBody f inj k w s) := by
  induction k generalizing w s with
  | zero => exact hpause s w h
  | succ k ih =>
    rw [runBody_succ]
    split
    · exact ih _ _ (hgo s w _ _ h ‹_›)
    · exact hcomplete s w _ h ‹_›
    · exact hraise s w _ h ‹_›

/-- Everything a run can answer: the state it began in with another memory, left in RUN, completed, or ended by an error. -/
theorem runBody_cases (k : Nat) (w : ω) (s : State) :
    ∃ m, (∃ w', runBody f inj k w s = (s.setMem m).pause (inj w')) ∨
      (∃ v, runBody f inj k w s = (s.setMem m).complete v) ∨ (∃ e, runBody f inj k w s = (s.setMem m).raise e) := by
  induction k generalizing w s with
  | zero => exact ⟨s.mem, .inl ⟨w, rfl⟩⟩
  | succ k ih =>
    rw [runBody_succ]
    split
    · rename_i m w' _
      exact ih w' (s.setMem m)
    · exact ⟨s.mem, .inr (.inl ⟨_, rfl⟩)⟩
    · exact ⟨s.mem, .inr (.inr ⟨_, rfl⟩)⟩

/-- `k` block steps that all go on: the working variables and the state after them. -/
def walk (f : State → ω → Micro ω) (k : Nat) (w : ω) (s : State) : Option (ω × State) :=
  match k with
  | 0 => some (w, s)
  | n + 1 =>
    match f s w with
    | .goOn m w' => walk f n w' (s.setMem m)
    | .complete _ => none
    | .raise _ => none

theorem walk_zero (w : ω) (s : State) : walk f 0 w s = some (w, s) := rfl

theorem walk_succ (k : Nat) (w : ω) (s : State) (m : Memory) (w' : ω) (h : f s w = .goOn m w') :
    walk f (k + 1) w s = walk f k w' (s.setMem m) := by
  simp only [walk, h]

/-- Walks compose. -/
theorem walk_add (j k : Nat) (w w' : ω) (s s' : State) (h : walk f j w s = some (w', s')) :
    walk f (j + k) w s = walk f k w' s' := by
  induction j generalizing w s with
  | zero => simp only [walk, Option.some.injEq, Prod.mk.injEq] at h; simp [h.1, h.2]
  | succ j ih =>
    rw [Nat.succ_add]
    simp only [walk] at h ⊢
    split at h
    · exact ih _ _ h
    · cases h
    · cases h

/-- A run goes on from where a walk ends. -/
theorem runBody_walk (j k : Nat) (w w' : ω) (s s' : State) (h : walk f j w s = some (w', s')) :
    runBody f inj (j + k) w s = runBody f inj k w' s' := by
  induction j generalizing w s with
  | zero => simp only [walk, Option.some.injEq, Prod.mk.injEq] at h; simp [h.1, h.2]
  | succ j ih =>
    rw [Nat.succ_add, runBody_succ]
    simp only [walk] at h
    split at h
    · exact ih _ _ h
    · cases h
    · cases h

/-- A run that reaches completion within its steps completes. -/
theorem runBody_walk_complete (j k : Nat) (w w' : ω) (s s' : State) (v : Word) (h : walk f j w s = some (w', s'))
    (hv : f s' w' = .complete v) (hk : j < k) : runBody f inj k w s = s'.complete v := by
  obtain ⟨d, rfl⟩ : ∃ d, k = j + (d + 1) := ⟨k - j - 1, by omega⟩
  rw [runBody_walk j (d + 1) w w' s s' h, runBody_succ, hv]

/-- A run that reaches an error within its steps ends with it. -/
theorem runBody_walk_raise (j k : Nat) (w w' : ω) (s s' : State) (e : Err) (h : walk f j w s = some (w', s'))
    (he : f s' w' = .raise e) (hk : j < k) : runBody f inj k w s = s'.raise e := by
  obtain ⟨d, rfl⟩ : ∃ d, k = j + (d + 1) := ⟨k - j - 1, by omega⟩
  rw [runBody_walk j (d + 1) w w' s s' h, runBody_succ, he]

/-! ### How far a run gets -/

variable {mark : ω → Nat}

@[simp] theorem runMark_zero (w : ω) (s : State) : runMark f mark 0 w s = mark w := rfl

theorem runMark_succ (k : Nat) (w : ω) (s : State) :
    runMark f mark (k + 1) w s =
      match f s w with
      | .goOn m w' => runMark f mark k w' (s.setMem m)
      | .complete _ => mark w
      | .raise _ => mark w := rfl

/-- A run gets at least as far as where it stands, when no block step lowers the mark. -/
theorem le_runMark (hmono : ∀ s w m w', f s w = .goOn m w' → mark w ≤ mark w') (k : Nat) (w : ω) (s : State) :
    mark w ≤ runMark f mark k w s := by
  induction k generalizing w s with
  | zero => exact Nat.le_refl _
  | succ k ih =>
    rw [runMark_succ]
    split
    · exact Nat.le_trans (hmono s w _ _ ‹_›) (ih _ _)
    · exact Nat.le_refl _
    · exact Nat.le_refl _

/-- A run gets as far as the walk that ends it. -/
theorem runMark_walk (j k : Nat) (w w' : ω) (s s' : State) (h : walk f j w s = some (w', s'))
    (hend : (∃ v, f s' w' = .complete v) ∨ (∃ e, f s' w' = .raise e)) (hk : j < k) :
    runMark f mark k w s = mark w' := by
  induction j generalizing k w s with
  | zero =>
    cases h
    obtain ⟨n, rfl⟩ : ∃ n, k = n + 1 := ⟨k - 1, by omega⟩
    obtain ⟨v, hv⟩ | ⟨e, he⟩ := hend
    · rw [runMark_succ, hv]
    · rw [runMark_succ, he]
  | succ j ih =>
    obtain ⟨n, rfl⟩ : ∃ n, k = n + 1 := ⟨k - 1, by omega⟩
    simp only [walk] at h
    rw [runMark_succ]
    split at h
    · exact ih n _ _ h (by omega)
    · cases h
    · cases h

/-- A change `g` of the state that the block steps do not see, such as the taking of a turn, changes no run's length. -/
theorem runMark_unseen (g : State → State) (hf : ∀ s w, f (g s) w = f s w)
    (hg : ∀ s m, (g s).setMem m = g (s.setMem m)) (k : Nat) (w : ω) (s : State) :
    runMark f mark k w (g s) = runMark f mark k w s := by
  induction k generalizing w s with
  | zero => rfl
  | succ k ih =>
    rw [runMark_succ, runMark_succ, hf]
    split
    · rw [hg]; exact ih _ _
    · rfl
    · rfl

/-- A byte stored before a run is the same byte stored after it, when every block step from `P` does the same on both
memories. `k` is how many block steps are left. -/
theorem runBody_store {a : Nat} {v : Byte} {P : Nat → State → ω → Prop}
    (hgo : ∀ k s w m w', P (k + 1) s w → f s w = .goOn m w' →
      f (s.setMem (Memory.set s.mem a v)) w = .goOn (Memory.set m a v) w' ∧ P k (s.setMem m) w')
    (hcomplete : ∀ k s w x, P (k + 1) s w → f s w = .complete x →
      f (s.setMem (Memory.set s.mem a v)) w = .complete x)
    (hraise : ∀ k s w e, P (k + 1) s w → f s w = .raise e → f (s.setMem (Memory.set s.mem a v)) w = .raise e)
    (k : Nat) (w : ω) (s : State) (h : P k s w) :
    runBody f inj k w (s.setMem (Memory.set s.mem a v)) =
      (runBody f inj k w s).setMem (Memory.set (runBody f inj k w s).mem a v) := by
  induction k generalizing w s with
  | zero => rfl
  | succ k ih =>
    rw [runBody_succ, runBody_succ]
    cases hf : f s w with
    | goOn m w' =>
      obtain ⟨hf', hP⟩ := hgo k s w m w' h hf
      rw [hf']
      exact ih w' (s.setMem m) hP
    | complete x => rw [hcomplete k s w x h hf]; rfl
    | raise e => rw [hraise k s w e h hf]; rfl

/-! ### The actions of a block step -/

theorem Micro.internal_eq (s : State) (w : ω) : Micro.internal s w = .goOn s.mem w := rfl

/-- A reading step goes on with the byte, or raises AccessFault (spec/20_memory.md R51). -/
theorem Micro.reading_eq (s : State) (a : Nat) (k : Byte → ω) :
    Micro.reading s a k =
      if a < s.config.memBytes then .goOn s.mem (k (Memory.get s.mem a)) else .raise .accessFault := by
  unfold Micro.reading memRead
  by_cases h : a < s.config.memBytes
  · rw [if_pos h, if_pos h]
  · rw [if_neg h, if_neg h]

/-- A writing step goes on with the byte written, or raises AccessFault (R52). -/
theorem Micro.writing_eq (s : State) (a : Nat) (v : Byte) (w : ω) :
    Micro.writing s a v w =
      if a < s.config.memBytes then .goOn (Memory.set s.mem a v) w else .raise .accessFault := by
  unfold Micro.writing memWrite
  by_cases h : a < s.config.memBytes
  · rw [if_pos h, if_pos h]
  · rw [if_neg h, if_neg h]

/-- A sink's write is a write, or raises AccessFault (R52). -/
theorem sinkWrite_eq {σ : Type} (s : State) (a : Nat) (v : Byte) (x : σ) :
    sinkWrite s a v x =
      if a < s.config.memBytes then .ok (Memory.set s.mem a v, x) else .error .accessFault := by
  unfold sinkWrite memWrite
  by_cases h : a < s.config.memBytes
  · rw [if_pos h, if_pos h]
  · rw [if_neg h, if_neg h]

/-- A command always answers a next state: no command faults the machine or is refused. -/
theorem exec_next (i : Instr) (s : State) : ∃ t, exec i s = .next t := by
  cases i <;> exact ⟨_, rfl⟩

@[simp] theorem State.granted_none (s : State) (h : s.quota = none) : s.granted = Config.blockStepBound := by
  simp [State.granted, h]

theorem State.granted_some (s : State) (n : Nat) (h : s.quota = some n) : s.granted = n := by
  simp [State.granted, h]

end Sys2Proof.Machine
end

