-- ==== Sys2Proof/Laws/Ranges.lean ====
section
/-!
SUPPORT. One block step keeps the working variables of its command in range, whatever memory holds (spec/41_packer.md
R120, spec/42_rle_encoder.md R140, R148, spec/43_rle_decoder.md R160 to R163). And the ranges of a running command
(spec/20_memory.md R62): the bytes it has read or written only grow, and the turns to come do not change them.
-/

namespace Sys2Proof.Machine

variable {ω : Type}

/-- A reading step that goes on has read a byte of memory. -/
theorem reading_goOn {s : State} {a : Nat} {k : Byte → ω} {m : Memory} {w : ω}
    (h : Micro.reading s a k = .goOn m w) :
    a < s.config.memBytes ∧ m = s.mem ∧ w = k (Memory.get s.mem a) := by
  rw [Micro.reading_eq] at h
  split at h
  · cases h; exact ⟨‹_›, rfl, rfl⟩
  · cases h

/-- A writing step that goes on has written a byte of memory. -/
theorem writing_goOn {s : State} {a : Nat} {v : Byte} {w w' : ω} {m : Memory}
    (h : Micro.writing s a v w = .goOn m w') :
    a < s.config.memBytes ∧ m = Memory.set s.mem a v ∧ w' = w := by
  rw [Micro.writing_eq] at h
  split at h
  · cases h; exact ⟨‹_›, rfl, rfl⟩
  · cases h

/-- An internal step goes on with memory as it was. -/
theorem internal_goOn {s : State} {w w' : ω} {m : Memory} (h : Micro.internal s w = .goOn m w') :
    m = s.mem ∧ w' = w := by
  cases h; exact ⟨rfl, rfl⟩

/-- A sink's step that goes on has done the sink's action. -/
theorem sinking_goOn {σ : Type} {r : Except Err (Memory × σ)} {k : σ → ω} {m : Memory} {w : ω}
    (h : Micro.sinking r k = .goOn m w) : ∃ x, r = .ok (m, x) ∧ w = k x := by
  unfold Micro.sinking at h
  split at h
  · cases h; exact ⟨_, rfl, rfl⟩
  · cases h

/-- Two states with the same latches give working variables the same ranges. -/
theorem EncVars.emitOk_setMem (s : State) (m : Memory) (v : EncVars) (k : Nat) (last : Bool) :
    v.emitOk (s.setMem m) k last ↔ v.emitOk s k last := Iff.rfl

theorem packNext_ok (s : State) (c j : Nat) (acc : Byte) (hc : c < ceil8 s.arg2Nat) : (packNext c j acc).ok s := by
  unfold packNext
  split
  · exact ⟨hc, by omega⟩
  · exact hc

/-- A block step of PACK keeps its variables in range (R120). -/
theorem packStep_ok {s : State} {w w' : PackWork} {m : Memory} (hw : w.ok s) (h : packStep s w = .goOn m w') :
    w'.ok (s.setMem m) := by
  cases w with
  | entry =>
    simp only [packStep] at h
    split at h
    · cases h
    · rename_i hn
      obtain ⟨-, rfl⟩ := internal_goOn h
      show 0 < ceil8 s.arg2Nat ∧ 0 < 8
      unfold ceil8; omega
  | read c j acc =>
    simp only [packStep] at h
    split at h
    · obtain ⟨-, -, rfl⟩ := reading_goOn h
      exact ⟨hw.1, hw.2, by assumption⟩
    · obtain ⟨-, rfl⟩ := internal_goOn h
      exact packNext_ok s c j acc hw.1
  | check c j acc ch =>
    simp only [packStep] at h
    split at h
    · obtain ⟨-, rfl⟩ := internal_goOn h
      exact packNext_ok s c j _ hw.1
    · split at h
      · obtain ⟨-, rfl⟩ := internal_goOn h
        exact packNext_ok s c j _ hw.1
      · cases h
  | write c acc =>
    obtain ⟨-, -, rfl⟩ := writing_goOn h
    have hc : c < ceil8 s.arg2Nat := hw
    split
    · rename_i hlt; exact ⟨hlt, by omega⟩
    · show s.arg2Nat ≠ 0
      intro h0; rw [h0] at hc; simp [ceil8] at hc
  | done => cases h

/-- A block step of RLEENC keeps its variables in range (R140, R148). -/
theorem rleencStep_ok {s : State} {w w' : EncWork} {m : Memory} (hw : w.ok s) (h : rleencStep s w = .goOn m w') :
    w'.ok (s.setMem m) := by
  cases w with
  | entry =>
    simp only [rleencStep] at h
    split at h
    · cases h
    · split at h
      · cases h
      · obtain ⟨-, rfl⟩ := internal_goOn h
        show encChecksPass s
        unfold encChecksPass; omega
  | header0 => obtain ⟨-, -, rfl⟩ := writing_goOn h; exact hw
  | header1 =>
    obtain ⟨-, -, rfl⟩ := writing_goOn h
    exact ⟨hw, .inl ⟨rfl, rfl, rfl, rfl⟩, Nat.zero_le _⟩
  | pixel v =>
    obtain ⟨hc, hv, hi⟩ := hw
    simp only [rleencStep] at h
    split at h
    · split at h
      · obtain ⟨-, -, rfl⟩ := reading_goOn h
        exact ⟨hc, hv, by assumption⟩
      · obtain ⟨-, rfl⟩ := internal_goOn h
        exact ⟨hc, hv, by assumption⟩
    · obtain ⟨-, rfl⟩ := internal_goOn h
      refine ⟨hc, fun _ => ?_, by simp, ?_, ?_, ?_⟩
      · show v.i = s.encPixels
        omega
      all_goals rcases hv with hv | hv <;> omega
  | bit v =>
    obtain ⟨hc, hv, hi⟩ := hw
    simp only [rleencStep] at h
    split at h
    · obtain ⟨-, rfl⟩ := internal_goOn h
      refine ⟨hc, .inr ⟨?_, ?_, ?_, ?_, ?_⟩, ?_⟩
      all_goals simp only [EncVars.counted]
      case refine_6 => show v.i + 1 ≤ s.encPixels; omega
      all_goals rcases hv with hv | hv <;> omega
    · obtain ⟨-, rfl⟩ := internal_goOn h
      refine ⟨hc, by simp, fun _ => hi, ?_, ?_, ?_⟩
      all_goals rcases hv with hv | hv <;> omega
  | emit v k last =>
    obtain ⟨hc, hl, hn, hk, ho, hb⟩ := hw
    have hmax : Config.maxRun = 255 := rfl
    simp only [rleencStep] at h
    split at h
    · obtain ⟨-, -, rfl⟩ := writing_goOn h
      refine ⟨hc, by omega, hl, hn, hk, ?_, ?_⟩
      all_goals simp only [EncVars.wrote]; omega
    · obtain ⟨-, -, rfl⟩ := writing_goOn h
      cases last with
      | true =>
        have := hl rfl
        refine ⟨hc, ?_, ?_⟩
        · simp only [EncVars.wrote]; omega
        · show v.o + 1 ≤ s.encPixels + 3
          omega
      | false =>
        have := hn rfl
        refine ⟨hc, .inr ⟨?_, ?_, ?_, ?_, ?_⟩, ?_⟩
        all_goals simp only [EncVars.wrote, EncVars.flipped, EncVars.counted]
        case refine_6 => show v.i + 1 ≤ s.encPixels; omega
        all_goals omega
  | emitZero v k last =>
    obtain ⟨hc, h255, hl, hn, hk, ho, hb⟩ := hw
    have hmax : Config.maxRun = 255 := rfl
    obtain ⟨-, -, rfl⟩ := writing_goOn h
    refine ⟨hc, hl, hn, ?_, ?_, ?_⟩
    all_goals simp only [EncVars.wrote]; omega
  | done v => cases h

/-- What a sink must keep for its variable to stay in range. -/
structure SinkKeeps {σ : Type} (k : Sink σ) (own : ReplayVars → Bool → σ → Prop) : Prop where
  init : ∀ rows cols, own (replayStart rows cols) false k.init
  took : ∀ v x, own v false x → own v.tookRun false x
  flip : ∀ v x, own v false x → own v.flipped false x
  first : ∀ s v x m y, own v false x → k.first s v x = .ok (m, y) → own v true y
  second : ∀ s v x m y, v.cols ≠ 0#8 → own v true x → k.second s v x = .ok (m, y) → own v.putOne false y
  tail : ∀ s v x m y, own v false x → k.tail s v x = .ok (m, y) → own v false y

theorem packedSink_keeps : SinkKeeps packedSink accOk :=
  ⟨fun _ _ => trivial, fun _ _ _ => trivial, fun _ _ _ => trivial, fun _ _ _ _ _ _ _ => trivial,
    fun _ _ _ _ _ _ _ _ => trivial, fun _ _ _ _ _ _ _ => trivial⟩

theorem textSink_keeps : SinkKeeps textSink offsetOk where
  init := fun _ cols => by simp [offsetOk, replayStart, textSink]
  took := fun _ _ h => h
  flip := fun _ _ h => h
  first := fun s v x m y hx h => by
    simp only [textSink, sinkWrite_eq] at h
    split at h
    · cases h
      simp only [offsetOk, if_true, if_false, Bool.false_eq_true] at hx ⊢
      omega
    · cases h
  second := fun s v x m y hc hx h => by
    have hpos : 0 < v.cols.toNat :=
      Nat.pos_of_ne_zero fun h0 => hc (BitVec.eq_of_toNat_eq (by simpa using h0))
    have hdiv := Nat.succ_div (a := v.total) (b := v.cols.toNat)
    have hdvd : v.cols.toNat ∣ v.total + 1 ↔ (v.total + 1) % v.cols.toNat = 0 := Nat.dvd_iff_mod_eq_zero
    simp only [offsetOk, if_true, if_false, Bool.false_eq_true] at hx ⊢
    simp only [textSink, sinkWrite_eq] at h
    show y = v.total + 1 + (v.total + 1) / v.cols.toNat + 0
    split at h
    · rename_i hz
      rw [if_pos (hdvd.mpr hz)] at hdiv
      split at h
      · cases h; omega
      · cases h
    · rename_i hz
      rw [if_neg (fun hd => hz (hdvd.mp hd))] at hdiv
      cases h; omega
  tail := fun s v x m y hx h => by
    simp only [textSink] at h
    cases h; exact hx

/-- A block step of a decoding command keeps its variables in range (R160 to R163). -/
theorem decodeStep_ok {σ : Type} {k : Sink σ} {own : ReplayVars → Bool → σ → Prop} (hk : SinkKeeps k own) {s : State}
    {w w' : DecWork σ} {m : Memory} (hw : w.ok own s) (h : decodeStep k s w = .goOn m w') : w'.ok own (s.setMem m) := by
  cases w with
  | entry =>
    simp only [decodeStep] at h
    split at h
    · cases h
    · obtain ⟨-, rfl⟩ := internal_goOn h
      show 2 ≤ s.arg3Nat
      omega
  | header0 => obtain ⟨-, -, rfl⟩ := reading_goOn h; exact hw
  | header1 rows => obtain ⟨-, -, rfl⟩ := reading_goOn h; exact hw
  | header rows cols =>
    simp only [decodeStep] at h
    split at h
    · cases h
    · rename_i hz
      obtain ⟨-, rfl⟩ := internal_goOn h
      exact ⟨⟨fun h0 => hz (.inl h0), fun h0 => hz (.inr h0), Nat.le_refl 2, hw⟩, Nat.zero_le _, hk.init rows cols⟩
  | next v x =>
    obtain ⟨⟨hr, hc, hp2, hp⟩, ht, hx⟩ := hw
    simp only [decodeStep] at h
    split at h
    · split at h
      · cases h
      · rename_i hlt hnp
        obtain ⟨-, -, rfl⟩ := reading_goOn h
        refine ⟨⟨hr, hc, ?_, ?_⟩, hlt, ?_, hk.took v x hx⟩
        · show 2 ≤ v.p + 1
          omega
        · show v.p + 1 ≤ s.arg3Nat
          omega
        · exact Nat.le_of_lt_succ (BitVec.isLt _)
    · obtain ⟨-, rfl⟩ := internal_goOn h
      exact ⟨⟨hr, hc, hp2, hp⟩, by omega, hx⟩
  | overrun v x run =>
    obtain ⟨hv, ht, hr, hx⟩ := hw
    simp only [decodeStep] at h
    split at h
    · cases h
    · obtain ⟨-, rfl⟩ := internal_goOn h
      exact ⟨hv, by omega, hr, hx⟩
  | put v x left =>
    obtain ⟨hv, ht, hl, hx⟩ := hw
    cases left with
    | zero =>
      obtain ⟨-, rfl⟩ := internal_goOn h
      exact ⟨hv, ht, hk.flip v x hx⟩
    | succ n =>
      obtain ⟨y, hy, rfl⟩ := sinking_goOn h
      exact ⟨hv, by omega, ht, hl, hk.first s v x m y hx hy⟩
  | putEnd v x left =>
    obtain ⟨hv, h1, ht, hl, hx⟩ := hw
    obtain ⟨y, hy, rfl⟩ := sinking_goOn h
    refine ⟨hv, ?_, by omega, hk.second s v x m y hv.2.1 hx hy⟩
    show v.total + 1 + (left - 1) ≤ v.pixels
    omega
  | tail v x =>
    obtain ⟨hv, ht, hx⟩ := hw
    obtain ⟨y, hy, rfl⟩ := sinking_goOn h
    exact ⟨hv, ht, hk.tail s v x m y hx hy⟩
  | done v x => cases h

/-! ### The ranges of a running command -/

/-- A block step of RLEENC never takes a written byte back (R140). -/
theorem rleencStep_written {s : State} {w w' : EncWork} {m : Memory} (h : rleencStep s w = .goOn m w') :
    w.written ≤ w'.written := by
  cases w with
  | entry => exact Nat.zero_le _
  | header0 => exact Nat.zero_le _
  | header1 => obtain ⟨-, -, rfl⟩ := writing_goOn h; exact Nat.le_succ 1
  | pixel v =>
    simp only [rleencStep] at h
    split at h
    · split at h
      · obtain ⟨-, -, rfl⟩ := reading_goOn h; exact Nat.le_refl _
      · obtain ⟨-, rfl⟩ := internal_goOn h; exact Nat.le_refl _
    · obtain ⟨-, rfl⟩ := internal_goOn h; exact Nat.le_refl _
  | bit v =>
    simp only [rleencStep] at h
    split at h
    · obtain ⟨-, rfl⟩ := internal_goOn h; exact Nat.le_refl _
    · obtain ⟨-, rfl⟩ := internal_goOn h; exact Nat.le_refl _
  | emit v k last =>
    simp only [rleencStep] at h
    split at h
    · obtain ⟨-, -, rfl⟩ := writing_goOn h; exact Nat.le_succ _
    · obtain ⟨-, -, rfl⟩ := writing_goOn h
      cases last <;> exact Nat.le_succ v.o
  | emitZero v k last => obtain ⟨-, -, rfl⟩ := writing_goOn h; exact Nat.le_succ _
  | done v => cases h

/-- A block step of a decoding command never takes a read byte back (R160, R163). -/
theorem decodeStep_bytesRead {σ : Type} {k : Sink σ} {s : State} {w w' : DecWork σ} {m : Memory}
    (h : decodeStep k s w = .goOn m w') : w.bytesRead ≤ w'.bytesRead := by
  cases w with
  | entry => exact Nat.zero_le _
  | header0 => exact Nat.zero_le _
  | header1 rows => obtain ⟨-, -, rfl⟩ := reading_goOn h; exact Nat.le_succ 1
  | header rows cols =>
    simp only [decodeStep] at h
    split at h
    · cases h
    · obtain ⟨-, rfl⟩ := internal_goOn h; exact Nat.le_refl _
  | next v x =>
    simp only [decodeStep] at h
    split at h
    · split at h
      · cases h
      · obtain ⟨-, -, rfl⟩ := reading_goOn h; exact Nat.le_succ _
    · obtain ⟨-, rfl⟩ := internal_goOn h; exact Nat.le_refl _
  | overrun v x run =>
    simp only [decodeStep] at h
    split at h
    · cases h
    · obtain ⟨-, rfl⟩ := internal_goOn h; exact Nat.le_refl _
  | put v x left =>
    cases left with
    | zero => obtain ⟨-, rfl⟩ := internal_goOn h; exact Nat.le_refl _
    | succ n => obtain ⟨y, -, rfl⟩ := sinking_goOn h; exact Nat.le_refl _
  | putEnd v x left => obtain ⟨y, -, rfl⟩ := sinking_goOn h; exact Nat.le_refl _
  | tail v x => obtain ⟨y, -, rfl⟩ := sinking_goOn h; exact Nat.le_refl _
  | done v x => cases h

/-- The turns still to come do not change what the running command reads, nor what it writes. -/
theorem readsOf_inputs (i : Instr) (s : State) (turns : List Input) :
    readsOf i { s with inputs := turns } = readsOf i s := by
  cases i with
  | rledec =>
    exact congrArg (Span.mk s.srcBase)
      (runMark_unseen (fun u => { u with inputs := turns }) (fun u w => by cases w <;> rfl) (fun _ _ => rfl) _ _ s)
  | rlerend =>
    exact congrArg (Span.mk s.srcBase)
      (runMark_unseen (fun u => { u with inputs := turns }) (fun u w => by cases w <;> rfl) (fun _ _ => rfl) _ _ s)
  | _ => rfl

theorem writesOf_inputs (i : Instr) (s : State) (turns : List Input) :
    writesOf i { s with inputs := turns } = writesOf i s := by
  cases i with
  | rleenc =>
    exact congrArg (Span.mk s.dstBase)
      (runMark_unseen (fun u => { u with inputs := turns }) (fun u w => by cases w <;> rfl) (fun _ _ => rfl) _ _ s)
  | _ => rfl

/-- Taking a turn changes no range of the running command. -/
theorem storeHitsReads_inputs (s : State) (turns : List Input) (a : Nat) :
    storeHitsReads { s with inputs := turns } a = storeHitsReads s a := by
  unfold storeHitsReads
  simp only [readsOf_inputs]
  rfl

theorem storeHitsWrites_inputs (s : State) (turns : List Input) (a : Nat) :
    storeHitsWrites { s with inputs := turns } a = storeHitsWrites s a := by
  unfold storeHitsWrites
  simp only [writesOf_inputs]
  rfl

/-- An idle block has no ranges (spec/70_reset_and_hazards.md R235, R236). -/
theorem storeHits_idle (s : State) (a : Nat) (h : s.busy = false) :
    storeHitsReads s a = false ∧ storeHitsWrites s a = false := by
  simp [storeHitsReads, storeHitsWrites, h]

end Sys2Proof.Machine
end

