-- ==== Sys2Proof/Laws/Progress.lean ====
section
/-!
SUPPORT. Why a command body ends (spec/70_reset_and_hazards.md R244): a number for each command that every block step
lowers, as long as the working variables are in range.
-/

namespace Sys2Proof.Machine

variable {ω : Type} {f : State → ω → Micro ω} {inj : ω → Work}

/-- A body whose block steps lower `μ` reaches its completion or its error within `μ` steps. -/
theorem runBody_ends {P : State → ω → Prop} {μ : State → ω → Nat}
    (hstep : ∀ s w m w', P s w → f s w = .goOn m w' → P (s.setMem m) w' ∧ μ (s.setMem m) w' < μ s w)
    (k : Nat) (w : ω) (s : State) (hw : P s w) (hk : μ s w < k) :
    ∃ j w' s', j < k ∧ walk f j w s = some (w', s') ∧
      ((∃ v, f s' w' = .complete v) ∨ (∃ e, f s' w' = .raise e)) := by
  induction k generalizing w s with
  | zero => omega
  | succ k ih =>
    cases hf : f s w with
    | goOn m w' =>
      obtain ⟨hw', hlt⟩ := hstep s w m w' hw hf
      obtain ⟨j, x, u, hj, hwalk, hend⟩ := ih w' (s.setMem m) hw' (by omega)
      exact ⟨j + 1, x, u, by omega, by rw [walk_succ j w s m w' hf]; exact hwalk, hend⟩
    | complete v => exact ⟨0, w, s, by omega, rfl, .inl ⟨v, hf⟩⟩
    | raise e => exact ⟨0, w, s, by omega, rfl, .inr ⟨e, hf⟩⟩

/-- How many block steps GETBIT still makes at most. -/
def getbitLeft (_ : State) (w : GetbitWork) : Nat :=
  match w with
  | .read => 2
  | .got _ => 1

/-- How many block steps PUTBIT still makes at most. -/
def putbitLeft (_ : State) (w : PutbitWork) : Nat :=
  match w with
  | .read => 3
  | .write _ => 2
  | .done => 1

/-- How many block steps PACK still makes at most. -/
def packLeft (s : State) (w : PackWork) : Nat :=
  match w with
  | .entry => 17 * ceil8 s.arg2Nat + 2
  | .read c j _ => 17 * (ceil8 s.arg2Nat - c - 1) + 2 * (8 - j) + 2
  | .check c j _ _ => 17 * (ceil8 s.arg2Nat - c - 1) + 2 * (8 - j) + 1
  | .write c _ => 17 * (ceil8 s.arg2Nat - c - 1) + 2
  | .done => 1

/-- How many block steps RLEENC still makes at most. -/
def rleencLeft (s : State) (w : EncWork) : Nat :=
  match w with
  | .entry => if encChecksPass s then 10 * s.encPixels + 9 else 1
  | .header0 => 10 * s.encPixels + 8
  | .header1 => 10 * s.encPixels + 7
  | .pixel v => 10 * (s.encPixels - v.i) + 3 * v.count + 6
  | .bit v => 10 * (s.encPixels - v.i) + 3 * v.count + 5
  | .emit v k _ => 10 * (s.encPixels - v.i) + 3 * k + 4
  | .emitZero v k _ => 10 * (s.encPixels - v.i) + 3 * k + 3
  | .done _ => 1

/-- How many block steps a decoding command still makes at most. -/
def decodeLeft {σ : Type} (s : State) (w : DecWork σ) : Nat :=
  match w with
  | .entry => 3 * s.arg3Nat + 130058
  | .header0 => 3 * s.arg3Nat + 130057
  | .header1 _ => 3 * s.arg3Nat + 130056
  | .header _ _ => 3 * s.arg3Nat + 130055
  | .next v _ => 3 * (s.arg3Nat - v.p) + 2 * (v.pixels - v.total) + 4
  | .overrun v _ _ => 3 * (s.arg3Nat - v.p) + 2 * (v.pixels - v.total) + 6
  | .put v _ _ => 3 * (s.arg3Nat - v.p) + 2 * (v.pixels - v.total) + 5
  | .putEnd v _ _ => 3 * (s.arg3Nat - v.p) + 2 * (v.pixels - v.total) + 4
  | .tail _ _ => 2
  | .done _ _ => 1

theorem getbitStep_left {s : State} {w w' : GetbitWork} {m : Memory} (h : getbitStep s w = .goOn m w') :
    getbitLeft (s.setMem m) w' < getbitLeft s w := by
  cases w with
  | read => obtain ⟨-, -, rfl⟩ := reading_goOn h; exact Nat.lt_succ_self 1
  | got b => cases h

theorem putbitStep_left {s : State} {w w' : PutbitWork} {m : Memory} (h : putbitStep s w = .goOn m w') :
    putbitLeft (s.setMem m) w' < putbitLeft s w := by
  cases w with
  | read => obtain ⟨-, -, rfl⟩ := reading_goOn h; exact Nat.lt_succ_self 2
  | write b => obtain ⟨-, -, rfl⟩ := writing_goOn h; exact Nat.lt_succ_self 1
  | done => cases h

theorem packNext_left (s : State) (c j : Nat) (acc : Byte) (hj : j < 8) :
    packLeft s (packNext c j acc) < 17 * (ceil8 s.arg2Nat - c - 1) + 2 * (8 - j) + 1 := by
  unfold packNext
  split
  · show 17 * (ceil8 s.arg2Nat - c - 1) + 2 * (8 - (j + 1)) + 2 < _
    omega
  · show 17 * (ceil8 s.arg2Nat - c - 1) + 2 < _
    omega

theorem packStep_left {s : State} {w w' : PackWork} {m : Memory} (hw : w.ok s) (h : packStep s w = .goOn m w') :
    packLeft (s.setMem m) w' < packLeft s w := by
  cases w with
  | entry =>
    simp only [packStep] at h
    split at h
    · cases h
    · obtain ⟨-, rfl⟩ := internal_goOn h
      show 17 * (ceil8 s.arg2Nat - 0 - 1) + 2 * (8 - 0) + 2 < 17 * ceil8 s.arg2Nat + 2
      have : 0 < ceil8 s.arg2Nat := by unfold ceil8; omega
      omega
  | read c j acc =>
    simp only [packStep] at h
    split at h
    · obtain ⟨-, -, rfl⟩ := reading_goOn h
      exact Nat.lt_succ_self _
    · obtain ⟨-, rfl⟩ := internal_goOn h
      exact lt_trans (packNext_left s c j acc hw.2) (Nat.lt_succ_self _)
  | check c j acc ch =>
    simp only [packStep] at h
    split at h
    · obtain ⟨-, rfl⟩ := internal_goOn h
      exact packNext_left s c j _ hw.2.1
    · split at h
      · obtain ⟨-, rfl⟩ := internal_goOn h
        exact packNext_left s c j _ hw.2.1
      · cases h
  | write c acc =>
    obtain ⟨-, -, rfl⟩ := writing_goOn h
    split
    · show 17 * (ceil8 s.arg2Nat - (c + 1) - 1) + 2 * (8 - 0) + 2 < 17 * (ceil8 s.arg2Nat - c - 1) + 2
      omega
    · show 1 < 17 * (ceil8 s.arg2Nat - c - 1) + 2
      omega
  | done => cases h

theorem rleencStep_left {s : State} {w w' : EncWork} {m : Memory} (hw : w.ok s) (h : rleencStep s w = .goOn m w') :
    rleencLeft (s.setMem m) w' < rleencLeft s w := by
  cases w with
  | entry =>
    simp only [rleencStep] at h
    split at h
    · cases h
    · split at h
      · cases h
      · obtain ⟨-, rfl⟩ := internal_goOn h
        have hc : encChecksPass s := by unfold encChecksPass; omega
        show 10 * s.encPixels + 8 < rleencLeft s .entry
        simp only [rleencLeft, if_pos hc]; omega
  | header0 => obtain ⟨-, -, rfl⟩ := writing_goOn h; exact Nat.lt_succ_self _
  | header1 => obtain ⟨-, -, rfl⟩ := writing_goOn h; exact Nat.lt_succ_self _
  | pixel v =>
    simp only [rleencStep] at h
    split at h
    · split at h
      · obtain ⟨-, -, rfl⟩ := reading_goOn h
        exact Nat.lt_succ_self _
      · obtain ⟨-, rfl⟩ := internal_goOn h
        exact Nat.lt_succ_self _
    · obtain ⟨-, rfl⟩ := internal_goOn h
      show 10 * (s.encPixels - v.i) + 3 * v.count + 4 < 10 * (s.encPixels - v.i) + 3 * v.count + 6
      omega
  | bit v =>
    have hi : v.i < s.encPixels := hw.2.2
    simp only [rleencStep] at h
    split at h
    · obtain ⟨-, rfl⟩ := internal_goOn h
      show 10 * (s.encPixels - (v.i + 1)) + 3 * (v.count + 1) + 6 < 10 * (s.encPixels - v.i) + 3 * v.count + 5
      omega
    · obtain ⟨-, rfl⟩ := internal_goOn h
      exact Nat.lt_succ_self _
  | emit v k last =>
    obtain ⟨-, hl, hn, -, -, -⟩ := hw
    simp only [rleencStep] at h
    split at h
    · obtain ⟨-, -, rfl⟩ := writing_goOn h
      exact Nat.lt_succ_self _
    · obtain ⟨-, -, rfl⟩ := writing_goOn h
      cases last with
      | true =>
        show 1 < 10 * (s.encPixels - v.i) + 3 * k + 4
        omega
      | false =>
        have := hn rfl
        show 10 * (s.encPixels - (v.i + 1)) + 3 * (0 + 1) + 6 < 10 * (s.encPixels - v.i) + 3 * k + 4
        omega
  | emitZero v k last =>
    obtain ⟨-, h255, -⟩ := hw
    have hmax : Config.maxRun = 255 := rfl
    obtain ⟨-, -, rfl⟩ := writing_goOn h
    show 10 * (s.encPixels - v.i) + 3 * (k - Config.maxRun) + 4 < 10 * (s.encPixels - v.i) + 3 * k + 3
    omega
  | done v => cases h

/-- The header of a stream gives at most 65025 pixels (spec/00_scope.md R8). -/
theorem ReplayVars.pixels_le (v : ReplayVars) : v.pixels ≤ 65025 := by
  have hr : v.rows.toNat ≤ 255 := Nat.le_of_lt_succ (BitVec.isLt _)
  have hc : v.cols.toNat ≤ 255 := Nat.le_of_lt_succ (BitVec.isLt _)
  exact le_trans (Nat.mul_le_mul hr hc) (by decide)

theorem decodeStep_left {σ : Type} {k : Sink σ} {own : ReplayVars → Bool → σ → Prop} {s : State} {w w' : DecWork σ}
    {m : Memory} (hw : w.ok own s) (h : decodeStep k s w = .goOn m w') :
    decodeLeft (s.setMem m) w' < decodeLeft s w := by
  cases w with
  | entry =>
    simp only [decodeStep] at h
    split at h
    · cases h
    · obtain ⟨-, rfl⟩ := internal_goOn h
      show 3 * s.arg3Nat + 130057 < 3 * s.arg3Nat + 130058
      omega
  | header0 =>
    obtain ⟨-, -, rfl⟩ := reading_goOn h
    show 3 * s.arg3Nat + 130056 < 3 * s.arg3Nat + 130057
    omega
  | header1 rows =>
    obtain ⟨-, -, rfl⟩ := reading_goOn h
    show 3 * s.arg3Nat + 130055 < 3 * s.arg3Nat + 130056
    omega
  | header rows cols =>
    simp only [decodeStep] at h
    split at h
    · cases h
    · obtain ⟨-, rfl⟩ := internal_goOn h
      have := ReplayVars.pixels_le (replayStart rows cols)
      show 3 * (s.arg3Nat - 2) + 2 * ((replayStart rows cols).pixels - 0) + 4 < 3 * s.arg3Nat + 130055
      omega
  | next v x =>
    simp only [decodeStep] at h
    split at h
    · split at h
      · cases h
      · obtain ⟨-, -, rfl⟩ := reading_goOn h
        show 3 * (s.arg3Nat - (v.p + 1)) + 2 * (v.pixels - v.total) + 6 <
          3 * (s.arg3Nat - v.p) + 2 * (v.pixels - v.total) + 4
        omega
    · obtain ⟨-, rfl⟩ := internal_goOn h
      show 2 < 3 * (s.arg3Nat - v.p) + 2 * (v.pixels - v.total) + 4
      omega
  | overrun v x run =>
    simp only [decodeStep] at h
    split at h
    · cases h
    · obtain ⟨-, rfl⟩ := internal_goOn h
      exact Nat.lt_succ_self _
  | put v x left =>
    cases left with
    | zero => obtain ⟨-, rfl⟩ := internal_goOn h; exact Nat.lt_succ_self _
    | succ n => obtain ⟨y, -, rfl⟩ := sinking_goOn h; exact Nat.lt_succ_self _
  | putEnd v x left =>
    obtain ⟨-, h1, ht, -⟩ := hw
    obtain ⟨y, -, rfl⟩ := sinking_goOn h
    show 3 * (s.arg3Nat - v.p) + 2 * (v.pixels - (v.total + 1)) + 5 <
      3 * (s.arg3Nat - v.p) + 2 * (v.pixels - v.total) + 4
    omega
  | tail v x => obtain ⟨y, -, rfl⟩ := sinking_goOn h; exact Nat.lt_succ_self _
  | done v x => cases h

end Sys2Proof.Machine
end

