-- ==== Sys2Proof/Tests/Slice0.lean ====
section
/-!
SUPPORT. Tests of the model: the well-formedness checks refuse ill-formed terms, the decoder reads words written out from
the spec's encoding, and one step of each command gives what spec/95_test_vectors.md says.
-/

namespace Sys2Proof.Tests

open Sys2Proof.Machine

/-! ### Ill-formed terms are refused (spec/00_scope.md R7, spec/10_state.md R20, R21) -/

theorem test_memBytes_zero_refused : ¬Config.wellFormed { memBytes := 0, regBase := 0 } := by decide
theorem test_memBytes_over_2_32_refused : ¬Config.wellFormed { memBytes := 0x100000001, regBase := 0 } := by decide
theorem test_memBytes_bounds_allowed :
    Config.wellFormed { memBytes := 1, regBase := 0 } ∧ Config.wellFormed { memBytes := 0x100000000, regBase := 5 } := by
  decide
theorem test_narrow_access_refused : ¬HostAccess.wellFormed { memBytes := 1, regBase := 0x1000 } 0x1004 16 := by decide
theorem test_misaligned_access_refused : ¬HostAccess.wellFormed { memBytes := 1, regBase := 0x1000 } 0x1002 32 := by
  decide
theorem test_access_below_window_refused : ¬HostAccess.wellFormed { memBytes := 1, regBase := 0x1000 } 0xFFC 32 := by
  decide
theorem test_access_above_window_refused : ¬HostAccess.wellFormed { memBytes := 1, regBase := 0x1000 } 0x1020 32 := by
  decide
theorem test_last_register_allowed : HostAccess.wellFormed { memBytes := 1, regBase := 0x1000 } 0x101C 32 := by decide
theorem test_every_command_well_formed :
    Instr.getbit.wellFormed ∧ Instr.putbit.wellFormed ∧ Instr.pack.wellFormed ∧ Instr.rleenc.wellFormed ∧
      Instr.rledec.wellFormed ∧ Instr.rlerend.wellFormed := by
  decide

/-! ### Words written out bit by bit from spec/30_encoding.md R70, R72: RSVD in bits 31:4, OP in bits 3:0 -/

theorem test_decode_getbit : decode 0b00000000000000000000000000000001#32 = .ok .getbit := by rfl
theorem test_decode_putbit : decode 0b00000000000000000000000000000010#32 = .ok .putbit := by rfl
theorem test_decode_pack : decode 0b00000000000000000000000000000011#32 = .ok .pack := by rfl
theorem test_decode_rleenc : decode 0b00000000000000000000000000000100#32 = .ok .rleenc := by rfl
theorem test_decode_rledec : decode 0b00000000000000000000000000000101#32 = .ok .rledec := by rfl
theorem test_decode_rlerend : decode 0b00000000000000000000000000000110#32 = .ok .rlerend := by rfl

/-- Vectors CM1 to CM5 (spec/95_test_vectors.md section 2.7). -/
theorem test_decode_illegal :
    decode 0x00000000#32 = .error .reservedOpcode ∧ decode 0x00000007#32 = .error .reservedOpcode ∧
      decode 0x0000000F#32 = .error .reservedOpcode ∧ decode 0x00000013#32 = .error .reservedBits ∧
      decode 0x80000001#32 = .error .reservedBits :=
  ⟨rfl, rfl, rfl, rfl, rfl⟩

/-! ### One step of each command, from the vectors of spec/95_test_vectors.md -/

/-- The machine after reset with memory `m` and operands in ARG0 to ARG3. -/
def host (m : Memory) (a0 a1 a2 a3 : Word) : State :=
  { State.reset with mem := m, arg0 := a0, arg1 := a1, arg2 := a2, arg3 := a3 }

/-- STATUS, RESULT and the bytes of memory at `watch` after the step that runs the command word `w`. -/
def shown (s : State) (w : Nat) (watch : List Nat) : Option (Word × Word × List Byte) :=
  match step (s.withFetchWord 32 w) with
  | .next t => some (t.status, t.result, watch.map (Memory.get t.mem))
  | .fault _ => none
  | .refused _ => none

/-- GB6: bit 0 of byte 1. -/
theorem test_getbit_second_byte :
    shown (host [(0x100, 0xC0#8), (0x101, 0x01#8)] 0x100#32 0#32 15#32 0#32) 1 [0x100, 0x101] =
      some (0x02#32, 1#32, [0xC0#8, 0x01#8]) := by
  decide

/-- GB9: byte 0x10000 is at MEM_BYTES. -/
theorem test_getbit_edge : shown (host [] 0xFFFF#32 0#32 8#32 0#32) 1 [] = some (0x62#32, 0#32, []) := by decide

/-- PB1: bit 6 of byte 1. -/
theorem test_putbit_sets : shown (host [] 0#32 0x200#32 9#32 1#32) 2 [0x200, 0x201] =
    some (0x02#32, 0#32, [0x00#8, 0x40#8]) := by
  decide

/-- PB2 with L3 = 2: only bit 0 of L3 counts (PB4), and the bit is cleared. -/
theorem test_putbit_clears : shown (host [(0x200, 0xFF#8)] 0#32 0x200#32 7#32 2#32) 2 [0x200] =
    some (0x02#32, 0#32, [0xFE#8]) := by
  decide

/-- The pixels of PK10: eight '1' and a '0'. -/
def ninePixels : Memory := (List.range 8).map (fun i => (0x100 + i, 0x31#8)) ++ [(0x108, 0x30#8)]

/-- PK10: byte 0 is written over pixel 8 before pixel 8 is read. -/
theorem test_pack_overlap : shown (host ninePixels 0x100#32 0x108#32 9#32 0#32) 3 [0x107, 0x108, 0x109] =
    some (0x22#32, 0#32, [0x31#8, 0xFF#8, 0x00#8]) := by
  decide +kernel

/-- PK9: the write of byte 1 is at 0x10000. -/
theorem test_pack_edge : shown (host ninePixels 0x100#32 0xFFFF#32 9#32 0#32) 3 [0xFFFF] =
    some (0x62#32, 0#32, [0xFF#8]) := by
  decide +kernel

/-- EN10: white start, every pixel another colour, N + 3 bytes. -/
theorem test_rleenc_longest : shown (host [(0x100, 0x55#8)] 0x100#32 0x200#32 1#32 8#32) 4
    [0x200, 0x201, 0x202, 0x203, 0x20A] = some (0x02#32, 11#32, [0x01#8, 0x08#8, 0x00#8, 0x01#8, 0x01#8]) := by
  decide +kernel

/-- EN15: a zero dimension wins over the limit. -/
theorem test_rleenc_zero_first : shown (host [] 0x100#32 0x200#32 0#32 300#32) 4 [0x200] =
    some (0x12#32, 0#32, [0x00#8]) := by
  decide

/-- DE12: byte 0 is complete before the stream ends; the partial byte is dropped. -/
theorem test_rledec_truncated :
    shown (host [(0x100, 0x01#8), (0x101, 0x10#8), (0x102, 0x09#8), (0x201, 0x07#8)] 0x100#32 0x200#32 0#32 3#32) 5
      [0x200, 0x201] = some (0x42#32, 0#32, [0xFF#8, 0x07#8]) := by
  decide +kernel

/-- DE10: the bytes after the last needed run byte are not read. -/
theorem test_rledec_trailing :
    shown (host [(0x100, 0x01#8), (0x101, 0x04#8), (0x102, 0x02#8), (0x103, 0x02#8), (0x104, 0x07#8), (0x105, 0x07#8)]
      0x100#32 0x200#32 0#32 6#32) 5 [0x200] = some (0x02#32, 1#32, [0xC0#8]) := by
  decide +kernel

/-- RE2: a run of 2 spans the line break. -/
theorem test_rlerend_line_break :
    shown (host [(0x100, 0x02#8), (0x101, 0x02#8), (0x102, 0x01#8), (0x103, 0x02#8), (0x104, 0x01#8)] 0x100#32 0x200#32
      0#32 5#32) 6 [0x200, 0x201, 0x202, 0x203, 0x204, 0x205] =
      some (0x02#32, 6#32, [0x23#8, 0x20#8, 0x0A#8, 0x20#8, 0x23#8, 0x0A#8]) := by
  decide +kernel

/-- RE7: the overrun is checked before any glyph of the run. -/
theorem test_rlerend_overrun :
    shown (host [(0x100, 0x02#8), (0x101, 0x02#8), (0x102, 0x05#8)] 0x100#32 0x200#32 0#32 3#32) 6 [0x200] =
      some (0x42#32, 0#32, [0x00#8]) := by
  decide +kernel

/-- CM4: an illegal word ends with ERR 5 and CMD reads back the word. -/
theorem test_illegal_command : shown (host [] 0#32 0#32 0#32 0#32) 0x13 [] = some (0x52#32, 0#32, []) := by decide

/-! ### One step of the host (spec/95_test_vectors.md section 2.8) -/

/-- STATUS and RESULT after the host's turn `t` from a state with the given STATUS and RESULT. -/
def afterTurn (status result : Word) (t : Input) : Option (Word × Word) :=
  match step { State.reset with status := status, result := result, inputs := [t] } with
  | .next u => some (u.status, u.result)
  | .fault _ => none
  | .refused _ => none

/-- RG2: DONE is cleared and ERR kept. -/
theorem test_clear_done : afterTurn 0x22#32 0#32 (hostWR Config.standard .status 0x2#32) = some (0x20#32, 0#32) := by
  decide

/-- RG6: acceptance sets BUSY, clears DONE and ERR and keeps RESULT. -/
theorem test_accept_status : afterTurn 0x22#32 5#32 (hostWR Config.standard .cmd 0x1#32) = some (0x01#32, 5#32) := by
  decide

/-- R240: while RLEENC of one black row of 255 runs, a host store to the byte after the last it writes has its effect. -/
theorem test_store_beside_running_encoder :
    (match step { State.reset with
        mem := (List.range 32).map (fun i => (0x100 + i, 0xFF#8)), l0 := 0x100#32, l1 := 0x200#32, l2 := 1#32,
        l3 := 255#32, cmd := 4#32, lop := 4#32, status := 1#32, inputs := [.memWrite 0x203 7#8] } with
      | .next t => some (Memory.get t.mem 0x203)
      | .fault _ => none
      | .refused _ => none) = some 7#8 := by
  decide +kernel

/-- RG8: a write to RESULT is ignored. -/
theorem test_result_read_only : afterTurn 0x02#32 7#32 (hostWR Config.standard .result 0#32) = some (0x02#32, 7#32) := by
  decide

end Sys2Proof.Tests
end

