-- ==== Sys2Proof/Tests/Witnesses.lean ====
section
/-!
SUPPORT. For every statement that has hypotheses, a concrete state and operands that meet all of them together, with one
case for each clause, at the edge of its range where it has one.
-/

namespace Sys2Proof.Tests

open Sys2Proof.Machine

/-- Reset parameters and memory `m`, with the latches given: a command's state before its first block step. -/
def latched (m : Memory) (l0 l1 l2 l3 : Word) : State := { State.reset with mem := m, l0 := l0, l1 := l1, l2 := l2, l3 := l3 }

/-- The same in RUN with the command word `w` accepted. -/
def running (w : Word) (m : Memory) (l0 l1 l2 l3 : Word) : State :=
  { latched m l0 l1 l2 l3 with cmd := w, lop := w, status := 0x1#32 }

/-- A state with turns to come. -/
def queued (s : State) (turns : List Input) : State := { s with inputs := turns }

/-- A running state that has made no block step meets the invariant. -/
theorem running_inv (w : Word) (m : Memory) (l0 l1 l2 l3 : Word) (turns : List Input) (hm : Memory.wf m)
    (hb : Memory.below m 0x10000) : (queued (running w m l0 l1 l2 l3) turns).Inv where
  config := show Config.standard.wellFormed by decide
  memWf := hm
  memBelow := hb
  ctrlReserved := by simp [queued, running, latched, State.reset, State.resetWith]
  statusReserved := by simp [queued, running, latched, State.reset, State.resetWith, statusMask]
  notBusyDone := by simp [queued, running, latched, State.done]
  errRange := by simp [queued, running, latched, State.err]
  errBusy := by simp [queued, running, latched, State.err]
  errResult := by simp [queued, running, latched, State.reset, State.resetWith]
  cmdLop := rfl
  workRuns := fun w h => by cases h
  workRange := fun w h => by cases h
  quotaNone := rfl

/-- PACK of "1" at 0x100 to 0x200, stopped between the pixel's read and its check. -/
def midPack : State :=
  { running 3#32 [(0x100, 0x31#8)] 0x100#32 0x200#32 1#32 0#32 with work := some (.pack (.check 0 0 0x00#8 0x31#8)) }

theorem midPack_workOk : midPack.workOk := by
  intro w hw
  cases hw
  exact ⟨by decide, by decide, by decide⟩

theorem midPack_inv : midPack.Inv :=
  { running_inv 3#32 [(0x100, 0x31#8)] 0x100#32 0x200#32 1#32 0#32 [] (by decide) (by decide) with
    workRuns := fun w h => by cases h; exact ⟨by decide, rfl⟩
    workRange := midPack_workOk }

/-! ### Encoding -/

theorem witness_DecodeInvertsEncode : Instr.rlerend.wellFormed = true ∧ decode 0x00000006#32 = .ok .rlerend :=
  ⟨rfl, rfl⟩

theorem witness_LatchedWordDecides (w : Word) :
    (running w [] 0#32 0#32 0#32 0#32).inputs = [] ∧ (running w [] 0#32 0#32 0#32 0#32).busy = true ∧
      (running w [] 0#32 0#32 0#32 0#32).quota ≠ some 0 :=
  ⟨rfl, show (0x1#32).getLsbD 0 = true by decide, nofun⟩

theorem witness_LatchedWordDecides_fields :
    (0x13#32).extractLsb' 4 28 ≠ 0#28 ∧ (0x80000001#32).extractLsb' 4 28 ≠ 0#28 ∧
      (0x0#32).extractLsb' 4 28 = 0#28 ∧ (0x0#32).extractLsb' 0 4 = 0x0#4 ∧ (0x1#32).extractLsb' 0 4 = 0x1#4 ∧
      (0x2#32).extractLsb' 0 4 = 0x2#4 ∧ (0x3#32).extractLsb' 0 4 = 0x3#4 ∧ (0x4#32).extractLsb' 0 4 = 0x4#4 ∧
      (0x5#32).extractLsb' 0 4 = 0x5#4 ∧ (0x6#32).extractLsb' 4 28 = 0#28 ∧ (0x6#32).extractLsb' 0 4 = 0x6#4 ∧
      7#4 ≤ (0x7#32).extractLsb' 0 4 ∧ (0xF#32).extractLsb' 4 28 = 0#28 ∧ 7#4 ≤ (0xF#32).extractLsb' 0 4 := by
  decide

theorem witness_StepRunsDecodedCommand :
    (running 1#32 [] 0#32 0#32 0#32 0#32).busy = true ∧ decode (running 1#32 [] 0#32 0#32 0#32 0#32).lop = .ok .getbit ∧
      (running 1#32 [] 0#32 0#32 0#32 0#32).inputs = [] ∧
      (queued (running 1#32 [] 0#32 0#32 0#32 0#32) [.block 1, .reset]).inputs = .block 1 :: [.reset] ∧
      (queued (running 1#32 [] 0#32 0#32 0#32 0#32) [.wait]).inputs = .wait :: [] :=
  ⟨by decide, rfl, rfl, rfl, rfl⟩

theorem witness_StepRunsDecodedCommand_illegal :
    (running 0x13#32 [] 0#32 0#32 0#32 0#32).busy = true ∧
      decode (running 0x13#32 [] 0#32 0#32 0#32 0#32).lop = .error .reservedBits ∧
      (running 0x13#32 [] 0#32 0#32 0#32 0#32).inputs = [] ∧ (running 0x13#32 [] 0#32 0#32 0#32 0#32).quota ≠ some 0 ∧
      (queued (running 0x13#32 [] 0#32 0#32 0#32 0#32) [.block 1]).inputs = .block (0 + 1) :: [] ∧
      (queued (running 0x13#32 [] 0#32 0#32 0#32 0#32) [.block 0]).inputs = .block 0 :: [] ∧
      (queued (running 0x13#32 [] 0#32 0#32 0#32 0#32) [.wait]).inputs = .wait :: [] :=
  ⟨by decide, rfl, rfl, nofun, rfl, rfl, rfl⟩

/-! ### The register window -/

theorem witness_CmdWriteAcceptedInIdle :
    (queued State.reset [hostWR Config.standard .cmd 1#32]).inputs =
        hostWR (queued State.reset [hostWR Config.standard .cmd 1#32]).config .cmd 1#32 :: [] ∧
      (queued State.reset [hostWR Config.standard .cmd 1#32]).busy = false ∧ decode 1#32 = .ok .getbit :=
  ⟨rfl, by decide, rfl⟩

theorem witness_CmdWriteIgnoredInRun :
    (queued (running 1#32 [] 0#32 0#32 0#32 0#32) [hostWR Config.standard .cmd 3#32]).inputs =
        hostWR (queued (running 1#32 [] 0#32 0#32 0#32 0#32) [hostWR Config.standard .cmd 3#32]).config .cmd 3#32 :: [] ∧
      (queued (running 1#32 [] 0#32 0#32 0#32 0#32) [hostWR Config.standard .cmd 3#32]).busy = true :=
  ⟨rfl, by decide⟩

theorem witness_CtrlWriteKeepsIeOnly :
    (queued midPack [hostWR Config.standard .ctrl 0xFFFFFFFF#32]).inputs =
      hostWR (queued midPack [hostWR Config.standard .ctrl 0xFFFFFFFF#32]).config .ctrl 0xFFFFFFFF#32 :: [] := rfl

/-- STATUS = 0x22: DONE 1, ERR 2 (vectors RG2, RG3). -/
def doneState (turns : List Input) : State := { State.reset with status := 0x22#32, inputs := turns }

theorem witness_StatusWriteClearsDone :
    (doneState [hostWR Config.standard .status 2#32]).inputs =
        hostWR (doneState [hostWR Config.standard .status 2#32]).config .status 2#32 :: [] ∧
      (2#32).getLsbD 1 = true ∧ (doneState [hostWR Config.standard .status 2#32]).done = true :=
  ⟨rfl, by decide, by decide⟩

theorem witness_StatusWriteClearsDone_bitClear :
    (doneState [hostWR Config.standard .status 0xFFFFFFFD#32]).inputs =
        hostWR (doneState [hostWR Config.standard .status 0xFFFFFFFD#32]).config .status 0xFFFFFFFD#32 :: [] ∧
      (0xFFFFFFFD#32).getLsbD 1 = false :=
  ⟨rfl, by decide⟩

theorem witness_StatusWriteClearsDone_notDone :
    (queued State.reset [hostWR Config.standard .status 2#32]).inputs =
        hostWR (queued State.reset [hostWR Config.standard .status 2#32]).config .status 2#32 :: [] ∧
      (queued State.reset [hostWR Config.standard .status 2#32]).done = false :=
  ⟨rfl, by decide⟩

theorem witness_ArgRegistersAreLatched :
    (∀ r ∈ [Reg.arg0, Reg.arg1, Reg.arg2, Reg.arg3], (queued midPack [hostWR Config.standard r 7#32]).inputs =
      hostWR (queued midPack [hostWR Config.standard r 7#32]).config r 7#32 :: []) ∧
      ∃ t, exec .pack midPack = .next t :=
  ⟨by decide, _, rfl⟩

theorem witness_ResultWriteIgnored :
    (queued State.reset [hostWR Config.standard .result 7#32]).inputs =
      hostWR (queued State.reset [hostWR Config.standard .result 7#32]).config .result 7#32 :: [] := rfl

theorem witness_RegisterReadsChangeNothing :
    ∀ off ∈ [0x00, 0x04, 0x08, 0x0C, 0x10, 0x14, 0x18, 0x1C],
      (queued midPack [.regRead (Config.standard.regBase + off) 32]).inputs =
        .regRead ((queued midPack [.regRead (Config.standard.regBase + off) 32]).config.regBase + off) 32 :: [] := by
  decide

theorem witness_OnlyAlignedWordAccessesMove :
    (queued State.reset [.regWrite 0x1C 32 7#32]).inputs = .regWrite 0x1C 32 7#32 :: [] ∧
      HostAccess.wellFormed State.reset.config 0x1C 32 ∧
      (queued State.reset [.regRead 0x1C 32]).inputs = .regRead 0x1C 32 :: [] ∧
      ¬HostAccess.wellFormed State.reset.config 0x1C 16 ∧ ¬HostAccess.wellFormed State.reset.config 0x1D 32 ∧
      ¬HostAccess.wellFormed State.reset.config 0x20 32 := by
  decide

theorem witness_OnlyCompletionWritesResult : ∃ t, step midPack = .next t := ⟨_, rfl⟩

/-! ### Memory -/

theorem witness_MemRules :
    State.reset.config.memBytes ≤ 0x10000 ∧ 0xFFFF < State.reset.config.memBytes ∧ Memory.wf State.reset.mem := by
  decide

theorem witness_AddressesDoNotWrap :
    (latched [] 0xF0000000#32 0xF0000000#32 0x80000000#32 0#32).config.wellFormed ∧
      (latched [] 0xF0000000#32 0xF0000000#32 0x80000000#32 0#32).Fresh ∧
      2 ^ 32 ≤ (0xF0000000#32).toNat + (0x80000000#32).toNat / 8 := by
  decide

theorem witness_GetBitPrimitive :
    (0xFFFF#32).toNat + 7 / 8 < State.reset.config.memBytes ∧
      State.reset.config.memBytes ≤ (0xFFFF#32).toNat + 8 / 8 := by
  decide

theorem witness_IdleBlockTouchesNothing :
    State.reset.busy = false ∧ State.reset.inputs = [] ∧ (queued State.reset [.block 0]).busy = false ∧
      (queued State.reset [.block 0]).inputs = .block 0 :: [] := by
  decide

/-- A running command with a host store to `a` as its next turn. -/
def storing (s : State) (a : Nat) : State := queued s [.memWrite a 0#8]

/-- The stream 01 04 02 02 at 0x100 (spec/95_test_vectors.md S2). -/
def stream : Memory := [(0x100, 0x01#8), (0x101, 0x04#8), (0x102, 0x02#8), (0x103, 0x02#8)]

theorem witness_HostMemoryAccesses_idle :
    (queued State.reset [.memRead 0xFFFF]).inputs = .memRead 0xFFFF :: [] ∧ 0xFFFF < State.reset.config.memBytes ∧
      (queued State.reset [.memRead 0x10000]).inputs = .memRead 0x10000 :: [] ∧
      State.reset.config.memBytes ≤ 0x10000 ∧ (storing State.reset 0xFFFF).inputs = .memWrite 0xFFFF 0#8 :: [] ∧
      (storing State.reset 0xFFFF).busy = false ∧ storeHitsReads (storing State.reset 0xFFFF) 0xFFFF = false ∧
      storeHitsWrites (storing State.reset 0xFFFF) 0xFFFF = false ∧
      (storing State.reset 0x10000).inputs = .memWrite 0x10000 0#8 :: [] ∧
      storeHitsReads (storing State.reset 0x10000) 0x10000 = false ∧
      storeHitsWrites (storing State.reset 0x10000) 0x10000 = false := by
  decide

/-- In RUN, at the bytes beside each range: GETBIT of 0x101, PUTBIT of 0x201, and PACK of 9 pixels, which reads 0x100 to
0x108 and writes 0x200 and 0x201. -/
theorem witness_HostMemoryAccesses_run :
    decode 1#32 = .ok .getbit ∧ decode 2#32 = .ok .putbit ∧ decode 3#32 = .ok .pack ∧
      (storing (running 1#32 [] 0x100#32 0#32 15#32 0#32) 0x102).inputs = .memWrite 0x102 0#8 :: [] ∧
      0x102 ≠ (0x100#32).toNat + (15#32).toNat / 8 ∧
      (storing (running 2#32 [] 0#32 0x200#32 15#32 0#32) 0x200).inputs = .memWrite 0x200 0#8 :: [] ∧
      0x200 ≠ (0x200#32).toNat + (15#32).toNat / 8 ∧
      ∀ a ∈ ([0xFF, 0x109, 0x1FF, 0x202] : List Nat),
        (storing (running 3#32 [] 0x100#32 0x200#32 9#32 0#32) a).inputs = .memWrite a 0#8 :: [] ∧
          (a < (0x100#32).toNat ∨ (0x100#32).toNat + (9#32).toNat ≤ a) ∧
          (a < (0x200#32).toNat ∨ (0x200#32).toNat + ceil8 (9#32).toNat ≤ a) :=
  ⟨rfl, rfl, rfl, rfl, by decide, rfl, by decide, by decide⟩

theorem witness_HostStoreIntoRunningRangeRefused_bits :
    (storing (running 1#32 [] 0x100#32 0#32 15#32 0#32) 0x101).inputs = .memWrite 0x101 0#8 :: [] ∧
      (storing (running 1#32 [] 0x100#32 0#32 15#32 0#32) 0x101).busy = true ∧ decode 1#32 = .ok .getbit ∧
      0x101 = (0x100#32).toNat + (15#32).toNat / 8 ∧
      (storing (running 2#32 [] 0#32 0x200#32 15#32 0#32) 0x201).inputs = .memWrite 0x201 0#8 :: [] ∧
      (storing (running 2#32 [] 0#32 0x200#32 15#32 0#32) 0x201).busy = true ∧ decode 2#32 = .ok .putbit ∧
      0x201 = (0x200#32).toNat + (15#32).toNat / 8 :=
  ⟨rfl, by decide, rfl, by decide, rfl, by decide, rfl, by decide⟩

theorem witness_HostStoreIntoRunningRangeRefused_pack :
    (storing (running 3#32 [] 0x100#32 0x200#32 9#32 0#32) 0x108).inputs = .memWrite 0x108 0#8 :: [] ∧
      (storing (running 3#32 [] 0x100#32 0x200#32 9#32 0#32) 0x108).busy = true ∧ decode 3#32 = .ok .pack ∧
      (0x100#32).toNat ≤ 0x108 ∧ 0x108 < (0x100#32).toNat + (9#32).toNat ∧
      (storing (running 3#32 [] 0x100#32 0x200#32 9#32 0#32) 0x201).inputs = .memWrite 0x201 0#8 :: [] ∧
      (storing (running 3#32 [] 0x100#32 0x200#32 9#32 0#32) 0x201).busy = true ∧
      (0x200#32).toNat ≤ 0x201 ∧ 0x201 < (0x200#32).toNat + ceil8 (9#32).toNat :=
  ⟨rfl, by decide, rfl, by decide, by decide, rfl, by decide, by decide, by decide⟩

/-- RLEENC of 255 white pixels at 0x100 to 0x200: it reads 0x100 to 0x11F and writes 01 FF 00 FF, 4 bytes of the 258 its
largest range has. -/
def encodingWhite : State := running 4#32 [] 0x100#32 0x200#32 1#32 255#32

theorem witness_HostMemoryAccesses_rleenc :
    decode 4#32 = .ok .rleenc ∧ (storing encodingWhite 0x204).inputs = .memWrite 0x204 0#8 :: [] ∧
      (0x100#32).toNat + ceil8 ((1#32).toNat * (255#32).toNat) ≤ 0x204 ∧
      (0x200#32).toNat + rleencWrites (storing encodingWhite 0x204) ≤ 0x204 :=
  ⟨rfl, rfl, by decide, by decide +kernel⟩

theorem witness_HostStoreIntoRunningRangeRefused_rleenc_reads :
    (storing encodingWhite 0x11F).inputs = .memWrite 0x11F 0#8 :: [] ∧ (storing encodingWhite 0x11F).busy = true ∧
      decode (storing encodingWhite 0x11F).lop = .ok .rleenc ∧ 1 ≤ (1#32).toNat ∧ (1#32).toNat ≤ 255 ∧
      1 ≤ (255#32).toNat ∧ (255#32).toNat ≤ 255 ∧ (0x100#32).toNat ≤ 0x11F ∧
      0x11F < (0x100#32).toNat + ceil8 ((1#32).toNat * (255#32).toNat) :=
  ⟨rfl, by decide, rfl, by decide, by decide, by decide, by decide, by decide, by decide⟩

theorem witness_HostStoreIntoRunningRangeRefused_rleenc_writes :
    (storing encodingWhite 0x203).inputs = .memWrite 0x203 0#8 :: [] ∧ (storing encodingWhite 0x203).busy = true ∧
      decode (storing encodingWhite 0x203).lop = .ok .rleenc ∧ (storing encodingWhite 0x203).workOk ∧
      (storing encodingWhite 0x203).quota = none ∧ (0x200#32).toNat ≤ 0x203 ∧
      0x203 < (0x200#32).toNat + rleencWrites (storing encodingWhite 0x203) ∧
      ∃ t, exec .rleenc (storing encodingWhite 0x203) = .next t ∧ t.err = 0#4 ∧
        0x203 < (0x200#32).toNat + t.result.toNat :=
  ⟨rfl, by decide, rfl, (fun w h => by cases h), rfl, by decide, by decide +kernel, _, rfl, by decide +kernel,
    by decide +kernel⟩

/-- RLEDEC (5) or RLEREND (6) of the stream with `src_len` 5, of which the last byte is never read. -/
def decoding (w : Word) : State := running w stream 0x100#32 0x200#32 0#32 5#32

theorem witness_HostStoreIntoRunningRangeRefused_streams :
    (storing (decoding 5#32) 0x103).inputs = .memWrite 0x103 0#8 :: [] ∧ (storing (decoding 5#32) 0x103).busy = true ∧
      decode (storing (decoding 5#32) 0x103).lop = .ok .rledec ∧ (0x100#32).toNat ≤ 0x103 ∧
      0x103 < (0x100#32).toNat + rledecReads (storing (decoding 5#32) 0x103) ∧
      (storing (decoding 6#32) 0x103).inputs = .memWrite 0x103 0#8 :: [] ∧
      (storing (decoding 6#32) 0x103).busy = true ∧ decode (storing (decoding 6#32) 0x103).lop = .ok .rlerend ∧
      0x103 < (0x100#32).toNat + rlerendReads (storing (decoding 6#32) 0x103) :=
  ⟨rfl, by decide, rfl, by decide, by decide +kernel, rfl, by decide, rfl, by decide +kernel⟩

theorem witness_HostStoreIntoRunningRangeRefused_headers :
    (storing (decoding 5#32) 0x101).inputs = .memWrite 0x101 0#8 :: [] ∧ (storing (decoding 5#32) 0x101).busy = true ∧
      (storing (decoding 5#32) 0x101).work = none ∧ 2 ≤ (5#32).toNat ∧
      (0x100#32).toNat + 1 < State.reset.config.memBytes ∧ 0x101 = (0x100#32).toNat + 1 :=
  ⟨rfl, by decide, rfl, by decide, by decide, by decide⟩

/-- The byte after the last one the stream needs is outside the ranges, although `src_len` reaches it. -/
theorem witness_HostMemoryAccesses_decoders :
    (storing (decoding 5#32) 0x104).inputs = .memWrite 0x104 0#8 :: [] ∧
      (0x100#32).toNat + rledecReads (storing (decoding 5#32) 0x104) ≤ 0x104 ∧ 0x104 < (0x200#32).toNat ∧
      (storing (decoding 6#32) 0x104).inputs = .memWrite 0x104 0#8 :: [] ∧
      (0x100#32).toNat + rlerendReads (storing (decoding 6#32) 0x104) ≤ 0x104 :=
  ⟨rfl, by decide +kernel, by decide, rfl, by decide +kernel⟩

theorem witness_HostStoreIntoRunningRangeRefused_rledec :
    ∃ s : State, s = storing (decoding 5#32) 0x200 ∧ s.inputs = .memWrite 0x200 0#8 :: [] ∧ s.busy = true ∧
      decode s.lop = .ok .rledec ∧ s.work = none ∧ 2 ≤ s.l3.toNat ∧ (rledecDims s).1 ≠ 0#8 ∧ (rledecDims s).2 ≠ 0#8 ∧
      s.l1.toNat ≤ 0x200 ∧ 0x200 < s.l1.toNat + ceil8 ((rledecDims s).1.toNat * (rledecDims s).2.toNat) :=
  ⟨_, rfl, rfl, by decide, rfl, rfl, by decide, by decide, by decide, by decide, by decide⟩

theorem witness_HostStoreIntoRunningRangeRefused_rlerend :
    ∃ s : State, s = storing (decoding 6#32) 0x204 ∧ s.inputs = .memWrite 0x204 0#8 :: [] ∧ s.busy = true ∧
      decode s.lop = .ok .rlerend ∧ s.work = none ∧ 2 ≤ s.l3.toNat ∧ (rlerendDims s).1 ≠ 0#8 ∧
      (rlerendDims s).2 ≠ 0#8 ∧ s.l1.toNat ≤ 0x204 ∧
      0x204 < s.l1.toNat + ((rlerendDims s).1.toNat * (rlerendDims s).2.toNat + (rlerendDims s).1.toNat) :=
  ⟨_, rfl, rfl, by decide, rfl, rfl, by decide, by decide, by decide, by decide, by decide⟩

theorem witness_RunningRangesAreThoseReached :
    encodingWhite.workOk ∧ encodingWhite.quota = none ∧
      (∃ t, exec .rleenc encodingWhite = .next t ∧ t.err = 0#4) ∧
      (decoding 5#32).DecodeReady (ceil8 ((decoding 5#32).streamRows * (decoding 5#32).streamCols)) ∧
      (decoding 6#32).DecodeReady
        ((decoding 6#32).streamRows * (decoding 6#32).streamCols + (decoding 6#32).streamRows) :=
  ⟨(fun w h => by cases h), rfl, ⟨_, rfl, by decide +kernel⟩, by decide, by decide⟩

theorem witness_HostStoreOutsideRangesHarmless :
    midPack.Inv ∧ midPack.inputs = [] ∧ midPack.busy = true ∧ 0x101 < midPack.config.memBytes ∧
      storeHitsReads midPack 0x101 = false ∧ storeHitsWrites midPack 0x101 = false :=
  ⟨midPack_inv, rfl, by decide, by decide, by decide, by decide⟩

/-! ### The commands -/

theorem witness_GetbitReadsTheBit :
    (latched [(0xFFFF, 0x01#8)] 0xFFFF#32 0#32 7#32 0#32).Fresh ∧
      (0xFFFF#32).toNat + (7#32).toNat / 8 < State.reset.config.memBytes ∧
      State.reset.config.memBytes ≤ (0xFFFF#32).toNat + (8#32).toNat / 8 := by
  decide

theorem witness_PutbitWritesTheBit :
    (latched [] 0#32 0xFFFF#32 7#32 1#32).Fresh ∧
      (0xFFFF#32).toNat + (7#32).toNat / 8 < State.reset.config.memBytes ∧
      State.reset.config.memBytes ≤ (0xFFFF#32).toNat + (8#32).toNat / 8 := by
  decide

theorem witness_PutbitThenGetbitAgree :
    (latched [] 0#32 0x200#32 9#32 1#32).Fresh ∧ Memory.wf (latched [] 0#32 0x200#32 9#32 1#32).mem ∧
      (0x200#32).toNat + (9#32).toNat / 8 < State.reset.config.memBytes ∧ 8 ≠ (9#32).toNat ∧
      ∃ t, exec .putbit (latched [] 0#32 0x200#32 9#32 1#32) = .next t ∧
        (latched [(0x201, 0x40#8)] 0x200#32 0#32 9#32 0#32).Fresh ∧
        Memory.get (latched [(0x201, 0x40#8)] 0x200#32 0#32 9#32 0#32).mem 0x201 = Memory.get t.mem 0x201 :=
  ⟨by decide, by decide, by decide, by decide, _, rfl, by decide, by decide⟩

theorem witness_PackRejectsNoPixels :
    (latched [] 0x100#32 0x200#32 0#32 0#32).Fresh ∧ (latched [] 0x100#32 0x200#32 0#32 0#32).l2 = 0#32 := by
  decide

/-- "110" at 0x100 and the byte 2 after it. -/
def pixels : Memory := [(0x100, 0x31#8), (0x101, 0x31#8), (0x102, 0x30#8), (0x103, 0x02#8)]

theorem witness_PackWritesPackedBytes : (latched pixels 0x100#32 0x103#32 3#32 0#32).PackReady := by decide

theorem witness_PackStopsAtFirstBadPixel :
    (latched pixels 0x100#32 0x200#32 4#32 0#32).Fresh ∧ Memory.wf pixels ∧ 3 < (4#32).toNat ∧
      (∀ k < 3, Memory.get pixels ((0x100#32).toNat + k) = 0x31#8 ∨ Memory.get pixels ((0x100#32).toNat + k) = 0x30#8) ∧
      Memory.get pixels ((0x100#32).toNat + 3) ≠ 0x31#8 ∧ Memory.get pixels ((0x100#32).toNat + 3) ≠ 0x30#8 ∧
      (0x100#32).toNat + 3 < State.reset.config.memBytes ∧ (0x200#32).toNat + 3 / 8 ≤ State.reset.config.memBytes ∧
      Apart (0x100#32).toNat (3 + 1) (0x200#32).toNat (3 / 8) := by
  decide

theorem witness_PackRoundTrip :
    ∃ t, exec .pack (latched pixels 0x100#32 0x103#32 3#32 0#32) = .next t ∧ t.err = 0#4 ∧
      Apart (0x100#32).toNat (3#32).toNat (0x103#32).toNat (ceil8 (3#32).toNat) ∧ 2 < (3#32).toNat :=
  ⟨_, rfl, by decide, by decide, by decide⟩

theorem witness_RleencChecksDimensions :
    (latched [] 0x100#32 0x200#32 0#32 300#32).Fresh ∧ (latched [] 0x100#32 0x200#32 0#32 300#32).l2 = 0#32 ∧
      (latched [] 0x100#32 0x200#32 256#32 1#32).Fresh ∧ 255 < (256#32).toNat ∧
      (latched [] 0x100#32 0x200#32 1#32 256#32).Fresh := by
  decide

theorem witness_RleencWritesEncodedBuffer : (latched [(0x100, 0xC0#8)] 0x100#32 0x101#32 1#32 4#32).RleencReady := by
  decide

theorem witness_EncodedRunsReplayToPicture :
    ∃ t, exec .rleenc (latched [(0x100, 0xC0#8)] 0x100#32 0x101#32 1#32 4#32) = .next t ∧ t.err = 0#4 ∧
      Apart (0x100#32).toNat (ceil8 ((1#32).toNat * (4#32).toNat)) (0x101#32).toNat t.result.toNat :=
  ⟨_, rfl, by decide +kernel, by decide +kernel⟩

theorem witness_EncodedSizeBound :
    (∃ t, exec .rleenc (latched [(0x100, 0x55#8)] 0x100#32 0x101#32 1#32 8#32) = .next t ∧ t.err = 0#4) ∧
      (latched [(0x100, 0x55#8)] 0x100#32 0x101#32 1#32 8#32).RleencReady ∧
      ∀ i < (1#32).toNat * (8#32).toNat, pixelAt [(0x100, 0x55#8)] (0x100#32).toNat i = decide (i % 2 = 1) :=
  ⟨⟨_, rfl, by decide +kernel⟩, by decide, by decide⟩

theorem witness_DecodeFrontEndChecks :
    (latched [] 0x100#32 0x200#32 0#32 1#32).Fresh ∧ (1#32).toNat < 2 ∧
      (latched [] 0xFFFF#32 0x200#32 0#32 2#32).Fresh ∧ 2 ≤ (2#32).toNat ∧
      State.reset.config.memBytes ≤ (0xFFFF#32).toNat + 1 ∧
      (latched [(0xFFFE, 0x05#8)] 0xFFFE#32 0x200#32 0#32 2#32).Fresh ∧
      (0xFFFE#32).toNat + 1 < State.reset.config.memBytes ∧
      (latched [(0xFFFE, 0x05#8)] 0xFFFE#32 0x200#32 0#32 2#32).streamCols = 0 := by
  decide

theorem witness_RledecWritesPackedBuffer :
    (latched stream 0x100#32 0x104#32 0#32 4#32).DecodeReady
        (ceil8 ((latched stream 0x100#32 0x104#32 0#32 4#32).streamRows *
          (latched stream 0x100#32 0x104#32 0#32 4#32).streamCols)) ∧
      (latched stream 0x100#32 0x104#32 0#32 4#32).streamPixels = .ok [true, true, false, false] :=
  ⟨by decide, rfl⟩

theorem witness_RlerendWritesGlyphText :
    (latched stream 0x100#32 0x104#32 0#32 4#32).DecodeReady
        ((latched stream 0x100#32 0x104#32 0#32 4#32).streamRows *
          (latched stream 0x100#32 0x104#32 0#32 4#32).streamCols +
          (latched stream 0x100#32 0x104#32 0#32 4#32).streamRows) ∧
      (latched stream 0x100#32 0x104#32 0#32 4#32).streamPixels = .ok [true, true, false, false] :=
  ⟨by decide, rfl⟩

/-- Truncated: `src_len` is 3, so the last run byte may not be read. -/
theorem witness_MalformedStreamsAreReported_truncated :
    (latched stream 0x100#32 0x104#32 0#32 3#32).DecodeReady
        (ceil8 ((latched stream 0x100#32 0x104#32 0#32 3#32).streamRows *
          (latched stream 0x100#32 0x104#32 0#32 3#32).streamCols)) ∧
      (latched stream 0x100#32 0x104#32 0#32 3#32).streamPixels = .error .malformedStream :=
  ⟨by decide, rfl⟩

/-- Overrun: a run of 5 in a picture of 4. -/
theorem witness_MalformedStreamsAreReported_overrun :
    (latched [(0x100, 0x01#8), (0x101, 0x04#8), (0x102, 0x05#8)] 0x100#32 0x103#32 0#32 3#32).DecodeReady
        ((latched [(0x100, 0x01#8), (0x101, 0x04#8), (0x102, 0x05#8)] 0x100#32 0x103#32 0#32 3#32).streamRows *
          (latched [(0x100, 0x01#8), (0x101, 0x04#8), (0x102, 0x05#8)] 0x100#32 0x103#32 0#32 3#32).streamCols +
          (latched [(0x100, 0x01#8), (0x101, 0x04#8), (0x102, 0x05#8)] 0x100#32 0x103#32 0#32 3#32).streamRows) ∧
      (latched [(0x100, 0x01#8), (0x101, 0x04#8), (0x102, 0x05#8)] 0x100#32 0x103#32 0#32 3#32).streamPixels =
        .error .malformedStream :=
  ⟨by decide, rfl⟩

theorem witness_RleRoundTrip :
    ∃ t, exec .rleenc (latched [(0x100, 0xC0#8)] 0x100#32 0x101#32 1#32 4#32) = .next t ∧ t.err = 0#4 ∧
      (latched t.mem 0x101#32 0x105#32 0#32 4#32).Fresh ∧ t.result.toNat ≤ (4#32).toNat ∧
      Apart (0x100#32).toNat (ceil8 ((1#32).toNat * (4#32).toNat)) (0x101#32).toNat t.result.toNat ∧
      Apart (0x100#32).toNat (ceil8 ((1#32).toNat * (4#32).toNat)) (0x105#32).toNat
        (ceil8 ((1#32).toNat * (4#32).toNat)) ∧
      Apart (0x101#32).toNat t.result.toNat (0x105#32).toNat (ceil8 ((1#32).toNat * (4#32).toNat)) ∧
      (0x105#32).toNat + ceil8 ((1#32).toNat * (4#32).toNat) ≤ State.reset.config.memBytes :=
  ⟨_, rfl, by decide +kernel, by decide +kernel, by decide +kernel, by decide +kernel, by decide +kernel,
    by decide +kernel, by decide +kernel⟩

theorem witness_FollowsPseudocode : (latched pixels 0x100#32 0x101#32 4#32 3#32).Fresh := by decide

theorem witness_ResultsOfCommands :
    (∃ t, exec .pack (latched [] 0#32 0#32 0#32 0#32) = .next t ∧ t.err ≠ 0#4) ∧
      (∃ t, exec .getbit (latched [] 0#32 0#32 0#32 0#32) = .next t ∧ t.err = 0#4) ∧
      (∃ t, exec .putbit (latched [] 0#32 0#32 0#32 0#32) = .next t ∧ t.err = 0#4) ∧
      (∃ t, exec .pack (latched pixels 0x100#32 0x101#32 3#32 0#32) = .next t ∧ t.err = 0#4) ∧
      (∃ t, exec .rleenc (latched [] 0#32 0#32 1#32 1#32) = .next t ∧ t.err = 0#4) ∧
      (∃ t, exec .rledec (latched stream 0x100#32 0x102#32 0#32 4#32) = .next t ∧ t.err = 0#4) ∧
      (∃ t, exec .rlerend (latched stream 0x100#32 0x200#32 0#32 4#32) = .next t ∧ t.err = 0#4) :=
  ⟨⟨_, rfl, by decide +kernel⟩, ⟨_, rfl, by decide +kernel⟩, ⟨_, rfl, by decide +kernel⟩, ⟨_, rfl, by decide +kernel⟩,
    ⟨_, rfl, by decide +kernel⟩, ⟨_, rfl, by decide +kernel⟩, ⟨_, rfl, by decide +kernel⟩⟩

theorem witness_InterruptIsIeAndDone :
    (0x2#32).getLsbD 1 = true ∧ (0x1#32).getLsbD 0 = true ∧ (0xFFFFFFFE#32).getLsbD 0 = false := by
  decide

/-! ### Reset, progress and the whole machine -/

theorem witness_ResetClearsTheBlock : (queued midPack [.reset]).inputs = .reset :: [] := rfl

theorem witness_EveryCommandCompletes : midPack.workOk ∧ midPack.quota = none := ⟨midPack_workOk, rfl⟩

theorem witness_PausingChangesNothing_goesOn :
    midPack.workOk ∧ midPack.quota = none ∧
      ∃ t, exec .pack { midPack with quota := some 0 } = .next t ∧ t.work ≠ none :=
  ⟨midPack_workOk, rfl, _, rfl, by decide +kernel⟩

theorem witness_PausingChangesNothing_completes :
    midPack.workOk ∧ midPack.quota = none ∧
      ∃ t, exec .pack { midPack with quota := some 100 } = .next t ∧ t.work = none :=
  ⟨midPack_workOk, rfl, _, rfl, by decide +kernel⟩

theorem witness_WaitSeesTheBlockIdle_run :
    (queued (running 1#32 [] 0#32 0#32 0#32 0#32) [.wait]).Inv ∧
      (queued (running 1#32 [] 0#32 0#32 0#32 0#32) [.wait]).inputs = .wait :: [] ∧
      (queued (running 1#32 [] 0#32 0#32 0#32 0#32) [.wait]).busy = true :=
  ⟨running_inv 1#32 [] 0#32 0#32 0#32 0#32 [.wait] (by decide) (by decide), rfl, by decide⟩

/-- The reset state with a WAIT meets the invariant. -/
theorem reset_inv (turns : List Input) : (queued State.reset turns).Inv where
  config := show Config.standard.wellFormed by decide
  memWf := show Memory.wf [] by decide
  memBelow := show Memory.below [] Config.standard.memBytes by decide
  ctrlReserved := by simp [queued, State.reset, State.resetWith]
  statusReserved := by simp [queued, State.reset, State.resetWith]
  notBusyDone := by simp [queued, State.reset, State.resetWith, State.busy]
  errRange := by simp [queued, State.reset, State.resetWith, State.err]
  errBusy := by simp [queued, State.reset, State.resetWith, State.err]
  errResult := by simp [queued, State.reset, State.resetWith]
  cmdLop := rfl
  workRuns := fun w h => by cases h
  workRange := fun w h => by cases h
  quotaNone := rfl

theorem witness_WaitSeesTheBlockIdle_idle :
    (queued State.reset [.wait]).Inv ∧ (queued State.reset [.wait]).inputs = .wait :: [] ∧
      (queued State.reset [.wait]).busy = false :=
  ⟨reset_inv [.wait], rfl, by decide⟩

theorem witness_CommandsKeepRegisters : ∃ t, exec .pack { midPack with quota := some 1 } = .next t := ⟨_, rfl⟩

theorem witness_BitCommandsMemoryFrame :
    (∃ t, exec .getbit (latched [] 0#32 0#32 0#32 0#32) = .next t) ∧
      (∃ t, exec .putbit (latched [] 0#32 0x200#32 9#32 1#32) = .next t) ∧
      0x200 ≠ putbitAddr (latched [] 0#32 0x200#32 9#32 1#32) :=
  ⟨⟨_, rfl⟩, ⟨_, rfl⟩, by decide⟩

theorem witness_PackMemoryFrame :
    midPack.workOk ∧ (∃ t, exec .pack midPack = .next t) ∧
      ∀ c < ceil8 midPack.arg2Nat, 0x201 ≠ midPack.dstBase + c :=
  ⟨midPack_workOk, ⟨_, rfl⟩, by decide⟩

/-- RLEENC of a picture of 8 pixels, stopped before the last byte of its largest output. -/
def midEncode : State :=
  { running 4#32 [(0x100, 0x55#8)] 0x100#32 0x200#32 1#32 8#32 with
    work := some (.rleenc (.emit { i := 8, o := 10, black := true, count := 1, b := 0x55#8 } 1 true)) }

theorem witness_RleencMemoryFrame :
    midEncode.workOk ∧ (∃ t, exec .rleenc midEncode = .next t) ∧ encChecksPass midEncode ∧
      ∀ o < midEncode.encPixels + 3, 0x20B ≠ midEncode.dstBase + o :=
  ⟨fun w hw => by cases hw; exact ⟨by decide, by decide, by decide, by decide, by decide, by decide⟩, ⟨_, rfl⟩,
    by decide, by decide⟩

theorem witness_RleencMemoryFrame_written :
    encodingWhite.workOk ∧ (∃ t, exec .rleenc encodingWhite = .next t) ∧
      ∀ o < rleencWrites encodingWhite, 0x204 ≠ encodingWhite.dstBase + o :=
  ⟨(fun w h => by cases h), ⟨_, rfl⟩, by decide +kernel⟩

/-- RLEDEC of the stream, stopped in its last run. -/
def midDecode : State :=
  { running 5#32 stream 0x100#32 0x200#32 0#32 4#32 with
    work := some (.rledec (.put { rows := 1#8, cols := 4#8, total := 3, black := false, p := 4 } 0xC0#8 1)) }

/-- RLEREND of the stream, between the last glyph and its line feed. -/
def midRender : State :=
  { running 6#32 stream 0x100#32 0x200#32 0#32 4#32 with
    work := some (.rlerend (.putEnd { rows := 1#8, cols := 4#8, total := 3, black := false, p := 4 } 4 1)) }

theorem midDecode_workOk : midDecode.workOk := by
  intro w hw
  cases hw
  exact ⟨⟨by decide, by decide, by decide, by decide⟩, by decide, by decide, trivial⟩

theorem midRender_workOk : midRender.workOk := by
  intro w hw
  cases hw
  exact ⟨⟨by decide, by decide, by decide, by decide⟩, by decide, by decide, by decide, rfl⟩

theorem witness_DecoderMemoryFrame :
    midDecode.workOk ∧ (∃ t, exec .rledec midDecode = .next t) ∧
      (∀ c < ceil8 ((rledecDims midDecode).1.toNat * (rledecDims midDecode).2.toNat), 0x201 ≠ midDecode.dstBase + c) ∧
      midRender.workOk ∧ (∃ t, exec .rlerend midRender = .next t) ∧
      (∀ q < (rlerendDims midRender).1.toNat * (rlerendDims midRender).2.toNat + (rlerendDims midRender).1.toNat,
        0x205 ≠ midRender.dstBase + q) :=
  ⟨midDecode_workOk, ⟨_, rfl⟩, by decide, midRender_workOk, ⟨_, rfl⟩, by decide⟩

/-- After the header bytes are read, the ranges are those of the bytes read. -/
theorem witness_HostStoreIntoRunningRangeRefused_paused :
    (storing midDecode 0x200).inputs = .memWrite 0x200 0#8 :: [] ∧ (storing midDecode 0x200).busy = true ∧
      decode (storing midDecode 0x200).lop = .ok .rledec ∧ 2 ≤ (4#32).toNat ∧
      rledecDims (storing midDecode 0x200) = (1#8, 4#8) ∧ (0x200#32).toNat ≤ 0x200 ∧
      0x200 < (0x200#32).toNat + ceil8 ((1#8).toNat * (4#8).toNat) ∧
      (storing midRender 0x204).inputs = .memWrite 0x204 0#8 :: [] ∧ (storing midRender 0x204).busy = true ∧
      decode (storing midRender 0x204).lop = .ok .rlerend ∧ rlerendDims (storing midRender 0x204) = (1#8, 4#8) ∧
      0x204 < (0x200#32).toNat + ((1#8).toNat * (4#8).toNat + (1#8).toNat) :=
  ⟨rfl, by decide, rfl, by decide, rfl, by decide, by decide, rfl, by decide, rfl, rfl, by decide⟩

theorem witness_ResetMeetsInvariant :
    Config.wellFormed { memBytes := 2 ^ 32, regBase := 0x1000 } ∧ Memory.wf [(0xFFFFFFFF, 1#8)] ∧
      Memory.below [(0xFFFFFFFF, 1#8)] (2 ^ 32) := by
  decide

theorem witness_StepKeepsInvariant : midPack.Inv ∧ ∃ t, step midPack = .next t := ⟨midPack_inv, _, rfl⟩

end Sys2Proof.Tests
end

section
/-!
SUPPORT. The six command bodies as one: what every block step keeps, sees and writes, whatever the command, so that a
statement about all of them is proved once.
-/

namespace Sys2Proof.Machine

/-! ### One block step makes at most one write (spec/20_memory.md R63) -/

/-- `m` is the memory of `s` after no write, or after one at an address below `MEM_BYTES`. -/
def State.WritesOnce (s : State) (m : Memory) : Prop :=
  m = s.mem ∨ ∃ a v, a < s.config.memBytes ∧ m = Memory.set s.mem a v

theorem State.WritesOnce.wf {s : State} {m : Memory} (h : s.WritesOnce m) (hs : Memory.wf s.mem) : Memory.wf m := by
  obtain rfl | ⟨a, v, -, rfl⟩ := h
  · exact hs
  · exact Memory.wf_set _ a v hs

theorem State.WritesOnce.below {s : State} {m : Memory} (h : s.WritesOnce m)
    (hs : Memory.below s.mem s.config.memBytes) : Memory.below m s.config.memBytes := by
  obtain rfl | ⟨a, v, ha, rfl⟩ := h
  · exact hs
  · exact Memory.below_set _ _ a v hs ha

/-- A block step from `s` that goes on has made at most one write. -/
def Micro.OneAccess {ω : Type} (s : State) (x : Micro ω) : Prop := ∀ m w, x = .goOn m w → s.WritesOnce m

section
variable {ω σ : Type} {s : State}

theorem Micro.OneAccess.internal (w : ω) : (Micro.internal s w).OneAccess s :=
  fun _ _ h => .inl (internal_goOn h).1

theorem Micro.OneAccess.reading (a : Nat) (k : Byte → ω) : (Micro.reading s a k).OneAccess s :=
  fun _ _ h => .inl (reading_goOn h).2.1

theorem Micro.OneAccess.writing (a : Nat) (v : Byte) (w : ω) : (Micro.writing s a v w).OneAccess s :=
  fun _ _ h => .inr ⟨a, v, (writing_goOn h).1, (writing_goOn h).2.1⟩

theorem Micro.OneAccess.complete (v : Word) : (Micro.complete v : Micro ω).OneAccess s := nofun

theorem Micro.OneAccess.raise (e : Err) : (Micro.raise e : Micro ω).OneAccess s := nofun

theorem Micro.OneAccess.ite {c : Prop} [Decidable c] {x y : Micro ω} (hx : x.OneAccess s) (hy : y.OneAccess s) :
    (if c then x else y).OneAccess s := by
  split
  · exact hx
  · exact hy

/-- One action of a sink makes at most one write. -/
def SinkWritesOnce (s : State) (r : Except Err (Memory × σ)) : Prop := ∀ m x, r = .ok (m, x) → s.WritesOnce m

theorem SinkWritesOnce.keep (x : σ) : SinkWritesOnce s (.ok (s.mem, x)) := fun _ _ h => by
  cases h
  exact .inl rfl

theorem SinkWritesOnce.write (a : Nat) (v : Byte) (x : σ) : SinkWritesOnce s (sinkWrite s a v x) := fun m y h => by
  rw [sinkWrite_eq] at h
  split at h
  · cases h
    exact .inr ⟨a, v, ‹_›, rfl⟩
  · cases h

theorem SinkWritesOnce.ite {c : Prop} [Decidable c] {x y : Except Err (Memory × σ)} (hx : SinkWritesOnce s x)
    (hy : SinkWritesOnce s y) : SinkWritesOnce s (if c then x else y) := by
  split
  · exact hx
  · exact hy

theorem Micro.OneAccess.sinking {r : Except Err (Memory × σ)} (hr : SinkWritesOnce s r) (k : σ → ω) :
    (Micro.sinking r k).OneAccess s := fun m _ h => by
  obtain ⟨x, hx, -⟩ := sinking_goOn h
  exact hr m x hx

end

theorem getbitStep_oneAccess (s : State) (w : GetbitWork) : (getbitStep s w).OneAccess s := by
  cases w with
  | read => exact .reading _ _
  | got b => exact .complete _

theorem putbitStep_oneAccess (s : State) (w : PutbitWork) : (putbitStep s w).OneAccess s := by
  cases w with
  | read => exact .reading _ _
  | write b => exact .writing _ _ _
  | done => exact .complete _

theorem packStep_oneAccess (s : State) (w : PackWork) : (packStep s w).OneAccess s := by
  cases w with
  | entry => exact .ite (.raise _) (.internal _)
  | read c j acc => exact .ite (.reading _ _) (.internal _)
  | check c j acc ch => exact .ite (.internal _) (.ite (.internal _) (.raise _))
  | write c acc => exact .writing _ _ _
  | done => exact .complete _

theorem rleencStep_oneAccess (s : State) (w : EncWork) : (rleencStep s w).OneAccess s := by
  cases w with
  | entry => exact .ite (.raise _) (.ite (.raise _) (.internal _))
  | header0 => exact .writing _ _ _
  | header1 => exact .writing _ _ _
  | pixel v => exact .ite (.ite (.reading _ _) (.internal _)) (.internal _)
  | bit v => exact .ite (.internal _) (.internal _)
  | emit v k last => exact .ite (.writing _ _ _) (.writing _ _ _)
  | emitZero v k last => exact .writing _ _ _
  | done v => exact .complete _

/-- Each of a sink's three actions makes at most one write. -/
structure Sink.WritesOnce {σ : Type} (k : Sink σ) : Prop where
  first : ∀ s v x, SinkWritesOnce s (k.first s v x)
  second : ∀ s v x, SinkWritesOnce s (k.second s v x)
  tail : ∀ s v x, SinkWritesOnce s (k.tail s v x)

theorem packedSink_writesOnce : packedSink.WritesOnce where
  first _ _ _ := .keep _
  second _ _ _ := .ite (.write _ _ _) (.keep _)
  tail _ _ _ := .ite (.write _ _ _) (.keep _)

theorem textSink_writesOnce : textSink.WritesOnce where
  first _ _ _ := .write _ _ _
  second _ _ _ := .ite (.write _ _ _) (.keep _)
  tail _ _ _ := .keep _

theorem decodeStep_oneAccess {σ : Type} {k : Sink σ} (hk : k.WritesOnce) (s : State) (w : DecWork σ) :
    (decodeStep k s w).OneAccess s := by
  cases w with
  | entry => exact .ite (.raise _) (.internal _)
  | header0 => exact .reading _ _
  | header1 rows => exact .reading _ _
  | header rows cols => exact .ite (.raise _) (.internal _)
  | next v x => exact .ite (.ite (.raise _) (.reading _ _)) (.internal _)
  | overrun v x run => exact .ite (.raise _) (.internal _)
  | put v x left =>
    cases left with
    | zero => exact .internal _
    | succ n => exact .sinking (hk.first s v x) _
  | putEnd v x left => exact .sinking (hk.second s v x) _
  | tail v x => exact .sinking (hk.tail s v x) _
  | done v x => exact .complete _

/-! ### The command bodies -/

/-- What a command runs: its one block step, how its working variables are kept and taken up again, and how many block
steps it still makes at most. -/
structure CommandBody where
  Vars : Type
  step : State → Vars → Micro Vars
  wrap : Vars → Work
  enter : Option Work → Vars
  left : State → Vars → Nat

/-- The body of each command. -/
def commandBody (i : Instr) : CommandBody :=
  match i with
  | .getbit => ⟨GetbitWork, getbitStep, .getbit, getbitEnter, getbitLeft⟩
  | .putbit => ⟨PutbitWork, putbitStep, .putbit, putbitEnter, putbitLeft⟩
  | .pack => ⟨PackWork, packStep, .pack, packEnter, packLeft⟩
  | .rleenc => ⟨EncWork, rleencStep, .rleenc, rleencEnter, rleencLeft⟩
  | .rledec => ⟨DecWork Byte, decodeStep packedSink, .rledec, rledecEnter, decodeLeft⟩
  | .rlerend => ⟨DecWork Nat, decodeStep textSink, .rlerend, rlerendEnter, decodeLeft⟩

/-- At most `k` block steps of command `i` from working variables `w`. -/
def runCommand (i : Instr) (k : Nat) (w : (commandBody i).Vars) (s : State) : State :=
  runBody (commandBody i).step (commandBody i).wrap k w s

theorem exec_eq_runCommand (i : Instr) (s : State) :
    exec i s = .next (runCommand i s.granted ((commandBody i).enter s.work) s) := by
  cases i <;> rfl

@[simp] theorem commandBody_wrap_cmd (i : Instr) (w : (commandBody i).Vars) : ((commandBody i).wrap w).cmd = i := by
  cases i <;> rfl

@[simp] theorem commandBody_enter_wrap (i : Instr) (w : (commandBody i).Vars) :
    (commandBody i).enter (some ((commandBody i).wrap w)) = w := by
  cases i <;> rfl

theorem commandBody_step_oneAccess (i : Instr) (s : State) (w : (commandBody i).Vars) :
    ((commandBody i).step s w).OneAccess s := by
  cases i with
  | getbit => exact getbitStep_oneAccess s w
  | putbit => exact putbitStep_oneAccess s w
  | pack => exact packStep_oneAccess s w
  | rleenc => exact rleencStep_oneAccess s w
  | rledec => exact decodeStep_oneAccess packedSink_writesOnce s w
  | rlerend => exact decodeStep_oneAccess textSink_writesOnce s w

/-- A block step keeps the working variables in range. -/
theorem commandBody_step_ok {i : Instr} {s : State} {w w' : (commandBody i).Vars} {m : Memory}
    (hw : ((commandBody i).wrap w).ok s) (h : (commandBody i).step s w = .goOn m w') :
    ((commandBody i).wrap w').ok (s.setMem m) := by
  cases i with
  | getbit => trivial
  | putbit => trivial
  | pack => exact packStep_ok hw h
  | rleenc => exact rleencStep_ok hw h
  | rledec => exact decodeStep_ok packedSink_keeps hw h
  | rlerend => exact decodeStep_ok textSink_keeps hw h

/-- A block step from variables in range lowers the number of those still to make. -/
theorem commandBody_step_left {i : Instr} {s : State} {w w' : (commandBody i).Vars} {m : Memory}
    (hw : ((commandBody i).wrap w).ok s) (h : (commandBody i).step s w = .goOn m w') :
    (commandBody i).left (s.setMem m) w' < (commandBody i).left s w := by
  cases i with
  | getbit => exact getbitStep_left h
  | putbit => exact putbitStep_left h
  | pack => exact packStep_left hw h
  | rleenc => exact rleencStep_left hw h
  | rledec => exact decodeStep_left (own := accOk) hw h
  | rlerend => exact decodeStep_left (own := offsetOk) hw h

theorem packEnter_ok {s : State} (hs : s.workOk) : (packEnter s.work).ok s := by
  unfold packEnter
  split
  · exact hs _ ‹_›
  · trivial

theorem rleencEnter_ok {s : State} (hs : s.workOk) : (rleencEnter s.work).ok s := by
  unfold rleencEnter
  split
  · exact hs _ ‹_›
  · trivial

theorem rledecEnter_ok {s : State} (hs : s.workOk) : (rledecEnter s.work).ok accOk s := by
  unfold rledecEnter
  split
  · exact hs _ ‹_›
  · trivial

theorem rlerendEnter_ok {s : State} (hs : s.workOk) : (rlerendEnter s.work).ok offsetOk s := by
  unfold rlerendEnter
  split
  · exact hs _ ‹_›
  · trivial

/-- A command goes on from variables in range: its own if it has any, else those of its beginning. -/
theorem commandBody_enter_ok (i : Instr) (s : State) (hs : s.workOk) :
    ((commandBody i).wrap ((commandBody i).enter s.work)).ok s := by
  cases i with
  | getbit => trivial
  | putbit => trivial
  | pack => exact packEnter_ok hs
  | rleenc => exact rleencEnter_ok hs
  | rledec => exact rledecEnter_ok hs
  | rlerend => exact rlerendEnter_ok hs

/-! ### No command needs more than the bound on block steps (spec/70_reset_and_hazards.md R244) -/

theorem getbitLeft_lt_bound (s : State) (w : GetbitWork) : getbitLeft s w < Config.blockStepBound := by
  cases w <;> simp [getbitLeft, Config.blockStepBound]

theorem putbitLeft_lt_bound (s : State) (w : PutbitWork) : putbitLeft s w < Config.blockStepBound := by
  cases w <;> simp [putbitLeft, Config.blockStepBound]

theorem packLeft_lt_bound (s : State) (w : PackWork) : packLeft s w < Config.blockStepBound := by
  have hn : s.arg2Nat < 2 ^ 32 := s.l2.isLt
  unfold Config.blockStepBound
  cases w <;> simp only [packLeft, ceil8] <;> omega

/-- The dimensions RLEENC accepts give at most 65025 pixels (spec/00_scope.md R8). -/
theorem encPixels_le {s : State} (h : encChecksPass s) : s.encPixels ≤ 65025 :=
  le_trans (Nat.mul_le_mul h.2.1 h.2.2.2) (by decide)

theorem EncVars.count_le {s : State} {v : EncVars} (h : v.ok) (hi : v.i ≤ s.encPixels) : v.count ≤ s.encPixels := by
  unfold EncVars.ok at h
  omega

/-- Emit is called at a pixel of the picture, or behind the last one. -/
theorem pixel_le_of_emit {i n : Nat} {last : Bool} (hl : last = true → i = n) (hn : last = false → i < n) : i ≤ n := by
  cases last with
  | true => exact (hl rfl).le
  | false => exact (hn rfl).le

theorem rleencLeft_lt_bound {s : State} {w : EncWork} (hw : w.ok s) : rleencLeft s w < Config.blockStepBound := by
  unfold Config.blockStepBound
  cases w with
  | entry =>
    simp only [rleencLeft]
    split
    · have := encPixels_le ‹_›
      omega
    · omega
  | header0 => have := encPixels_le hw; simp only [rleencLeft]; omega
  | header1 => have := encPixels_le hw; simp only [rleencLeft]; omega
  | pixel v =>
    obtain ⟨hc, hv, hi⟩ := hw
    have := encPixels_le hc
    have := EncVars.count_le hv hi
    simp only [rleencLeft]; omega
  | bit v =>
    obtain ⟨hc, hv, hi⟩ := hw
    have := encPixels_le hc
    have := EncVars.count_le hv hi.le
    simp only [rleencLeft]; omega
  | emit v k last =>
    obtain ⟨hc, hl, hn, hk, -, -⟩ := hw
    have := encPixels_le hc
    have := pixel_le_of_emit hl hn
    simp only [rleencLeft]; omega
  | emitZero v k last =>
    obtain ⟨hc, -, hl, hn, hk, -, -⟩ := hw
    have := encPixels_le hc
    have := pixel_le_of_emit hl hn
    simp only [rleencLeft]; omega
  | done v => simp [rleencLeft]

theorem decodeLeft_lt_bound {σ : Type} (s : State) (w : DecWork σ) : decodeLeft s w < Config.blockStepBound := by
  have hn : s.arg3Nat < 2 ^ 32 := s.l3.isLt
  have hp := ReplayVars.pixels_le
  unfold Config.blockStepBound
  cases w with
  | next v x => have := hp v; simp only [decodeLeft]; omega
  | overrun v x run => have := hp v; simp only [decodeLeft]; omega
  | put v x left => have := hp v; simp only [decodeLeft]; omega
  | putEnd v x left => have := hp v; simp only [decodeLeft]; omega
  | _ => simp only [decodeLeft]; omega

theorem commandBody_left_lt_bound {i : Instr} {s : State} {w : (commandBody i).Vars}
    (hw : ((commandBody i).wrap w).ok s) : (commandBody i).left s w < Config.blockStepBound := by
  cases i with
  | getbit => exact getbitLeft_lt_bound s w
  | putbit => exact putbitLeft_lt_bound s w
  | pack => exact packLeft_lt_bound s w
  | rleenc => exact rleencLeft_lt_bound hw
  | rledec => exact decodeLeft_lt_bound s w
  | rlerend => exact decodeLeft_lt_bound s w

/-! ### What no block step sees -/

/-- The machine `u` with what command bodies see taken from `s`: the parameters, memory and L0 to L3
(spec/10_state.md R30). -/
def State.withUnseen (s u : State) : State :=
  { u with config := s.config, mem := s.mem, l0 := s.l0, l1 := s.l1, l2 := s.l2, l3 := s.l3 }

theorem commandBody_step_withUnseen (i : Instr) (s u : State) (w : (commandBody i).Vars) :
    (commandBody i).step (s.withUnseen u) w = (commandBody i).step s w := by
  cases i <;> cases w <;> rfl

/-- A change `g` of the state that the block steps do not see is the change `h` after the run, when the endings turn `g`
into `h`. -/
theorem runBody_map {ω : Type} {f : State → ω → Micro ω} {inj : ω → Work} {g h : State → State}
    (hf : ∀ s w, f (g s) w = f s w) (hset : ∀ s m, (g s).setMem m = g (s.setMem m))
    (hpause : ∀ s w, (g s).pause w = h (s.pause w)) (hcomplete : ∀ s v, (g s).complete v = h (s.complete v))
    (hraise : ∀ s e, (g s).raise e = h (s.raise e)) (k : Nat) (w : ω) (s : State) :
    runBody f inj k w (g s) = h (runBody f inj k w s) := by
  induction k generalizing w s with
  | zero => exact hpause s _
  | succ k ih =>
    rw [runBody_succ, runBody_succ, hf]
    split
    · rw [hset]; exact ih _ _
    · exact hcomplete s _
    · exact hraise s _

/-- A run does not depend on the working variables and the quota the state holds: it overwrites both. -/
theorem runCommand_work_quota (i : Instr) (k : Nat) (w : (commandBody i).Vars) (s : State) (x : Option Work)
    (q : Option Nat) : runCommand i k w { s with work := x, quota := q } = runCommand i k w s :=
  runBody_map (g := fun s => { s with work := x, quota := q }) (h := id)
    (fun s w => commandBody_step_withUnseen i s { s with work := x, quota := q } w)
    (fun _ _ => rfl) (fun _ _ => rfl) (fun _ _ => rfl) (fun _ _ => rfl) k w s

/-- Other values in ARG0 to ARG3 are there after a run, and change nothing else (R30). -/
theorem runCommand_args (i : Instr) (k : Nat) (w : (commandBody i).Vars) (s : State) (a0 a1 a2 a3 : Word) :
    runCommand i k w { s with arg0 := a0, arg1 := a1, arg2 := a2, arg3 := a3 } =
      { runCommand i k w s with arg0 := a0, arg1 := a1, arg2 := a2, arg3 := a3 } :=
  runBody_map (g := fun s => { s with arg0 := a0, arg1 := a1, arg2 := a2, arg3 := a3 })
    (h := fun s => { s with arg0 := a0, arg1 := a1, arg2 := a2, arg3 := a3 })
    (fun s w => commandBody_step_withUnseen i s { s with arg0 := a0, arg1 := a1, arg2 := a2, arg3 := a3 } w)
    (fun _ _ => rfl) (fun _ _ => rfl) (fun _ _ => rfl) (fun _ _ => rfl) k w s

/-- With `k` block steps granted a command makes at most `k` from where it stands. -/
theorem exec_quota_some (i : Instr) (s : State) (k : Nat) :
    exec i { s with quota := some k } = .next (runCommand i k ((commandBody i).enter s.work) s) := by
  rw [exec_eq_runCommand, State.granted_some _ k rfl]
  exact congrArg _ (runCommand_work_quota i k _ s s.work (some k))

/-- With nothing queued to interrupt it a command makes as many block steps as the bound allows. -/
theorem exec_quota_none (i : Instr) (s : State) :
    exec i { s with quota := none } =
      .next (runCommand i Config.blockStepBound ((commandBody i).enter s.work) s) := by
  rw [exec_eq_runCommand, State.granted_none _ rfl]
  exact congrArg _ (runCommand_work_quota i _ _ s s.work none)

end Sys2Proof.Machine
end

section
/-!
SUPPORT. What one step of the machine can answer, said once, and what each named update of the state does to the
invariant.
-/

namespace Sys2Proof.Machine

/-! ### A host access of the register window (spec/10_state.md R20, R21) -/

@[simp] theorem regOfOffset_regOffset (r : Reg) : regOfOffset (regOffset r) = some r := by
  cases r <;> rfl

theorem regOffset_lt (r : Reg) : regOffset r < Config.windowBytes := by
  cases r <;> decide

/-- The offsets of the window that are a register's are the multiples of 4. -/
theorem regOfOffset_isSome : ∀ off < Config.windowBytes, ((regOfOffset off).isSome ↔ off % 4 = 0) := by
  decide

theorem hostReg_regOffset (s : State) (r : Reg) : hostReg s (s.config.regBase + regOffset r) 32 = .ok r := by
  have hr := regOffset_lt r
  unfold hostReg
  rw [if_neg (by omega), if_neg (by simp), Nat.add_sub_cancel_left, regOfOffset_regOffset]

/-- A host access reaches a register exactly when it is well formed. -/
theorem hostReg_ok_iff (s : State) (addr width : Nat) :
    (∃ r, hostReg s addr width = .ok r) ↔ HostAccess.wellFormed s.config addr width := by
  unfold hostReg HostAccess.wellFormed
  split
  · exact iff_of_false (by simp) (by omega)
  · split
    · exact iff_of_false (by simp) (by simp [*])
    · have hoff := regOfOffset_isSome (addr - s.config.regBase) (by omega)
      cases hr : regOfOffset (addr - s.config.regBase) with
      | some r => exact iff_of_true ⟨r, rfl⟩ (by simp only [hr, Option.isSome_some, true_iff] at hoff; omega)
      | none => exact iff_of_false (by simp) (by simp [hr] at hoff; omega)

section
variable {s : State} {rest : List Input}

theorem step_nil (h : s.inputs = []) : step s = blockMove s := by
  simp [step, stepMachine, h]

theorem step_cons {t : Input} (h : s.inputs = t :: rest) : step s = takeTurn t { s with inputs := rest } := by
  simp [step, stepMachine, h]

theorem step_hostWR {r : Reg} {v : Word} (h : s.inputs = hostWR s.config r v :: rest) :
    step s = .next (writeReg { s with inputs := rest } r v) := by
  rw [step_cons h]
  simp only [hostWR, takeTurn, hostRegWrite]
  rw [hostReg_regOffset { s with inputs := rest } r]

theorem step_hostRD {r : Reg} (h : s.inputs = hostRD s.config r :: rest) :
    step s = .next { s with inputs := rest, hostData := readReg s r } := by
  rw [step_cons h]
  simp only [hostRD, takeTurn, hostRegRead]
  rw [hostReg_regOffset { s with inputs := rest } r]
  cases r <;> rfl

end

/-! ### Register writes and reads, one lemma a case (R21, R23, R26, R28, R29) -/

theorem writeReg_cmd_idle {s : State} (w : Word) (hb : s.busy = false) : writeReg s .cmd w = s.accept w := by
  simp [writeReg, hb]

theorem writeReg_cmd_run {s : State} (w : Word) (hb : s.busy = true) : writeReg s .cmd w = s := by
  simp [writeReg, hb]

theorem writeReg_status_clear {s : State} {v : Word} (hv : v.getLsbD 1 = true) (hd : s.done = true) :
    writeReg s .status v = { s with status := clearDone s.status } := by
  simp [writeReg, hv, hd]

theorem writeReg_status_keep {s : State} {v : Word} (h : v.getLsbD 1 = false ∨ s.done = false) :
    writeReg s .status v = s := by
  have hcond : (v.getLsbD 1 && s.done) = false := by
    obtain h | h := h
    · rw [h, Bool.false_and]
    · rw [h, Bool.and_false]
  simp only [writeReg, hcond, Bool.false_eq_true, if_false]

/-- No host write changes RESULT (R29). -/
theorem writeReg_result (s : State) (r : Reg) (v : Word) : (writeReg s r v).result = s.result := by
  cases r with
  | cmd => simp only [writeReg]; split <;> rfl
  | status => simp only [writeReg]; split <;> rfl
  | ctrl | result | arg0 | arg1 | arg2 | arg3 => rfl

/-- Only bit 0 of a word survives `ctrlMask` (R23). -/
theorem getLsbD_and_ctrlMask (v : Word) (k : Nat) :
    (v &&& ctrlMask).getLsbD k = (decide (k = 0) && v.getLsbD 0) := by
  rw [BitVec.getLsbD_and, show ctrlMask = 1#32 from rfl, BitVec.getLsbD_one]
  by_cases hk : k = 0 <;> simp [hk]

/-- A host write of the window moves exactly when it reaches a register; else it is refused (IM22, IM23). -/
theorem hostRegWrite_moves_iff (s : State) (addr width : Nat) (v : Word) :
    ((∃ t, hostRegWrite s addr width v = .next t) ↔ ∃ r, hostReg s addr width = .ok r) ∧
      (¬(∃ r, hostReg s addr width = .ok r) → ∃ e, hostRegWrite s addr width v = .refused e) := by
  unfold hostRegWrite
  cases hostReg s addr width <;> simp

theorem hostRegRead_moves_iff (s : State) (addr width : Nat) :
    ((∃ t, hostRegRead s addr width = .next t) ↔ ∃ r, hostReg s addr width = .ok r) ∧
      (¬(∃ r, hostReg s addr width = .ok r) → ∃ e, hostRegRead s addr width = .refused e) := by
  unfold hostRegRead
  cases hostReg s addr width <;> simp

theorem blockMove_of_decode_ok {s : State} {i : Instr} (hb : s.busy = true) (hi : decode s.lop = .ok i) :
    blockMove s = exec i s := by
  simp [blockMove, hb, hi]

/-! ### Everything a step can answer -/

/-- The next states of `s`, one constructor for each kind of move. -/
inductive StepTo (s : State) : State → Prop where
  /-- The host writes a register. -/
  | write (turns : List Input) (r : Reg) (v : Word) : StepTo s (writeReg { s with inputs := turns } r v)
  /-- The host reads a register, or memory, or ends a WAIT. -/
  | read (turns : List Input) (d : Word) : StepTo s { s with inputs := turns, hostData := d }
  /-- The host stores a byte. -/
  | store (turns : List Input) (a : Nat) (v : Byte) (ha : a < s.config.memBytes) :
      StepTo s { s with inputs := turns, mem := Memory.set s.mem a v }
  /-- The platform asserts reset. -/
  | reset (turns : List Input) (h : s.inputs = .reset :: turns) :
      StepTo s (State.resetBlock { s with inputs := turns })
  /-- The block makes no block step: it is idle, or it was granted none. -/
  | stay (turns : List Input) : StepTo s { s with inputs := turns, quota := none }
  /-- The block finds an illegal command word. -/
  | illegal (turns : List Input) (hb : s.busy = true) :
      StepTo s (State.raise { s with inputs := turns } .illegalCommand)
  /-- The block runs the latched command. -/
  | command (turns : List Input) (q : Option Nat) (i : Instr) (t : State) (hb : s.busy = true)
      (hi : decode s.lop = .ok i) (h : exec i { s with inputs := turns, quota := q } = .next t) : StepTo s t

theorem blockMove_stepTo {s t : State} (turns : List Input) (q : Option Nat)
    (h : blockMove { s with inputs := turns, quota := q } = .next t) : StepTo s t := by
  unfold blockMove at h
  split at h
  · rename_i hb
    split at h
    · exact .command turns q _ t hb ‹_› h
    · unfold illegalMove at h
      split at h
      · cases h; exact .stay turns
      · cases h; exact .illegal turns hb
  · cases h; exact .stay turns

theorem hostRegWrite_stepTo {s t : State} {addr width : Nat} {v : Word} (turns : List Input)
    (h : hostRegWrite { s with inputs := turns } addr width v = .next t) : StepTo s t := by
  unfold hostRegWrite at h
  split at h
  · cases h; exact .write turns _ v
  · cases h

theorem hostRegRead_stepTo {s t : State} {addr width : Nat} (turns : List Input)
    (h : hostRegRead { s with inputs := turns } addr width = .next t) : StepTo s t := by
  unfold hostRegRead at h
  split at h
  · cases h; exact .read turns _
  · cases h

theorem hostMemWrite_stepTo {s t : State} {a : Nat} {v : Byte} (turns : List Input)
    (h : hostMemWrite { s with inputs := turns } a v = .next t) : StepTo s t := by
  unfold hostMemWrite at h
  split at h
  · cases h
  · split at h
    · cases h
    · split at h
      · cases h; exact .store turns a v ‹_›
      · cases h

theorem hostMemRead_stepTo {s t : State} {a : Nat} (turns : List Input)
    (h : hostMemRead { s with inputs := turns } a = .next t) : StepTo s t := by
  unfold hostMemRead at h
  split at h
  · cases h; exact .read turns _
  · cases h

theorem hostWait_stepTo {s t : State} (turns : List Input) (h : hostWait { s with inputs := turns } = .next t) :
    StepTo s t := by
  unfold hostWait at h
  split at h
  · exact blockMove_stepTo (.wait :: turns) none h
  · cases h; exact .read turns _

theorem stepTo_of_step {s t : State} (h : step s = .next t) : StepTo s t := by
  cases hin : s.inputs with
  | nil =>
    rw [step_nil hin] at h
    exact blockMove_stepTo s.inputs s.quota h
  | cons turn rest =>
    rw [step_cons hin] at h
    cases turn with
    | regWrite addr width v => exact hostRegWrite_stepTo rest h
    | regRead addr width => exact hostRegRead_stepTo rest h
    | wait => exact hostWait_stepTo rest h
    | memWrite a v => exact hostMemWrite_stepTo rest h
    | memRead a => exact hostMemRead_stepTo rest h
    | reset => cases h; exact .reset rest hin
    | block n => exact blockMove_stepTo rest (some n) h

/-! ### What a run can answer -/

theorem State.keepsRegisters_pause (s : State) (m : Memory) (w : Work) :
    s.KeepsRegisters ((s.setMem m).pause w) := by
  constructor <;> rfl

theorem State.keepsRegisters_complete (s : State) (m : Memory) (v : Word) :
    s.KeepsRegisters ((s.setMem m).complete v) := by
  constructor <;> rfl

theorem State.keepsRegisters_raise (s : State) (m : Memory) (e : Err) :
    s.KeepsRegisters ((s.setMem m).raise e) := by
  constructor <;> rfl

/-- A command answers the state it began in with another memory, left in RUN, completed, or ended by an error. -/
theorem exec_cases {i : Instr} {s t : State} (h : exec i s = .next t) :
    ∃ m, (∃ w, t = (s.setMem m).pause w) ∨ (∃ v, t = (s.setMem m).complete v) ∨
      (∃ e, t = (s.setMem m).raise e) := by
  rw [exec_eq_runCommand] at h
  cases h
  obtain ⟨m, ⟨w, hw⟩ | hend⟩ := runBody_cases (f := (commandBody i).step) (inj := (commandBody i).wrap) s.granted
    ((commandBody i).enter s.work) s
  · exact ⟨m, .inl ⟨_, hw⟩⟩
  · exact ⟨m, .inr hend⟩

theorem exec_keepsRegisters {i : Instr} {s t : State} (h : exec i s = .next t) : s.KeepsRegisters t := by
  obtain ⟨m, ⟨w, rfl⟩ | ⟨v, rfl⟩ | ⟨e, rfl⟩⟩ := exec_cases h
  · exact s.keepsRegisters_pause m w
  · exact s.keepsRegisters_complete m v
  · exact s.keepsRegisters_raise m e

/-! ### The ranges of the working variables depend on L2 and L3 alone -/

theorem Work.ok_congr {s t : State} (h2 : t.l2 = s.l2) (h3 : t.l3 = s.l3) {w : Work} (h : w.ok s) : w.ok t := by
  have ht : w.ok { s with l2 := t.l2, l3 := t.l3 } ↔ w.ok t := by
    cases w with
    | getbit _ => rfl
    | putbit _ => rfl
    | pack p => cases p <;> rfl
    | rleenc e => cases e <;> rfl
    | rledec d => cases d <;> rfl
    | rlerend d => cases d <;> rfl
  rw [h2, h3] at ht
  exact ht.mp h

theorem State.workOk_congr {s t : State} (hw : t.work = s.work) (h2 : t.l2 = s.l2) (h3 : t.l3 = s.l3)
    (h : s.workOk) : t.workOk :=
  fun w htw => Work.ok_congr h2 h3 (h w (hw ▸ htw))

theorem State.workOk_of_none {s : State} (h : s.work = none) : s.workOk := fun w hw => by
  rw [h] at hw
  cases hw

/-! ### A run stopped on its way (spec/70_reset_and_hazards.md R243) -/

section
variable {ω : Type} {f : State → ω → Micro ω} {inj : ω → Work}

/-- The body's next block step is its last: it completes or raises an error. -/
def EndsNext (f : State → ω → Micro ω) (s : State) (w : ω) : Prop :=
  (∃ v, f s w = .complete v) ∨ (∃ e, f s w = .raise e)

/-- All runs that reach the end of the body end alike. -/
theorem runBody_of_walk_end {j : Nat} {w w' : ω} {s s' : State} (hwalk : walk f j w s = some (w', s'))
    (hend : EndsNext f s' w') {k : Nat} (hk : j < k) : runBody f inj k w s = runBody f inj 1 w' s' := by
  obtain ⟨v, hv⟩ | ⟨e, he⟩ := hend
  · rw [runBody_walk_complete j k w w' s s' v hwalk hv hk, runBody_succ, hv]
  · rw [runBody_walk_raise j k w w' s s' e hwalk he hk, runBody_succ, he]

theorem work_eq_none_of_endsNext {w : ω} {s : State} (hend : EndsNext f s w) : (runBody f inj 1 w s).work = none := by
  rw [runBody_succ]
  obtain ⟨v, hv⟩ | ⟨e, he⟩ := hend
  · rw [hv]; rfl
  · rw [he]; rfl

/-- A walk passes through every number of block steps before its own. -/
theorem walk_split {k n : Nat} {w : ω} {s : State} {z : ω × State} (h : walk f (k + n) w s = some z) :
    ∃ w' s', walk f k w s = some (w', s') ∧ walk f n w' s' = some z := by
  induction k generalizing w s with
  | zero => exact ⟨w, s, rfl, by simpa using h⟩
  | succ k ih =>
    rw [Nat.succ_add] at h
    simp only [walk] at h ⊢
    split at h
    · exact ih h
    · cases h
    · cases h

end

section
variable {i : Instr} {s : State} {w : (commandBody i).Vars}

theorem runCommand_workOk (k : Nat) (w : (commandBody i).Vars) (hw : ((commandBody i).wrap w).ok s) :
    (runCommand i k w s).workOk := by
  refine runBody_induction (Q := State.workOk) (P := fun s w => ((commandBody i).wrap w).ok s)
    ?pause ?goOn ?complete ?raise k w s hw
  case pause =>
    intro s w hw x hx
    obtain rfl : (commandBody i).wrap w = x := by simpa using hx
    exact Work.ok_congr (by simp) (by simp) hw
  case goOn => exact fun s w m w' hw h => commandBody_step_ok hw h
  case complete => exact fun s w v _ _ => State.workOk_of_none (by simp)
  case raise => exact fun s w e _ _ => State.workOk_of_none (by simp)

/-- A move uses its quota up. -/
theorem runCommand_quota (i : Instr) (k : Nat) (w : (commandBody i).Vars) (s : State) :
    (runCommand i k w s).quota = none :=
  runBody_induction (Q := fun t => t.quota = none) (P := fun _ _ => True) (fun _ _ _ => rfl)
    (fun _ _ _ _ _ _ => trivial) (fun _ _ _ _ _ => rfl) (fun _ _ _ _ _ => rfl) k w s trivial

/-- A command from variables in range ends within the bound on block steps. -/
theorem walk_to_end (hw : ((commandBody i).wrap w).ok s) :
    ∃ j w' s', j < Config.blockStepBound ∧ walk (commandBody i).step j w s = some (w', s') ∧
      EndsNext (commandBody i).step s' w' :=
  runBody_ends (P := fun s w => ((commandBody i).wrap w).ok s) (μ := (commandBody i).left)
    (fun _ _ _ _ hw h => ⟨commandBody_step_ok hw h, commandBody_step_left hw h⟩) _ w s hw (commandBody_left_lt_bound hw)

/-- Where `k` block steps leave a command: at the end of the uninterrupted one, or on its way there. -/
theorem runCommand_ended_or_paused (hw : ((commandBody i).wrap w).ok s) (k : Nat) :
    (runCommand i k w s = runCommand i Config.blockStepBound w s ∧ (runCommand i k w s).work = none) ∨
      ∃ w' s', runCommand i k w s = s'.pause ((commandBody i).wrap w') ∧
        runCommand i Config.blockStepBound w' s' = runCommand i Config.blockStepBound w s := by
  obtain ⟨j, w', s', hj, hwalk, hend⟩ := walk_to_end hw
  have hfull := runBody_of_walk_end (inj := (commandBody i).wrap) hwalk hend hj
  obtain hk | hk := Nat.lt_or_ge j k
  · have hpart := runBody_of_walk_end (inj := (commandBody i).wrap) hwalk hend hk
    refine .inl ⟨hpart.trans hfull.symm, ?_⟩
    rw [runCommand, hpart]
    exact work_eq_none_of_endsNext hend
  · obtain ⟨n, rfl⟩ := Nat.exists_eq_add_of_le hk
    obtain ⟨w₁, s₁, hto, hfrom⟩ := walk_split hwalk
    exact .inr ⟨w₁, s₁, runBody_walk k 0 w w₁ s s₁ hto,
      (runBody_of_walk_end hfrom hend (by omega)).trans hfull.symm⟩

/-- Going on from a pause is going on from the same variables and memory. -/
theorem exec_pause (i : Instr) (s : State) (w : (commandBody i).Vars) :
    exec i (s.pause ((commandBody i).wrap w)) = .next (runCommand i Config.blockStepBound w s) := by
  rw [exec_eq_runCommand, State.granted_none _ (by simp), State.pause_work, commandBody_enter_wrap]
  exact congrArg _ (runCommand_work_quota i _ w s (some ((commandBody i).wrap w)) none)

end

/-! ### The flags after reset (spec/10_state.md R38) -/

section
variable (c : Config) (m : Memory) (turns : List Input)

@[simp] theorem State.resetWith_ie : (State.resetWith c m turns).ie = false := by
  simp [State.ie, State.resetWith]
@[simp] theorem State.resetWith_busy : (State.resetWith c m turns).busy = false := by
  simp [State.busy, State.resetWith]
@[simp] theorem State.resetWith_done : (State.resetWith c m turns).done = false := by
  simp [State.done, State.resetWith]
@[simp] theorem State.resetWith_err : (State.resetWith c m turns).err = 0#4 := by
  simp [State.err, State.resetWith]

end

/-! ### The invariant after each update of the state -/

namespace State.Inv

variable {s : State}

theorem memWritten (hs : s.Inv) {m : Memory} (hwf : Memory.wf m) (hbelow : Memory.below m s.config.memBytes) :
    (s.setMem m).Inv :=
  { hs with
    memWf := hwf
    memBelow := hbelow
    workRange := workOk_congr (by simp) (by simp) (by simp) hs.workRange }

/-- The turns to come and what the host has read are no part of the invariant. -/
theorem turnTaken (hs : s.Inv) (turns : List Input) (d : Word) :
    State.Inv { s with inputs := turns, hostData := d } :=
  { hs with workRange := workOk_congr (s := s) rfl rfl rfl hs.workRange }

theorem quotaCleared (hs : s.Inv) : State.Inv { s with quota := none } :=
  { hs with
    workRange := workOk_congr (s := s) rfl rfl rfl hs.workRange
    quotaNone := rfl }

theorem completed (hs : s.Inv) (v : Word) : (s.complete v).Inv :=
  { hs with
    statusReserved := statusWord_reserved ..
    notBusyDone := by simp
    errRange := by simp
    errBusy := by simp
    errResult := by simp
    workRuns := by simp
    workRange := workOk_of_none (by simp)
    quotaNone := rfl }

theorem raised (hs : s.Inv) (e : Err) : (s.raise e).Inv :=
  { hs with
    statusReserved := statusWord_reserved ..
    notBusyDone := by simp
    errRange := by simpa using e.code_range.2
    errBusy := by simp
    errResult := by simp
    workRuns := by simp
    workRange := workOk_of_none (by simp)
    quotaNone := rfl }

theorem paused (hs : s.Inv) {w : Work} (hb : s.busy = true) (hi : decode s.lop = .ok w.cmd) (hw : w.ok s) :
    (s.pause w).Inv :=
  { hs with
    workRuns := fun w' h => by
      obtain rfl : w = w' := by simpa using h
      exact ⟨hb, hi⟩
    workRange := fun w' h => by
      obtain rfl : w = w' := by simpa using h
      exact Work.ok_congr (by simp) (by simp) hw
    quotaNone := rfl }

theorem resetTaken (hs : s.Inv) : s.resetBlock.Inv :=
  { hs with
    ctrlReserved := by simp
    statusReserved := by simp
    notBusyDone := by simp
    errRange := by simp
    errBusy := by simp
    errResult := by simp
    cmdLop := rfl
    workRuns := by simp
    workRange := workOk_of_none (by simp)
    quotaNone := rfl }

theorem accepted (hs : s.Inv) (w : Word) : (s.accept w).Inv :=
  { hs with
    statusReserved := statusWord_reserved ..
    notBusyDone := by simp
    errRange := by simp
    errBusy := by simp
    errResult := by simp
    cmdLop := rfl
    workRuns := by simp
    workRange := workOk_of_none (by simp) }

theorem ctrlWritten (hs : s.Inv) (v : Word) : State.Inv { s with ctrl := v &&& ctrlMask } :=
  { hs with
    ctrlReserved := by
      show v &&& ctrlMask &&& ~~~ctrlMask = 0#32
      rw [BitVec.and_assoc, BitVec.and_not_self]
      exact BitVec.and_zero
    workRange := workOk_congr (s := s) rfl rfl rfl hs.workRange }

theorem doneCleared (hs : s.Inv) : State.Inv { s with status := clearDone s.status } :=
  { hs with
    statusReserved := clearDone_reserved s.status hs.statusReserved
    notBusyDone := by simp
    errRange := by simpa using hs.errRange
    errBusy := by simpa using hs.errBusy
    errResult := by simpa using hs.errResult
    workRuns := by simpa using hs.workRuns
    workRange := workOk_congr (s := s) rfl rfl rfl hs.workRange }

theorem regWritten (hs : s.Inv) (r : Reg) (v : Word) : (writeReg s r v).Inv := by
  cases r with
  | ctrl => exact hs.ctrlWritten v
  | cmd =>
    simp only [writeReg]
    split
    · exact hs
    · exact hs.accepted v
  | status =>
    simp only [writeReg]
    split
    · exact hs.doneCleared
    · exact hs
  | result => exact hs
  | arg0 | arg1 | arg2 | arg3 =>
    exact { hs with workRange := workOk_congr (s := s) rfl rfl rfl hs.workRange }

theorem afterReset {c : Config} {m : Memory} (turns : List Input) (hc : c.wellFormed) (hwf : Memory.wf m)
    (hbelow : Memory.below m c.memBytes) : (State.resetWith c m turns).Inv where
  config := hc
  memWf := hwf
  memBelow := hbelow
  ctrlReserved := by simp [State.resetWith]
  statusReserved := by simp [State.resetWith]
  notBusyDone := by simp
  errRange := by simp
  errBusy := by simp
  errResult := by simp
  cmdLop := rfl
  workRuns := by simp [State.resetWith]
  workRange := workOk_of_none rfl
  quotaNone := rfl

/-- A run of the latched command from variables in range keeps the invariant, however many block steps it makes. -/
theorem run_latched {i : Instr} (hs : s.Inv) (hb : s.busy = true) (hi : decode s.lop = .ok i) (k : Nat)
    (w : (commandBody i).Vars) (hw : ((commandBody i).wrap w).ok s) : (runCommand i k w s).Inv := by
  refine runBody_induction (Q := State.Inv)
    (P := fun s w => s.Inv ∧ s.busy = true ∧ decode s.lop = .ok i ∧ ((commandBody i).wrap w).ok s)
    ?pause ?goOn ?complete ?raise k w s ⟨hs, hb, hi, hw⟩
  case pause =>
    rintro s w ⟨hs, hb, hi, hw⟩
    exact hs.paused hb (by rw [commandBody_wrap_cmd]; exact hi) hw
  case goOn =>
    rintro s w m w' ⟨hs, hb, hi, hw⟩ h
    have hm := commandBody_step_oneAccess i s w m w' h
    exact ⟨hs.memWritten (hm.wf hs.memWf) (hm.below hs.memBelow), hb, hi, commandBody_step_ok hw h⟩
  case complete =>
    rintro s w v ⟨hs, -⟩ -
    exact hs.completed v
  case raise =>
    rintro s w e ⟨hs, -⟩ -
    exact hs.raised e

/-- The latched command keeps the invariant, whatever the quota of its move. -/
theorem exec_latched {i : Instr} {t : State} (hs : s.Inv) (hb : s.busy = true) (hi : decode s.lop = .ok i)
    (q : Option Nat) (h : exec i { s with quota := q } = .next t) : t.Inv := by
  have hw := commandBody_enter_ok i s hs.workRange
  cases q with
  | none => rw [exec_quota_none] at h; cases h; exact hs.run_latched hb hi _ _ hw
  | some n => rw [exec_quota_some] at h; cases h; exact hs.run_latched hb hi _ _ hw

end State.Inv

end Sys2Proof.Machine
end

section
/-!
The obligations on the state, the register window and the invariant (spec/10_state.md).
-/

namespace Sys2Proof.Machine

/-- Settles O60, by cases on the kind of move: the turn is taken off the list, and then the one update the move makes
keeps the invariant. For the move of a command that is `State.Inv.exec_latched`. -/
theorem stepKeepsInvariant : Obligations.StepKeepsInvariant := by
  unfold Obligations.StepKeepsInvariant
  intro s t hs h
  cases stepTo_of_step h with
  | write turns r v => exact (hs.turnTaken turns s.hostData).regWritten r v
  | read turns d => exact hs.turnTaken turns d
  | store turns a v ha =>
    exact (hs.turnTaken turns s.hostData).memWritten (Memory.wf_set _ a v hs.memWf)
      (Memory.below_set _ _ a v hs.memBelow ha)
  | reset turns => exact (hs.turnTaken turns s.hostData).resetTaken
  | stay turns => exact (hs.turnTaken turns s.hostData).quotaCleared
  | illegal turns hb => exact (hs.turnTaken turns s.hostData).raised .illegalCommand
  | command turns q i t hb hi hexec => exact (hs.turnTaken turns s.hostData).exec_latched hb hi q hexec

/-- Settles O10: the register writes are `step_hostWR`, and a command does not see ARG0 to ARG3 (`runCommand_args`). -/
theorem argRegistersAreLatched : Obligations.ArgRegistersAreLatched := by
  unfold Obligations.ArgRegistersAreLatched
  refine ⟨fun s v rest => ⟨step_hostWR, step_hostWR, step_hostWR, step_hostWR⟩, fun s w => ⟨rfl, rfl, rfl, rfl, rfl⟩,
    fun s => ⟨rfl, rfl, rfl, rfl⟩, fun i s t a0 a1 a2 a3 h => ⟨?same, ?kept⟩⟩
  case same =>
    rw [exec_eq_runCommand] at h ⊢
    cases h
    exact congrArg _ (runCommand_args i _ _ s a0 a1 a2 a3)
  case kept =>
    have hkeep := exec_keepsRegisters h
    exact ⟨hkeep.arg0, hkeep.arg1, hkeep.arg2, hkeep.arg3⟩

/-- Settles O14, by cases on the kind of move: of the moves that are no reset only a completion or an error writes RESULT. -/
theorem onlyCompletionWritesResult : Obligations.OnlyCompletionWritesResult := by
  unfold Obligations.OnlyCompletionWritesResult
  intro s t h
  cases stepTo_of_step h with
  | write turns r v => exact .inl (writeReg_result { s with inputs := turns } r v)
  | read turns d => exact .inl rfl
  | store turns a v ha => exact .inl rfl
  | reset turns hreset => exact .inr (.inr ⟨turns, hreset⟩)
  | stay turns => exact .inl rfl
  | illegal turns hb => exact .inr (.inl ⟨hb, by simp, by simp⟩)
  | command turns q i t hb hi hexec =>
    obtain ⟨m, ⟨w, rfl⟩ | ⟨v, rfl⟩ | ⟨e, rfl⟩⟩ := exec_cases hexec
    · exact .inl rfl
    · exact .inr (.inl ⟨hb, by simp, by simp⟩)
    · exact .inr (.inl ⟨hb, by simp, by simp⟩)

/-- Settles O52: `k` block steps leave the command at the end of the uninterrupted one, where it has no working variables,
or paused on its way there, where it has (`runCommand_ended_or_paused`). -/
theorem pausingChangesNothing : Obligations.PausingChangesNothing := by
  unfold Obligations.PausingChangesNothing
  intro i s t k hs hq h
  have hw := commandBody_enter_ok i s hs
  have hfull : exec i s = .next (runCommand i Config.blockStepBound ((commandBody i).enter s.work) s) := by
    rw [exec_eq_runCommand, State.granted_none s hq]
  rw [exec_quota_some] at h
  cases h
  refine ⟨runCommand_workOk k _ hw, runCommand_quota i k _ s, ?_⟩
  rw [hfull]
  obtain ⟨hended, hnone⟩ | ⟨w', s', hpaused, hrest⟩ := runCommand_ended_or_paused hw k
  · exact ⟨fun _ => congrArg _ hended.symm, fun hsome => absurd hnone hsome⟩
  · rw [hpaused, exec_pause, hrest]
    exact ⟨fun hnone => by simp at hnone, fun _ => rfl⟩

/-- Settles O54: each of the three endings keeps the registers. -/
theorem commandsKeepRegisters : Obligations.CommandsKeepRegisters := by
  unfold Obligations.CommandsKeepRegisters
  intro i s t h
  refine ⟨exec_keepsRegisters h, ?_⟩
  obtain ⟨m, ⟨w, rfl⟩ | ⟨v, rfl⟩ | ⟨e, rfl⟩⟩ := exec_cases h
  · exact .inl ⟨by simp, rfl, rfl⟩
  · exact .inr (.inl ⟨rfl, rfl⟩)
  · exact .inr (.inr ⟨rfl, rfl, e, rfl⟩)

/-- Settles O6: the write is acceptance, and the state it leaves is in RUN with the word in LOP. -/
theorem cmdWriteAcceptedInIdle : Obligations.CmdWriteAcceptedInIdle := by
  unfold Obligations.CmdWriteAcceptedInIdle
  intro s w rest h hb
  have hstep := step_hostWR h
  rw [writeReg_cmd_idle (s := { s with inputs := rest }) w hb] at hstep
  refine ⟨_, hstep, rfl, rfl, rfl, rfl, rfl, rfl, by simp, by simp, by simp, rfl, rfl, rfl, rfl, rfl, rfl, rfl, rfl,
    rfl, rfl, rfl, fun i hi hrest => ?_⟩
  rw [step_nil (by simpa using hrest), blockMove_of_decode_ok (by simp) (by simpa using hi)]

/-- Settles O7: in RUN a write to CMD leaves the state as it is (`writeReg_cmd_run`). -/
theorem cmdWriteIgnoredInRun : Obligations.CmdWriteIgnoredInRun := by
  unfold Obligations.CmdWriteIgnoredInRun
  intro s w rest h hb
  rw [step_hostWR h, writeReg_cmd_run (s := { s with inputs := rest }) w hb]

/-- Settles O8: of the word written only bit 0 is kept (`getLsbD_and_ctrlMask`). -/
theorem ctrlWriteKeepsIeOnly : Obligations.CtrlWriteKeepsIeOnly := by
  unfold Obligations.CtrlWriteKeepsIeOnly
  intro s v rest h
  refine ⟨_, step_hostWR h, rfl, ?ie, fun k _ => ?read⟩
  case ie => exact (getLsbD_and_ctrlMask v 0).trans (by rw [decide_eq_true rfl, Bool.true_and])
  case read =>
    show (v &&& ctrlMask &&& ctrlMask).getLsbD k = _
    rw [getLsbD_and_ctrlMask, getLsbD_and_ctrlMask, decide_eq_true rfl, Bool.true_and]

/-- Settles O9, by the two cases of a write to STATUS. -/
theorem statusWriteClearsDone : Obligations.StatusWriteClearsDone := by
  unfold Obligations.StatusWriteClearsDone
  intro s v rest h
  constructor
  · intro hv hd
    rw [step_hostWR h, writeReg_status_clear (s := { s with inputs := rest }) hv hd]
    exact ⟨_, rfl, State.clearDone_done _, State.clearDone_err _, State.clearDone_busy _, rfl⟩
  · intro hkeep
    rw [step_hostWR h, writeReg_status_keep (s := { s with inputs := rest }) hkeep]

/-- Settles O11: a write to RESULT leaves the state as it is. -/
theorem resultWriteIgnored : Obligations.ResultWriteIgnored := by
  unfold Obligations.ResultWriteIgnored
  intro s v rest h
  exact step_hostWR h

/-- Settles O12: the eight offsets are those of the eight registers. -/
theorem registerReadsChangeNothing : Obligations.RegisterReadsChangeNothing := by
  unfold Obligations.RegisterReadsChangeNothing
  intro s rest
  exact ⟨step_hostRD (r := .ctrl), step_hostRD (r := .cmd), step_hostRD (r := .status), step_hostRD (r := .result),
    step_hostRD (r := .arg0), step_hostRD (r := .arg1), step_hostRD (r := .arg2), step_hostRD (r := .arg3)⟩

/-- Settles O13: an access moves exactly when it reaches a register (`hostReg_ok_iff`). -/
theorem onlyAlignedWordAccessesMove : Obligations.OnlyAlignedWordAccessesMove := by
  unfold Obligations.OnlyAlignedWordAccessesMove
  intro s addr width v rest
  have hiff := hostReg_ok_iff { s with inputs := rest } addr width
  constructor
  · intro h
    rw [step_cons h, ← hiff]
    exact hostRegWrite_moves_iff _ addr width v
  · intro h
    rw [step_cons h, ← hiff]
    exact hostRegRead_moves_iff _ addr width

/-- Settles O50, by evaluating each field of the state after reset. -/
theorem resetValues : Obligations.ResetValues := by
  unfold Obligations.ResetValues
  intro c m turns
  exact ⟨_, rfl, rfl, rfl, rfl, by simp, by simp, by simp, rfl, rfl, rfl, rfl, rfl, by simp [State.control], rfl, rfl, rfl,
    rfl, rfl, rfl, by simp [State.irq], rfl⟩

/-- Settles O59: both states are `State.resetWith` of a well-formed memory. -/
theorem resetMeetsInvariant : Obligations.ResetMeetsInvariant := by
  unfold Obligations.ResetMeetsInvariant
  exact ⟨fun c m turns hc hwf hbelow => .afterReset turns hc hwf hbelow,
    .afterReset [] (by decide) Memory.wf_reset (by simp)⟩

end Sys2Proof.Machine
end

section
/-!
SUPPORT. The one memory access of each block step (spec/20_memory.md R63): which byte it reads or writes, that it changes no
other byte, and that a byte stored elsewhere before the step is the same byte stored after it.
-/

namespace Sys2Proof.Machine

/-! ### What an access is -/

/-- The access of a block step: none, the read of a byte, or the write of one. -/
inductive Access where
  | quiet
  | read (a : Nat)
  | write (a : Nat)

/-- The block step's answer with `v` stored at `a` in the memory it goes on with. -/
def Micro.stored {ω : Type} (a : Nat) (v : Byte) (x : Micro ω) : Micro ω :=
  match x with
  | .goOn m w => .goOn (Memory.set m a v) w
  | .complete r => .complete r
  | .raise e => .raise e

/-- The action of a sink with `v` stored at `a` in the memory it answers. -/
def sinkStored {σ : Type} (a : Nat) (v : Byte) (r : Except Err (Memory × σ)) : Except Err (Memory × σ) :=
  match r with
  | .ok (m, x) => .ok (Memory.set m a v, x)
  | .error e => .error e

/-- Writes to two places give the same memory in either order. -/
theorem Memory.set_comm {m : Memory} {a b : Nat} (v w : Byte) (hm : Memory.wf m) (h : a ≠ b) :
    Memory.set (Memory.set m a v) b w = Memory.set (Memory.set m b w) a v := by
  have ha := Memory.wf_set m a v hm
  have hb := Memory.wf_set m b w hm
  refine Memory.ext_get _ _ (Memory.wf_set _ b w ha) (Memory.wf_set _ a v hb) fun x => ?_
  rw [Memory.get_set _ b x w ha, Memory.get_set _ a x v hm, Memory.get_set _ a x v hb, Memory.get_set _ b x w hm]
  by_cases hxa : x = a
  · simp [hxa, h]
  · simp [hxa]

/-- A block step whose only access is `acc`, seen from the byte `a`: `x` is its answer from `s`, and `x'` is its answer
when `v` was stored at `a` before. -/
structure MakesOnly {ω : Type} (s : State) (a : Nat) (v : Byte) (acc : Access) (x x' : Micro ω) : Prop where
  /-- It changes the byte only when it writes there. -/
  frame : acc ≠ .write a → ∀ m w, x = .goOn m w → Memory.get m a = Memory.get s.mem a
  /-- The store has the same effect before it and after it, unless the access is to that byte. -/
  commutes : Memory.wf s.mem → acc ≠ .read a → acc ≠ .write a → x' = x.stored a v
  /-- An access below `MEM_BYTES` is no fault. -/
  goesOn : acc = .read a ∨ acc = .write a → a < s.config.memBytes → ∃ m w, x = .goOn m w

/-- An action of a sink whose only access is `acc`, in the same way. -/
structure SinkMakesOnly {σ : Type} (s : State) (a : Nat) (v : Byte) (acc : Access) (r r' : Except Err (Memory × σ)) :
    Prop where
  frame : acc ≠ .write a → ∀ m x, r = .ok (m, x) → Memory.get m a = Memory.get s.mem a
  commutes : Memory.wf s.mem → acc ≠ .read a → acc ≠ .write a → r' = sinkStored a v r
  /-- It ends the command only by a write outside memory. -/
  goesOn : (∀ b, acc = .write b → b < s.config.memBytes) → ∃ z, r = .ok z

/-- The access of each of a sink's three actions. -/
structure SinkAccess (σ : Type) where
  first : State → ReplayVars → σ → Access
  second : State → ReplayVars → σ → Access
  tail : State → ReplayVars → σ → Access

section
variable {ω σ : Type} {s : State} {a : Nat} {v : Byte}

theorem SinkMakesOnly.keep (x : σ) :
    SinkMakesOnly s a v .quiet (.ok (s.mem, x)) (.ok ((s.setMem (Memory.set s.mem a v)).mem, x)) where
  frame _ _ _ h := by cases h; rfl
  commutes _ _ _ := rfl
  goesOn _ := ⟨_, rfl⟩

theorem SinkMakesOnly.write (b : Nat) (u : Byte) (x : σ) :
    SinkMakesOnly s a v (.write b) (sinkWrite s b u x) (sinkWrite (s.setMem (Memory.set s.mem a v)) b u x) where
  frame hb m y h := by
    rw [sinkWrite_eq] at h
    split at h
    · cases h
      exact Memory.get_set_ne s.mem b a u fun hab => hb (by rw [hab])
    · cases h
  commutes hwf _ hb := by
    rw [sinkWrite_eq, sinkWrite_eq, State.setMem_config, State.setMem_mem]
    split
    · rw [Memory.set_comm v u hwf fun hab => hb (by rw [hab])]
      rfl
    · rfl
  goesOn hb := ⟨_, by rw [sinkWrite_eq, if_pos (hb b rfl)]⟩

theorem SinkMakesOnly.ite {c : Prop} [Decidable c] {p q : Access} {x x' y y' : Except Err (Memory × σ)}
    (hx : SinkMakesOnly s a v p x x') (hy : SinkMakesOnly s a v q y y') :
    SinkMakesOnly s a v (if c then p else q) (if c then x else y) (if c then x' else y') := by
  by_cases hc : c
  · simpa only [if_pos hc] using hx
  · simpa only [if_neg hc] using hy

theorem MakesOnly.sinking {acc : Access} {r r' : Except Err (Memory × σ)} (h : SinkMakesOnly s a v acc r r')
    (k : σ → ω) : MakesOnly s a v acc (Micro.sinking r k) (Micro.sinking r' k) where
  frame ha m w hgo := by
    obtain ⟨x, hx, -⟩ := sinking_goOn hgo
    exact h.frame ha m x hx
  commutes hwf hr hw := by
    rw [h.commutes hwf hr hw]
    cases r <;> rfl
  goesOn hacc ha := by
    have hin : ∀ b, acc = .write b → b < s.config.memBytes := fun b hb => by
      obtain hr | hw := hacc
      · rw [hr] at hb; cases hb
      · rw [hw] at hb; cases hb; exact ha
    obtain ⟨z, rfl⟩ := h.goesOn hin
    exact ⟨_, _, rfl⟩

theorem MakesOnly.internal (w : ω) :
    MakesOnly s a v .quiet (Micro.internal s w) (Micro.internal (s.setMem (Memory.set s.mem a v)) w) :=
  .sinking (.keep w) id

theorem Micro.writing_eq_sinking (s : State) (b : Nat) (u : Byte) (w : ω) :
    Micro.writing s b u w = Micro.sinking (sinkWrite s b u w) id := by
  unfold Micro.writing sinkWrite
  cases memWrite s b u <;> rfl

theorem MakesOnly.writing (b : Nat) (u : Byte) (w : ω) :
    MakesOnly s a v (.write b) (Micro.writing s b u w)
      (Micro.writing (s.setMem (Memory.set s.mem a v)) b u w) := by
  rw [Micro.writing_eq_sinking, Micro.writing_eq_sinking]
  exact .sinking (.write b u w) id

theorem MakesOnly.reading (b : Nat) (k : Byte → ω) :
    MakesOnly s a v (.read b) (Micro.reading s b k) (Micro.reading (s.setMem (Memory.set s.mem a v)) b k) where
  frame _ m w h := by rw [(reading_goOn h).2.1]
  commutes _ hb _ := by
    rw [Micro.reading_eq, Micro.reading_eq, State.setMem_config, State.setMem_mem,
      Memory.get_set_ne s.mem a b v fun hba => hb (by rw [hba])]
    split <;> rfl
  goesOn hb ha := by
    obtain hb | hb := hb
    · cases hb
      exact ⟨_, _, by rw [Micro.reading_eq, if_pos ha]⟩
    · cases hb

theorem MakesOnly.complete (r : Word) : MakesOnly (ω := ω) s a v .quiet (.complete r) (.complete r) :=
  ⟨nofun, fun _ _ _ => rfl, nofun⟩

theorem MakesOnly.raise (e : Err) : MakesOnly (ω := ω) s a v .quiet (.raise e) (.raise e) :=
  ⟨nofun, fun _ _ _ => rfl, nofun⟩

theorem MakesOnly.ite {c : Prop} [Decidable c] {p q : Access} {x x' y y' : Micro ω} (hx : MakesOnly s a v p x x')
    (hy : MakesOnly s a v q y y') :
    MakesOnly s a v (if c then p else q) (if c then x else y) (if c then x' else y') := by
  by_cases hc : c
  · simpa only [if_pos hc] using hx
  · simpa only [if_neg hc] using hy

/-- Two branches with the same access. -/
theorem MakesOnly.either {c : Prop} [Decidable c] {p : Access} {x x' y y' : Micro ω} (hx : MakesOnly s a v p x x')
    (hy : MakesOnly s a v p y y') : MakesOnly s a v p (if c then x else y) (if c then x' else y') := by
  simpa only [ite_self] using MakesOnly.ite (c := c) hx hy

end

/-! ### The access of each command's next block step -/

/-- GETBIT's access (spec/40_bit_primitives.md R100). -/
def getbitAccess (s : State) (w : GetbitWork) : Access :=
  match w with
  | .read => .read (getbitAddr s)
  | .got _ => .quiet

/-- PUTBIT's access (R101). -/
def putbitAccess (s : State) (w : PutbitWork) : Access :=
  match w with
  | .read => .read (putbitAddr s)
  | .write _ => .write (putbitAddr s)
  | .done => .quiet

/-- PACK's access (spec/41_packer.md R120). -/
def packAccess (s : State) (w : PackWork) : Access :=
  match w with
  | .entry => .quiet
  | .read c j _ => if 8 * c + j < s.arg2Nat then .read (s.srcBase + (8 * c + j)) else .quiet
  | .check _ _ _ _ => .quiet
  | .write c _ => .write (s.dstBase + c)
  | .done => .quiet

/-- RLEENC's access (spec/42_rle_encoder.md R140). -/
def rleencAccess (s : State) (w : EncWork) : Access :=
  match w with
  | .entry => .quiet
  | .header0 => .write (s.dstBase + 0)
  | .header1 => .write (s.dstBase + 1)
  | .pixel v => if v.i < s.encPixels then if v.i % 8 = 0 then .read (s.srcBase + v.i / 8) else .quiet else .quiet
  | .bit _ => .quiet
  | .emit v _ _ => .write (s.dstBase + v.o)
  | .emitZero v _ _ => .write (s.dstBase + v.o)
  | .done _ => .quiet

/-- A decoding command's access (spec/43_rle_decoder.md R160, R163), with the accesses of its sink. -/
def decodeAccess {σ : Type} (acc : SinkAccess σ) (s : State) (w : DecWork σ) : Access :=
  match w with
  | .entry => .quiet
  | .header0 => .read (s.srcBase + 0)
  | .header1 _ => .read (s.srcBase + 1)
  | .header _ _ => .quiet
  | .next v _ =>
    if v.total < v.pixels then if v.p ≥ s.arg3Nat then .quiet else .read (s.srcBase + v.p) else .quiet
  | .overrun _ _ _ => .quiet
  | .put v x left =>
    match left with
    | 0 => .quiet
    | _ + 1 => acc.first s v x
  | .putEnd v x _ => acc.second s v x
  | .tail v x => acc.tail s v x
  | .done _ _ => .quiet

/-- The accesses of RLEDEC's Put and end (R161). -/
def packedAccess : SinkAccess Byte where
  first := fun _ _ _ => .quiet
  second := fun s v _ => if v.total % 8 = 7 then .write (s.dstBase + v.total / 8) else .quiet
  tail := fun s v _ => if v.pixels % 8 ≠ 0 then .write (s.dstBase + v.pixels / 8) else .quiet

/-- The accesses of RLEREND's Put (R162). -/
def textAccess : SinkAccess Nat where
  first := fun s _ q => .write (s.dstBase + q)
  second := fun s v q => if (v.total + 1) % v.cols.toNat = 0 then .write (s.dstBase + q) else .quiet
  tail := fun _ _ _ => .quiet

/-- The access of the next block step of command `i`. -/
def commandAccess (i : Instr) (s : State) (w : (commandBody i).Vars) : Access :=
  match i, w with
  | .getbit, w => getbitAccess s w
  | .putbit, w => putbitAccess s w
  | .pack, w => packAccess s w
  | .rleenc, w => rleencAccess s w
  | .rledec, w => decodeAccess packedAccess s w
  | .rlerend, w => decodeAccess textAccess s w

/-- Each action of the sink makes the access that `acc` names. -/
structure SinkAccess.Of {σ : Type} (acc : SinkAccess σ) (k : Sink σ) : Prop where
  first : ∀ s v x a u, SinkMakesOnly s a u (acc.first s v x) (k.first s v x)
    (k.first (s.setMem (Memory.set s.mem a u)) v x)
  second : ∀ s v x a u, SinkMakesOnly s a u (acc.second s v x) (k.second s v x)
    (k.second (s.setMem (Memory.set s.mem a u)) v x)
  tail : ∀ s v x a u, SinkMakesOnly s a u (acc.tail s v x) (k.tail s v x)
    (k.tail (s.setMem (Memory.set s.mem a u)) v x)

theorem packedAccess_of : packedAccess.Of packedSink where
  first _ _ _ _ _ := .keep _
  second _ _ _ _ _ := .ite (.write _ _ _) (.keep _)
  tail _ _ _ _ _ := .ite (.write _ _ _) (.keep _)

theorem textAccess_of : textAccess.Of textSink where
  first _ _ _ _ _ := .write _ _ _
  second _ _ _ _ _ := .ite (.write _ _ _) (.keep _)
  tail _ _ _ _ _ := .keep _

section
variable (s : State) (a : Nat) (v : Byte)

theorem getbitStep_makesOnly (w : GetbitWork) :
    MakesOnly s a v (getbitAccess s w) (getbitStep s w) (getbitStep (s.setMem (Memory.set s.mem a v)) w) := by
  cases w with
  | read => exact .reading _ _
  | got b => exact .complete _

theorem putbitStep_makesOnly (w : PutbitWork) :
    MakesOnly s a v (putbitAccess s w) (putbitStep s w) (putbitStep (s.setMem (Memory.set s.mem a v)) w) := by
  cases w with
  | read => exact .reading _ _
  | write b => exact .writing _ _ _
  | done => exact .complete _

theorem packStep_makesOnly (w : PackWork) :
    MakesOnly s a v (packAccess s w) (packStep s w) (packStep (s.setMem (Memory.set s.mem a v)) w) := by
  cases w with
  | entry => exact .either (.raise _) (.internal _)
  | read c j acc => exact .ite (.reading _ _) (.internal _)
  | check c j acc ch => exact .either (.internal _) (.either (.internal _) (.raise _))
  | write c acc => exact .writing _ _ _
  | done => exact .complete _

theorem rleencStep_makesOnly (w : EncWork) :
    MakesOnly s a v (rleencAccess s w) (rleencStep s w) (rleencStep (s.setMem (Memory.set s.mem a v)) w) := by
  cases w with
  | entry => exact .either (.raise _) (.either (.raise _) (.internal _))
  | header0 => exact .writing _ _ _
  | header1 => exact .writing _ _ _
  | pixel u => exact .ite (.ite (.reading _ _) (.internal _)) (.internal _)
  | bit u => exact .either (.internal _) (.internal _)
  | emit u k last => exact .either (.writing _ _ _) (.writing _ _ _)
  | emitZero u k last => exact .writing _ _ _
  | done u => exact .complete _

theorem decodeStep_makesOnly {σ : Type} {acc : SinkAccess σ} {k : Sink σ} (hk : acc.Of k) (w : DecWork σ) :
    MakesOnly s a v (decodeAccess acc s w) (decodeStep k s w)
      (decodeStep k (s.setMem (Memory.set s.mem a v)) w) := by
  cases w with
  | entry => exact .either (.raise _) (.internal _)
  | header0 => exact .reading _ _
  | header1 rows => exact .reading _ _
  | header rows cols => exact .either (.raise _) (.internal _)
  | next u x => exact .ite (.ite (.raise _) (.reading _ _)) (.internal _)
  | overrun u x run => exact .either (.raise _) (.internal _)
  | put u x left =>
    cases left with
    | zero => exact .internal _
    | succ n => exact .sinking (hk.first s u x a v) _
  | putEnd u x left => exact .sinking (hk.second s u x a v) _
  | tail u x => exact .sinking (hk.tail s u x a v) _
  | done u x => exact .complete _

/-- The next block step of every command makes the access that `commandAccess` names, and no other. -/
theorem commandBody_step_makesOnly (i : Instr) (w : (commandBody i).Vars) :
    MakesOnly s a v (commandAccess i s w) ((commandBody i).step s w)
      ((commandBody i).step (s.setMem (Memory.set s.mem a v)) w) := by
  cases i with
  | getbit => exact getbitStep_makesOnly s a v w
  | putbit => exact putbitStep_makesOnly s a v w
  | pack => exact packStep_makesOnly s a v w
  | rleenc => exact rleencStep_makesOnly s a v w
  | rledec => exact decodeStep_makesOnly s a v packedAccess_of w
  | rlerend => exact decodeStep_makesOnly s a v textAccess_of w

end

end Sys2Proof.Machine
end

section
/-!
SUPPORT. The ranges of a running command (spec/20_memory.md R62) at any point of it: every access falls into them, no block
step changes them, so a run changes no byte outside the "writes" range and a store outside both commutes with the run.
-/

namespace Sys2Proof.Machine

/-! ### How far a run gets is the same from each of its points -/

/-- A property that every block step keeps holds where a walk ends. -/
theorem walk_induction {ω : Type} {f : State → ω → Micro ω} {P : State → ω → Prop}
    (hgo : ∀ s w m w', P s w → f s w = .goOn m w' → P (s.setMem m) w') {j : Nat} {w w' : ω} {s s' : State}
    (h : walk f j w s = some (w', s')) (hP : P s w) : P s' w' := by
  induction j generalizing w s with
  | zero => cases h; exact hP
  | succ j ih =>
    simp only [walk] at h
    split at h
    · exact ih h (hgo s w _ _ hP ‹_›)
    · cases h
    · cases h

theorem not_endsNext_of_goOn {ω : Type} {f : State → ω → Micro ω} {s : State} {w w' : ω} {m : Memory}
    (h : f s w = .goOn m w') : ¬EndsNext f s w := by
  unfold EndsNext
  rw [h]
  rintro (⟨_, hx⟩ | ⟨_, hx⟩)
  · cases hx
  · cases hx

/-- How far a command has got at `w`: the bytes RLEENC has written, and those a decoding command has read. -/
def commandMark (i : Instr) (w : (commandBody i).Vars) : Nat :=
  match i, w with
  | .getbit, _ => 0
  | .putbit, _ => 0
  | .pack, _ => 0
  | .rleenc, w => EncWork.written w
  | .rledec, w => DecWork.bytesRead w
  | .rlerend, w => DecWork.bytesRead w

/-- How far a command at `w` gets until it ends. -/
def reach (i : Instr) (s : State) (w : (commandBody i).Vars) : Nat :=
  runMark (commandBody i).step (commandMark i) Config.blockStepBound w s

section
variable {i : Instr} {s : State} {w w' : (commandBody i).Vars} {m : Memory}

theorem commandMark_mono (h : (commandBody i).step s w = .goOn m w') : commandMark i w ≤ commandMark i w' := by
  cases i with
  | rleenc => exact rleencStep_written h
  | rledec => exact decodeStep_bytesRead h
  | rlerend => exact decodeStep_bytesRead h
  | getbit | putbit | pack => exact Nat.le_refl 0

theorem commandMark_le_reach (i : Instr) (s : State) (w : (commandBody i).Vars) : commandMark i w ≤ reach i s w :=
  le_runMark (fun _ _ _ _ => commandMark_mono) _ w s

/-- A command ends within the bound on block steps, at the mark it reaches. -/
theorem walk_to_reach (hw : ((commandBody i).wrap w).ok s) :
    ∃ j w' s', j < Config.blockStepBound ∧ walk (commandBody i).step j w s = some (w', s') ∧
      EndsNext (commandBody i).step s' w' ∧ reach i s w = commandMark i w' := by
  obtain ⟨j, w', s', hj, hwalk, hend⟩ := walk_to_end hw
  exact ⟨j, w', s', hj, hwalk, hend, runMark_walk j _ w w' s s' hwalk hend hj⟩

theorem reach_step (hw : ((commandBody i).wrap w).ok s) (h : (commandBody i).step s w = .goOn m w') :
    reach i (s.setMem m) w' = reach i s w := by
  obtain ⟨j, w₁, s₁, hj, hwalk, hend, hreach⟩ := walk_to_reach hw
  cases j with
  | zero =>
    cases hwalk
    exact absurd hend (not_endsNext_of_goOn h)
  | succ j =>
    rw [walk_succ j w s m w' h] at hwalk
    rw [hreach]
    exact runMark_walk j _ w' w₁ _ s₁ hwalk hend (by omega)

/-- A command gets at least as far as its next block step does. -/
theorem commandMark_le_reach_of_goOn (hw : ((commandBody i).wrap w).ok s)
    (h : (commandBody i).step s w = .goOn m w') : commandMark i w' ≤ reach i s w := by
  rw [← reach_step hw h]
  exact commandMark_le_reach i _ w'

end

/-! ### Where a decoding command writes -/

/-- How many bytes RLEDEC writes for the header bytes `d` (spec/20_memory.md R62). -/
def packedLen (d : Byte × Byte) : Nat := ceil8 (d.1.toNat * d.2.toNat)

/-- How many bytes RLEREND writes for the header bytes `d` (R62). -/
def textLen (d : Byte × Byte) : Nat := d.1.toNat * d.2.toNat + d.1.toNat

/-- Every write of the sink falls into the first `len` bytes of the destination, for the header bytes of the stream. -/
def SinkAccess.Within {σ : Type} (acc : SinkAccess σ) (own : ReplayVars → Bool → σ → Prop) (len : Byte × Byte → Nat) :
    Prop :=
  ∀ (s : State) (w : DecWork σ) (b : Nat), w.ok own s → decodeAccess acc s w = .write b →
    ∃ o < len (decDims s w), b = s.dstBase + o

/-- A decoding command writes in its three sink actions only, with the header read and checked. -/
theorem decodeAccess_write {σ : Type} {acc : SinkAccess σ} {own : ReplayVars → Bool → σ → Prop} {s : State}
    {w : DecWork σ} {b : Nat} (hw : w.ok own s) (h : decodeAccess acc s w = .write b) :
    ∃ v x, decDims s w = (v.rows, v.cols) ∧ v.ok s ∧
      ((v.total < v.pixels ∧ own v false x ∧ acc.first s v x = .write b) ∨
        (v.total < v.pixels ∧ own v true x ∧ acc.second s v x = .write b) ∨
        (v.total = v.pixels ∧ own v false x ∧ acc.tail s v x = .write b)) := by
  cases w with
  | next v x =>
    simp only [decodeAccess] at h
    split at h
    · split at h <;> cases h
    · cases h
  | put v x left =>
    cases left with
    | zero => cases h
    | succ n =>
      obtain ⟨hv, ht, -, hx⟩ := hw
      exact ⟨v, x, rfl, hv, .inl ⟨by omega, hx, h⟩⟩
  | putEnd v x left =>
    obtain ⟨hv, h1, ht, -, hx⟩ := hw
    exact ⟨v, x, rfl, hv, .inr (.inl ⟨by omega, hx, h⟩)⟩
  | tail v x =>
    obtain ⟨hv, ht, hx⟩ := hw
    exact ⟨v, x, rfl, hv, .inr (.inr ⟨ht, hx, h⟩)⟩
  | entry | header0 | header1 rows | header rows cols | overrun v x run | done v x => cases h

theorem packedAccess_within : packedAccess.Within accOk packedLen := by
  intro s w b hw h
  obtain ⟨v, x, hd, -, ⟨-, -, hacc⟩ | ⟨ht, -, hacc⟩ | ⟨-, -, hacc⟩⟩ := decodeAccess_write hw h
  · cases hacc
  · simp only [packedAccess] at hacc
    split at hacc
    · cases hacc
      refine ⟨v.total / 8, ?_, rfl⟩
      rw [hd]
      show v.total / 8 < (v.pixels + 7) / 8
      omega
    · cases hacc
  · simp only [packedAccess] at hacc
    split at hacc
    · cases hacc
      refine ⟨v.pixels / 8, ?_, rfl⟩
      rw [hd]
      show v.pixels / 8 < (v.pixels + 7) / 8
      omega
    · cases hacc

theorem textAccess_within : textAccess.Within offsetOk textLen := by
  intro s w b hw h
  obtain ⟨v, q, hd, hv, hcases⟩ := decodeAccess_write hw h
  rw [hd]
  suffices ∃ o < v.pixels + v.rows.toNat, b = s.dstBase + o from this
  have hrow : v.total < v.pixels → v.total / v.cols.toNat < v.rows.toNat := fun ht =>
    Nat.div_lt_of_lt_mul (by rw [Nat.mul_comm]; exact ht)
  obtain ⟨ht, hq, hacc⟩ | ⟨ht, hq, hacc⟩ | ⟨-, -, hacc⟩ := hcases
  · cases hacc
    have := hrow ht
    refine ⟨q, ?_, rfl⟩
    simp only [offsetOk, Bool.false_eq_true, if_false] at hq
    omega
  · simp only [textAccess] at hacc
    split at hacc
    · cases hacc
      have := hrow ht
      refine ⟨q, ?_, rfl⟩
      simp only [offsetOk, if_true] at hq
      omega
    · cases hacc
  · cases hacc

/-- The header bytes of the stream stay the same, whether they are still in memory or already read. -/
theorem decDims_step {σ : Type} {k : Sink σ} {s : State} {w w' : DecWork σ} {m : Memory}
    (h : decodeStep k s w = .goOn m w') : decDims (s.setMem m) w' = decDims s w := by
  cases w with
  | entry =>
    simp only [decodeStep] at h
    split at h
    · cases h
    · obtain ⟨rfl, rfl⟩ := internal_goOn h; rfl
  | header0 => obtain ⟨-, rfl, rfl⟩ := reading_goOn h; rfl
  | header1 rows => obtain ⟨-, rfl, rfl⟩ := reading_goOn h; rfl
  | header rows cols =>
    simp only [decodeStep] at h
    split at h
    · cases h
    · obtain ⟨-, rfl⟩ := internal_goOn h; rfl
  | next v x =>
    simp only [decodeStep] at h
    split at h
    · split at h
      · cases h
      · obtain ⟨-, -, rfl⟩ := reading_goOn h; rfl
    · obtain ⟨-, rfl⟩ := internal_goOn h; rfl
  | overrun v x run =>
    simp only [decodeStep] at h
    split at h
    · cases h
    · obtain ⟨-, rfl⟩ := internal_goOn h; rfl
  | put v x left =>
    cases left with
    | zero => obtain ⟨-, rfl⟩ := internal_goOn h; rfl
    | succ n => obtain ⟨y, -, rfl⟩ := sinking_goOn h; rfl
  | putEnd v x left => obtain ⟨y, -, rfl⟩ := sinking_goOn h; rfl
  | tail v x => obtain ⟨y, -, rfl⟩ := sinking_goOn h; rfl
  | done v x => cases h

/-! ### The ranges at any point of a command -/

/-- The "reads" range of command `i` at `w`. -/
def readSpan (i : Instr) (s : State) (w : (commandBody i).Vars) : Span :=
  match i, w with
  | .getbit, _ => readsOf .getbit s
  | .putbit, _ => readsOf .putbit s
  | .pack, _ => readsOf .pack s
  | .rleenc, _ => readsOf .rleenc s
  | .rledec, w => { base := s.srcBase, len := reach .rledec s w }
  | .rlerend, w => { base := s.srcBase, len := reach .rlerend s w }

/-- The "writes" range of command `i` at `w`. -/
def writeSpan (i : Instr) (s : State) (w : (commandBody i).Vars) : Span :=
  match i, w with
  | .getbit, _ => writesOf .getbit s
  | .putbit, _ => writesOf .putbit s
  | .pack, _ => writesOf .pack s
  | .rleenc, w => { base := s.dstBase, len := reach .rleenc s w }
  | .rledec, w => decWrites s (decDims s w) (packedLen (decDims s w))
  | .rlerend, w => decWrites s (decDims s w) (textLen (decDims s w))

theorem rledecDims_eq (s : State) : rledecDims s = decDims s (rledecEnter s.work) := by
  unfold rledecDims rledecEnter
  cases s.work with
  | none => rfl
  | some w => cases w <;> rfl

theorem rlerendDims_eq (s : State) : rlerendDims s = decDims s (rlerendEnter s.work) := by
  unfold rlerendDims rlerendEnter
  cases s.work with
  | none => rfl
  | some w => cases w <;> rfl

theorem readsOf_eq_readSpan (i : Instr) (s : State) : readsOf i s = readSpan i s ((commandBody i).enter s.work) := by
  cases i <;> rfl

theorem writesOf_eq_writeSpan (i : Instr) (s : State) :
    writesOf i s = writeSpan i s ((commandBody i).enter s.work) := by
  cases i with
  | rledec => simp only [writesOf, rledecDims_eq]; rfl
  | rlerend => simp only [writesOf, rlerendDims_eq]; rfl
  | getbit | putbit | pack | rleenc => rfl

section
variable {i : Instr} {s : State} {w w' : (commandBody i).Vars} {m : Memory}

theorem readSpan_step (hw : ((commandBody i).wrap w).ok s) (h : (commandBody i).step s w = .goOn m w') :
    readSpan i (s.setMem m) w' = readSpan i s w := by
  cases i with
  | rledec => exact congrArg (Span.mk s.srcBase) (reach_step hw h)
  | rlerend => exact congrArg (Span.mk s.srcBase) (reach_step hw h)
  | getbit | putbit | pack | rleenc => rfl

theorem writeSpan_step (hw : ((commandBody i).wrap w).ok s) (h : (commandBody i).step s w = .goOn m w') :
    writeSpan i (s.setMem m) w' = writeSpan i s w := by
  cases i with
  | rleenc => exact congrArg (Span.mk s.dstBase) (reach_step hw h)
  | rledec => exact congrArg (fun d => decWrites s d (packedLen d)) (decDims_step h)
  | rlerend => exact congrArg (fun d => decWrites s d (textLen d)) (decDims_step h)
  | getbit | putbit | pack => rfl

end

/-! ### Every access falls into the ranges -/

theorem packAccess_read {s : State} {w : PackWork} {b : Nat} (hb : packAccess s w = .read b) :
    (readsOf .pack s).contains b := by
  cases w with
  | read c j acc =>
    simp only [packAccess] at hb
    split at hb
    · cases hb
      exact ⟨Nat.le_add_right _ _, Nat.add_lt_add_left ‹_› _⟩
    · cases hb
  | entry | check c j acc ch | write c acc | done => cases hb

theorem packAccess_write {s : State} {w : PackWork} {b : Nat} (hw : w.ok s) (hb : packAccess s w = .write b) :
    (writesOf .pack s).contains b := by
  cases w with
  | read c j acc =>
    simp only [packAccess] at hb
    split at hb <;> cases hb
  | write c acc =>
    cases hb
    exact ⟨Nat.le_add_right _ _, Nat.add_lt_add_left hw _⟩
  | entry | check c j acc ch | done => cases hb

theorem readsOf_rleenc (s : State) :
    readsOf .rleenc s =
      if encChecksPass s then { base := s.srcBase, len := ceil8 s.encPixels } else Span.none := rfl

theorem rleencAccess_read {s : State} {w : EncWork} {b : Nat} (hw : w.ok s) (hb : rleencAccess s w = .read b) :
    (readsOf .rleenc s).contains b := by
  cases w with
  | pixel v =>
    simp only [rleencAccess] at hb
    split at hb
    · split at hb
      · cases hb
        rw [readsOf_rleenc, if_pos hw.1]
        refine ⟨Nat.le_add_right _ _, Nat.add_lt_add_left ?_ _⟩
        show v.i / 8 < (s.encPixels + 7) / 8
        omega
      · cases hb
    · cases hb
  | entry | header0 | header1 | bit v | emit v k last | emitZero v k last | done v => cases hb

/-- A write of RLEENC is of the byte at its offset, which is then written. -/
theorem rleencAccess_write {s : State} {w w' : EncWork} {m : Memory} {b : Nat} (h : rleencStep s w = .goOn m w')
    (hb : rleencAccess s w = .write b) : ∃ o < w'.written, b = s.dstBase + o := by
  cases w with
  | pixel v =>
    simp only [rleencAccess] at hb
    split at hb
    · split at hb <;> cases hb
    · cases hb
  | header0 => cases hb; obtain ⟨-, -, rfl⟩ := writing_goOn h; exact ⟨0, Nat.one_pos, rfl⟩
  | header1 => cases hb; obtain ⟨-, -, rfl⟩ := writing_goOn h; exact ⟨1, Nat.one_lt_two, rfl⟩
  | emit v k last =>
    cases hb
    simp only [rleencStep] at h
    split at h
    · obtain ⟨-, -, rfl⟩ := writing_goOn h
      exact ⟨v.o, Nat.lt_succ_self _, rfl⟩
    · obtain ⟨-, -, rfl⟩ := writing_goOn h
      cases last <;> exact ⟨v.o, Nat.lt_succ_self _, rfl⟩
  | emitZero v k last => cases hb; obtain ⟨-, -, rfl⟩ := writing_goOn h; exact ⟨v.o, Nat.lt_succ_self _, rfl⟩
  | entry | bit v | done v => cases hb

/-- What a sink adds to a decoding command's accesses are writes. -/
structure SinkAccess.NoRead {σ : Type} (acc : SinkAccess σ) : Prop where
  first : ∀ s v x b, acc.first s v x ≠ .read b
  second : ∀ s v x b, acc.second s v x ≠ .read b
  tail : ∀ s v x b, acc.tail s v x ≠ .read b

theorem packedAccess_noRead : packedAccess.NoRead where
  first := nofun
  second s v x b := by simp only [packedAccess]; split <;> nofun
  tail s v x b := by simp only [packedAccess]; split <;> nofun

theorem textAccess_noRead : textAccess.NoRead where
  first := nofun
  second s v x b := by simp only [textAccess]; split <;> nofun
  tail := nofun

/-- A read of a decoding command is of the next byte of its stream, which is then read. -/
theorem decodeAccess_read {σ : Type} {k : Sink σ} {acc : SinkAccess σ} (hacc : acc.NoRead) {s : State}
    {w w' : DecWork σ} {m : Memory} {b : Nat} (h : decodeStep k s w = .goOn m w')
    (hb : decodeAccess acc s w = .read b) : ∃ p < w'.bytesRead, b = s.srcBase + p := by
  cases w with
  | header0 => cases hb; obtain ⟨-, -, rfl⟩ := reading_goOn h; exact ⟨0, Nat.one_pos, rfl⟩
  | header1 rows => cases hb; obtain ⟨-, -, rfl⟩ := reading_goOn h; exact ⟨1, Nat.one_lt_two, rfl⟩
  | next v x =>
    simp only [decodeAccess] at hb
    simp only [decodeStep] at h
    split at hb
    · rename_i hlt
      rw [if_pos hlt] at h
      split at hb
      · cases hb
      · rename_i hp
        rw [if_neg hp] at h
        cases hb
        obtain ⟨-, -, rfl⟩ := reading_goOn h
        exact ⟨v.p, Nat.lt_succ_self _, rfl⟩
    · cases hb
  | put v x left =>
    cases left with
    | zero => cases hb
    | succ n => exact absurd hb (hacc.first s v x b)
  | putEnd v x left => exact absurd hb (hacc.second s v x b)
  | tail v x => exact absurd hb (hacc.tail s v x b)
  | entry | header rows cols | overrun v x run | done v x => cases hb

/-- With a header of at least 1 by 1 pixels the "writes" range is the output bytes. -/
theorem decWrites_contains_of_header {s : State} {d : Byte × Byte} {n b : Nat} (hlen : 2 ≤ s.arg3Nat) (hr : d.1 ≠ 0#8)
    (hc : d.2 ≠ 0#8) (hb : (Span.mk s.dstBase n).contains b) : (decWrites s d n).contains b := by
  rw [decWrites, if_pos ⟨hlen, hr, hc⟩]
  exact hb

/-- The "writes" range of a decoding command holds every write of its sink. -/
theorem decWrites_contains {σ : Type} {acc : SinkAccess σ} {own : ReplayVars → Bool → σ → Prop}
    {len : Byte × Byte → Nat} (hlen : acc.Within own len) {s : State} {w : DecWork σ} {b : Nat} (hw : w.ok own s)
    (hb : decodeAccess acc s w = .write b) : (decWrites s (decDims s w) (len (decDims s w))).contains b := by
  obtain ⟨o, ho, rfl⟩ := hlen s w b hw hb
  obtain ⟨v, x, hd, ⟨hr, hc, hp2, hp⟩, -⟩ := decodeAccess_write hw hb
  refine decWrites_contains_of_header (le_trans hp2 hp) ?_ ?_ ⟨Nat.le_add_right _ _, Nat.add_lt_add_left ho _⟩
  · rw [hd]; exact hr
  · rw [hd]; exact hc

section
variable {i : Instr} {s : State} {w w' : (commandBody i).Vars} {m : Memory} {b : Nat}

theorem readSpan_contains (hw : ((commandBody i).wrap w).ok s) (h : (commandBody i).step s w = .goOn m w')
    (hb : commandAccess i s w = .read b) : (readSpan i s w).contains b := by
  cases i with
  | getbit =>
    cases w with
    | read => cases hb; exact ⟨Nat.le_refl _, Nat.lt_succ_self _⟩
    | got _ => cases hb
  | putbit =>
    cases w with
    | read => cases hb; exact ⟨Nat.le_refl _, Nat.lt_succ_self _⟩
    | write _ | done => cases hb
  | pack => exact packAccess_read hb
  | rleenc => exact rleencAccess_read hw hb
  | rledec =>
    obtain ⟨p, hp, rfl⟩ := decodeAccess_read packedAccess_noRead h hb
    exact ⟨Nat.le_add_right _ _, Nat.add_lt_add_left (lt_of_lt_of_le hp (commandMark_le_reach_of_goOn hw h)) _⟩
  | rlerend =>
    obtain ⟨p, hp, rfl⟩ := decodeAccess_read textAccess_noRead h hb
    exact ⟨Nat.le_add_right _ _, Nat.add_lt_add_left (lt_of_lt_of_le hp (commandMark_le_reach_of_goOn hw h)) _⟩

theorem writeSpan_contains (hw : ((commandBody i).wrap w).ok s) (h : (commandBody i).step s w = .goOn m w')
    (hb : commandAccess i s w = .write b) : (writeSpan i s w).contains b := by
  cases i with
  | getbit => cases w <;> cases hb
  | putbit =>
    cases w with
    | write _ => cases hb; exact ⟨Nat.le_refl _, Nat.lt_succ_self _⟩
    | read | done => cases hb
  | pack => exact packAccess_write hw hb
  | rleenc =>
    obtain ⟨o, ho, rfl⟩ := rleencAccess_write h hb
    exact ⟨Nat.le_add_right _ _, Nat.add_lt_add_left (lt_of_lt_of_le ho (commandMark_le_reach_of_goOn hw h)) _⟩
  | rledec => exact decWrites_contains packedAccess_within hw hb
  | rlerend => exact decWrites_contains textAccess_within hw hb

end

/-! ### What a run leaves alone -/

section
variable {i : Instr} {s t : State} {a : Nat}

/-- A run changes no byte outside its "writes" range. -/
theorem runCommand_frame {w : (commandBody i).Vars} (hw : ((commandBody i).wrap w).ok s)
    (ha : ¬(writeSpan i s w).contains a) (k : Nat) :
    Memory.get (runCommand i k w s).mem a = Memory.get s.mem a := by
  refine runBody_induction (Q := fun t => Memory.get t.mem a = Memory.get s.mem a)
    (P := fun u w => ((commandBody i).wrap w).ok u ∧ ¬(writeSpan i u w).contains a ∧
      Memory.get u.mem a = Memory.get s.mem a)
    (fun _ _ hP => hP.2.2) ?goOn (fun _ _ _ hP _ => hP.2.2) (fun _ _ _ hP _ => hP.2.2) k w s ⟨hw, ha, rfl⟩
  case goOn =>
    rintro u w m w' ⟨hw, ha, hu⟩ h
    refine ⟨commandBody_step_ok hw h, by rwa [writeSpan_step hw h], ?_⟩
    have hne : commandAccess i u w ≠ .write a := fun hacc => ha (writeSpan_contains hw h hacc)
    exact ((commandBody_step_makesOnly u a 0#8 i w).frame hne m w' h).trans hu

/-- A command changes no byte outside its "writes" range. -/
theorem exec_frame (hw : ((commandBody i).wrap ((commandBody i).enter s.work)).ok s) (h : exec i s = .next t)
    (ha : ¬(writesOf i s).contains a) : Memory.get t.mem a = Memory.get s.mem a := by
  rw [exec_eq_runCommand] at h
  cases h
  exact runCommand_frame hw (by rwa [← writesOf_eq_writeSpan]) _

/-- A block step does not access a byte of memory outside both ranges. -/
theorem commandAccess_ne {w : (commandBody i).Vars} (hw : ((commandBody i).wrap w).ok s) (ha : a < s.config.memBytes)
    (hr : ¬(readSpan i s w).contains a) (hwr : ¬(writeSpan i s w).contains a) :
    commandAccess i s w ≠ .read a ∧ commandAccess i s w ≠ .write a := by
  have hgo := (commandBody_step_makesOnly s a 0#8 i w).goesOn
  constructor
  · intro hacc
    obtain ⟨m, w', h⟩ := hgo (.inl hacc) ha
    exact hr (readSpan_contains hw h hacc)
  · intro hacc
    obtain ⟨m, w', h⟩ := hgo (.inr hacc) ha
    exact hwr (writeSpan_contains hw h hacc)

/-- The byte `a` of memory lies outside the ranges of a command at `w`, whose variables are in range. -/
structure OutsideRanges (i : Instr) (a : Nat) (s : State) (w : (commandBody i).Vars) : Prop where
  ok : ((commandBody i).wrap w).ok s
  memWf : Memory.wf s.mem
  inMemory : a < s.config.memBytes
  notRead : ¬(readSpan i s w).contains a
  notWritten : ¬(writeSpan i s w).contains a

theorem OutsideRanges.step {w w' : (commandBody i).Vars} {m : Memory} (hs : OutsideRanges i a s w)
    (h : (commandBody i).step s w = .goOn m w') : OutsideRanges i a (s.setMem m) w' where
  ok := commandBody_step_ok hs.ok h
  memWf := (commandBody_step_oneAccess i s w m w' h).wf hs.memWf
  inMemory := hs.inMemory
  notRead := by rw [readSpan_step hs.ok h]; exact hs.notRead
  notWritten := by rw [writeSpan_step hs.ok h]; exact hs.notWritten

/-- A store outside the ranges and the next block step have the same effect in either order. -/
theorem OutsideRanges.step_store {w : (commandBody i).Vars} (hs : OutsideRanges i a s w) (v : Byte) :
    (commandBody i).step (s.setMem (Memory.set s.mem a v)) w = ((commandBody i).step s w).stored a v :=
  have hne := commandAccess_ne hs.ok hs.inMemory hs.notRead hs.notWritten
  (commandBody_step_makesOnly s a v i w).commutes hs.memWf hne.1 hne.2

/-- A store outside the ranges before a run is the same store after it. -/
theorem runCommand_store {w : (commandBody i).Vars} (hs : OutsideRanges i a s w) (v : Byte) (k : Nat) :
    runCommand i k w (s.setMem (Memory.set s.mem a v)) =
      (runCommand i k w s).setMem (Memory.set (runCommand i k w s).mem a v) := by
  refine runBody_store (P := fun _ u w => OutsideRanges i a u w) ?goOn ?complete ?raise k w s hs
  case goOn =>
    intro _ u w m w' hu h
    exact ⟨by rw [hu.step_store, h]; rfl, hu.step h⟩
  case complete => exact fun _ u w x hu h => by rw [hu.step_store, h]; rfl
  case raise => exact fun _ u w e hu h => by rw [hu.step_store, h]; rfl

end

end Sys2Proof.Machine
end

section
/-!
SUPPORT. The host's loads and stores of memory (spec/70_reset_and_hazards.md R235, R236, R240), one lemma a case, and how far
RLEENC writes (spec/42_rle_encoder.md R145, R148).
-/

namespace Sys2Proof.Machine

/-! ### A host access of memory -/

section
variable {s : State} {a : Nat} {i : Instr}

theorem storeHitsReads_of_run (hb : s.busy = true) (hi : decode s.lop = .ok i) :
    storeHitsReads s a = decide ((readsOf i s).contains a) := by
  simp [storeHitsReads, hb, hi]

theorem storeHitsWrites_of_run (hb : s.busy = true) (hi : decode s.lop = .ok i) :
    storeHitsWrites s a = decide ((writesOf i s).contains a) := by
  simp [storeHitsWrites, hb, hi]

/-- A byte outside both ranges of the latched command is in none, in RUN and in IDLE. -/
theorem storeHits_outside (hi : decode s.lop = .ok i) (hr : ¬(readsOf i s).contains a)
    (hw : ¬(writesOf i s).contains a) : storeHitsReads s a = false ∧ storeHitsWrites s a = false := by
  cases hb : s.busy with
  | false => exact storeHits_idle s a hb
  | true =>
    rw [storeHitsReads_of_run hb hi, storeHitsWrites_of_run hb hi]
    exact ⟨decide_eq_false hr, decide_eq_false hw⟩

variable {v : Byte} {rest : List Input}

theorem step_memWrite_outside (h : s.inputs = .memWrite a v :: rest) (hr : storeHitsReads s a = false)
    (hw : storeHitsWrites s a = false) :
    step s =
      if a < s.config.memBytes then .next { s with inputs := rest, mem := Memory.set s.mem a v }
      else .fault .hostAddressOutsideMemory := by
  rw [step_cons h]
  simp only [takeTurn, hostMemWrite, storeHitsReads_inputs, storeHitsWrites_inputs, hr, hw, Bool.false_eq_true, if_false]
  rfl

theorem step_memWrite_reads (h : s.inputs = .memWrite a v :: rest) (hb : s.busy = true) (hi : decode s.lop = .ok i)
    (ha : (readsOf i s).contains a) : step s = .refused .hostStoreIntoRunningReads := by
  rw [step_cons h]
  simp only [takeTurn, hostMemWrite, storeHitsReads_inputs, storeHitsReads_of_run hb hi, decide_eq_true ha, if_true]

theorem step_memWrite_writes (h : s.inputs = .memWrite a v :: rest) (hb : s.busy = true) (hi : decode s.lop = .ok i)
    (ha : (writesOf i s).contains a) : ∃ r, step s = .refused r := by
  rw [step_cons h]
  simp only [takeTurn, hostMemWrite, storeHitsReads_inputs, storeHitsWrites_inputs, storeHitsWrites_of_run hb hi,
    decide_eq_true ha, if_true]
  split
  · exact ⟨_, rfl⟩
  · exact ⟨_, rfl⟩

theorem step_memRead (h : s.inputs = .memRead a :: rest) :
    step s =
      if a < s.config.memBytes then
        .next { s with inputs := rest, hostData := (Memory.get s.mem a).setWidth 32 }
      else .fault .hostAddressOutsideMemory :=
  step_cons h

end

theorem Span.not_contains_iff (r : Span) (a : Nat) : ¬r.contains a ↔ a < r.base ∨ r.base + r.len ≤ a := by
  unfold Span.contains
  omega

theorem Span.not_contains_of_ne {r : Span} {a : Nat} (h : ∀ o < r.len, a ≠ r.base + o) : ¬r.contains a := by
  rintro ⟨hlo, hhi⟩
  exact h (a - r.base) (by omega) (by omega)

/-- Outside the bytes that a decoding command writes for its header, a byte is outside its "writes" range. -/
theorem decWrites_not_contains {s : State} {d : Byte × Byte} {n a : Nat}
    (h : ¬(Span.mk s.dstBase n).contains a) : ¬(decWrites s d n).contains a := by
  unfold decWrites
  split
  · exact h
  · exact (Span.not_contains_iff _ a).mpr (.inr (Nat.zero_le a))

/-! ### Accesses of the primitives -/

theorem memRead_eq (s : State) (a : Nat) :
    memRead s a = if a < s.config.memBytes then .ok (Memory.get s.mem a) else .error .accessFault := rfl

theorem memWrite_eq (s : State) (a : Nat) (v : Byte) :
    memWrite s a v = if a < s.config.memBytes then .ok (Memory.set s.mem a v) else .error .accessFault := rfl

/-- A command that reads a byte outside memory first ends with AccessFault. -/
theorem exec_firstRead_fault {i : Instr} {s : State} {a : Nat} {k : Byte → (commandBody i).Vars} (hs : s.Fresh)
    (hstep : (commandBody i).step s ((commandBody i).enter none) = .reading s a k) (ha : s.config.memBytes ≤ a) :
    exec i s = .next (s.raise .accessFault) := by
  rw [exec_eq_runCommand, hs.1, State.granted_none s hs.2]
  refine congrArg _ (runBody_walk_raise 0 _ _ _ s s .accessFault (walk_zero _ s) ?_ (by decide))
  rw [hstep, Micro.reading_eq, if_neg (Nat.not_lt.mpr ha)]

/-! ### How far RLEENC writes -/

theorem EncVars.offset_le {v : EncVars} {n : Nat} (hv : v.ok) (hi : v.i ≤ n) : v.o ≤ n + 3 := by
  unfold EncVars.ok at hv
  omega

/-- The bytes RLEENC has written are at most the `N + 3` of R148, and none when its checks fail. -/
theorem EncWork.written_le {s : State} {w : EncWork} (hw : w.ok s) :
    w.written ≤ if encChecksPass s then s.encPixels + 3 else 0 := by
  cases w with
  | entry => exact Nat.zero_le _
  | header0 => exact Nat.zero_le _
  | header1 =>
    rw [if_pos (c := encChecksPass s) hw]
    show 1 ≤ s.encPixels + 3
    omega
  | pixel v =>
    obtain ⟨hc, hv, hi⟩ := hw
    rw [if_pos hc]
    exact EncVars.offset_le hv hi
  | bit v =>
    obtain ⟨hc, hv, hi⟩ := hw
    rw [if_pos hc]
    exact EncVars.offset_le hv hi.le
  | emit v k last =>
    obtain ⟨hc, hl, hn, -, -, ho⟩ := hw
    have := pixel_le_of_emit hl hn
    rw [if_pos hc]
    show v.o ≤ s.encPixels + 3
    omega
  | emitZero v k last =>
    obtain ⟨hc, -, hl, hn, -, -, ho⟩ := hw
    have := pixel_le_of_emit hl hn
    rw [if_pos hc]
    show v.o ≤ s.encPixels + 3
    omega
  | done v =>
    rw [if_pos hw.1]
    exact hw.2.2

theorem EncWork.written_lt {s : State} {w : EncWork} (hw : w.ok s) : w.written < 2 ^ 32 := by
  have hle := EncWork.written_le hw
  split at hle
  · have := encPixels_le ‹_›
    omega
  · omega

/-- RLEENC ends with working variables in range, having written `reach` bytes. -/
theorem rleenc_end {s : State} (hs : s.workOk) :
    ∃ j w' s', j < Config.blockStepBound ∧ walk rleencStep j (rleencEnter s.work) s = some (w', s') ∧
      EndsNext rleencStep s' w' ∧ rleencWrites s = w'.written ∧ w'.ok s := by
  have hw := commandBody_enter_ok .rleenc s hs
  obtain ⟨j, w', s', hj, hwalk, hend, hreach⟩ := walk_to_reach hw
  have hok : (Work.rleenc w').ok s' ∧ s'.l2 = s.l2 ∧ s'.l3 = s.l3 :=
    walk_induction (f := rleencStep) (P := fun u w => (Work.rleenc w).ok u ∧ u.l2 = s.l2 ∧ u.l3 = s.l3)
      (fun _ _ _ _ hP h => ⟨rleencStep_ok hP.1 h, hP.2⟩) hwalk ⟨hw, rfl, rfl⟩
  obtain ⟨hok, h2, h3⟩ := hok
  exact ⟨j, w', s', hj, hwalk, hend, hreach, Work.ok_congr (w := .rleenc w') h2.symm h3.symm hok⟩

theorem rleencWrites_le {s : State} (hs : s.workOk) :
    rleencWrites s ≤ if encChecksPass s then s.encPixels + 3 else 0 := by
  obtain ⟨j, w', s', -, -, -, hwrites, hok⟩ := rleenc_end hs
  rw [hwrites]
  exact EncWork.written_le hok

/-- A block step that does not complete the command. -/
def Micro.NotComplete {ω : Type} (x : Micro ω) : Prop := ∀ r, x ≠ .complete r

section
variable {ω : Type} (s : State)

theorem Micro.NotComplete.elim {x : Micro ω} {r : Word} {p : Prop} (h : x = .complete r) (hx : x.NotComplete) : p :=
  absurd h (hx r)

theorem Micro.NotComplete.internal (w : ω) : (Micro.internal s w).NotComplete := nofun

theorem Micro.NotComplete.reading (a : Nat) (k : Byte → ω) : (Micro.reading s a k).NotComplete := by
  rw [Micro.reading_eq]
  split <;> nofun

theorem Micro.NotComplete.writing (a : Nat) (v : Byte) (w : ω) : (Micro.writing s a v w).NotComplete := by
  rw [Micro.writing_eq]
  split <;> nofun

theorem Micro.NotComplete.raise (e : Err) : (Micro.raise e : Micro ω).NotComplete := nofun

theorem Micro.NotComplete.ite {c : Prop} [Decidable c] {x y : Micro ω} (hx : x.NotComplete) (hy : y.NotComplete) :
    (if c then x else y).NotComplete := by
  split
  · exact hx
  · exact hy

end

/-- RLEENC completes with its output offset. -/
theorem rleencStep_complete {s : State} {w : EncWork} {x : Word} (h : rleencStep s w = .complete x) :
    x = BitVec.ofNat 32 w.written := by
  cases w with
  | done v => cases h; rfl
  | entry => exact Micro.NotComplete.elim h (.ite (.raise _) (.ite (.raise _) (.internal _ _)))
  | header0 => exact Micro.NotComplete.elim h (.writing _ _ _ _)
  | header1 => exact Micro.NotComplete.elim h (.writing _ _ _ _)
  | pixel v => exact Micro.NotComplete.elim h (.ite (.ite (.reading _ _ _) (.internal _ _)) (.internal _ _))
  | bit v => exact Micro.NotComplete.elim h (.ite (.internal _ _) (.internal _ _))
  | emit v k last => exact Micro.NotComplete.elim h (.ite (.writing _ _ _ _) (.writing _ _ _ _))
  | emitZero v k last => exact Micro.NotComplete.elim h (.writing _ _ _ _)

/-- An RLEENC that ends with no error has written RESULT bytes (R145). -/
theorem rleencWrites_eq_result {s t : State} (hs : s.workOk) (hq : s.quota = none) (h : exec .rleenc s = .next t)
    (he : t.err = 0#4) : rleencWrites s = t.result.toNat := by
  obtain ⟨j, w', s', hj, hwalk, hend, hwrites, hok⟩ := rleenc_end hs
  have hrun : exec .rleenc s = .next (runBody rleencStep .rleenc Config.blockStepBound (rleencEnter s.work) s) := by
    rw [exec_eq_runCommand, State.granted_none s hq]
    rfl
  obtain ⟨x, hx⟩ | ⟨e, hx⟩ := hend
  · rw [hrun, runBody_walk_complete j _ _ w' s s' x hwalk hx hj] at h
    cases h
    rw [State.complete_result, rleencStep_complete hx, hwrites, BitVec.toNat_ofNat,
      Nat.mod_eq_of_lt (EncWork.written_lt hok)]
  · rw [hrun, runBody_walk_raise j _ _ w' s s' e hwalk hx hj] at h
    cases h
    have hcode := e.code_range.1
    rw [State.raise_err] at he
    simp [he] at hcode

end Sys2Proof.Machine
end

section
/-!
SUPPORT. How far a decoding command reads its stream (spec/43_rle_decoder.md R163 to R166), when the stream and the
destination lie in memory and apart: what the stream says of it is the same at every point of the command, and it is what
has been read when the command ends.
-/

namespace Sys2Proof.Machine

/-! ### The run bytes of a stream -/

theorem bytesAt_succ (m : Memory) (base n : Nat) :
    bytesAt m base (n + 1) = Memory.get m base :: bytesAt m (base + 1) n := by
  unfold bytesAt
  rw [List.range_succ_eq_map, List.map_cons, List.map_map]
  refine congrArg _ (List.map_congr_left fun i _ => ?_)
  show Memory.get m (base + (i + 1)) = Memory.get m (base + 1 + i)
  rw [Nat.add_assoc, Nat.add_comm 1]

theorem bytesAt_congr {m m' : Memory} {base n : Nat} (h : ∀ i < n, Memory.get m' (base + i) = Memory.get m (base + i)) :
    bytesAt m' base n = bytesAt m base n :=
  List.map_congr_left fun i hi => h i (List.mem_range.mp hi)

theorem runsRead_zero (runs : List Byte) : runsRead 0 runs = 0 := by
  cases runs <;> rfl

theorem runsRead_cons {left : Nat} (r : Byte) (rest : List Byte) (h : 0 < left) :
    runsRead left (r :: rest) = runsRead (left - r.toNat) rest + 1 :=
  if_neg (Nat.ne_of_gt h)

theorem runsRead_le_length (left : Nat) (runs : List Byte) : runsRead left runs ≤ runs.length := by
  induction runs generalizing left with
  | nil => exact Nat.le_refl 0
  | cons r rest ih =>
    unfold runsRead
    split
    · exact Nat.zero_le _
    · exact Nat.succ_le_succ (ih _)

/-- How many bytes of the stream are read when the next one is byte `p` and `left` pixels are still to come. -/
def State.readsFrom (s : State) (p left : Nat) : Nat :=
  p + runsRead left (bytesAt s.mem (s.srcBase + p) (s.arg3Nat - p))

section
variable {s : State} {p left : Nat}

theorem State.readsFrom_zero : s.readsFrom p 0 = p := by
  rw [State.readsFrom, runsRead_zero, Nat.add_zero]

theorem State.readsFrom_end (h : s.arg3Nat ≤ p) : s.readsFrom p left = p := by
  rw [State.readsFrom, Nat.sub_eq_zero_of_le h]
  rfl

theorem State.readsFrom_run (hp : p < s.arg3Nat) (h : 0 < left) :
    s.readsFrom p left = s.readsFrom (p + 1) (left - (Memory.get s.mem (s.srcBase + p)).toNat) := by
  obtain ⟨n, hn⟩ : ∃ n, s.arg3Nat - p = n + 1 := ⟨s.arg3Nat - p - 1, by omega⟩
  have hn' : s.arg3Nat - (p + 1) = n := by omega
  rw [State.readsFrom, State.readsFrom, hn, hn', bytesAt_succ, runsRead_cons _ _ h, Nat.add_assoc s.srcBase]
  omega

theorem State.readsFrom_setMem {m : Memory}
    (h : ∀ i < s.arg3Nat, Memory.get m (s.srcBase + i) = Memory.get s.mem (s.srcBase + i)) :
    (s.setMem m).readsFrom p left = s.readsFrom p left := by
  refine congrArg (fun runs => p + runsRead left runs) (bytesAt_congr fun i hi => ?_)
  have hi : i < s.arg3Nat - p := hi
  rw [Nat.add_assoc]
  exact h (p + i) (by omega)

theorem State.readsFrom_le (hp : p ≤ s.arg3Nat) : s.readsFrom p left ≤ s.arg3Nat := by
  have hlen : runsRead left (bytesAt s.mem (s.srcBase + p) (s.arg3Nat - p)) ≤ s.arg3Nat - p := by
    refine le_trans (runsRead_le_length _ _) (Nat.le_of_eq ?_)
    simp [bytesAt]
  unfold State.readsFrom
  omega

end

/-! ### What the stream says at any point of the command -/

/-- How many bytes of the stream a decoding command at `w` will have read, by the run bytes that are still to come. -/
def replayReads {σ : Type} (s : State) (w : DecWork σ) : Nat :=
  match w with
  | .next v _ => s.readsFrom v.p (v.pixels - v.total)
  | .overrun v _ run => s.readsFrom v.p (v.pixels - (v.total + run))
  | .put v _ left => s.readsFrom v.p (v.pixels - (v.total + left))
  | .putEnd v _ left => s.readsFrom v.p (v.pixels - (v.total + left))
  | .tail v _ => v.p
  | .done v _ => v.p
  | w => s.readsFrom 2 ((decDims s w).1.toNat * (decDims s w).2.toNat)

/-- A decoding command at `w` has a stream of at least its header, no header byte is 0, and the stream and the `len` bytes of
the destination lie in memory and apart: `State.DecodeReady` at any point of the command. -/
structure StreamReady {σ : Type} (own : ReplayVars → Bool → σ → Prop) (len : Byte × Byte → Nat) (s : State)
    (w : DecWork σ) : Prop where
  ok : w.ok own s
  hasHeader : 2 ≤ s.arg3Nat
  rows : (decDims s w).1 ≠ 0#8
  cols : (decDims s w).2 ≠ 0#8
  srcBelow : s.srcBase + s.arg3Nat ≤ s.config.memBytes
  dstBelow : s.dstBase + len (decDims s w) ≤ s.config.memBytes
  apart : Apart s.srcBase s.arg3Nat s.dstBase (len (decDims s w))

section
variable {σ : Type} {k : Sink σ} {acc : SinkAccess σ} {own : ReplayVars → Bool → σ → Prop} {len : Byte × Byte → Nat}
  {s : State} {w w' : DecWork σ} {m : Memory}

theorem StreamReady.step (hk : SinkKeeps k own) (hs : StreamReady own len s w) (h : decodeStep k s w = .goOn m w') :
    StreamReady own len (s.setMem m) w' where
  ok := decodeStep_ok hk hs.ok h
  hasHeader := hs.hasHeader
  rows := by rw [decDims_step h]; exact hs.rows
  cols := by rw [decDims_step h]; exact hs.cols
  srcBelow := hs.srcBelow
  dstBelow := by rw [decDims_step h]; exact hs.dstBelow
  apart := by rw [decDims_step h]; exact hs.apart

/-- No block step of a command whose stream lies apart from its destination changes the stream. -/
theorem StreamReady.stream_step (hacc : acc.Of k) (hlen : acc.Within own len) (hs : StreamReady own len s w)
    (h : decodeStep k s w = .goOn m w') :
    ∀ i < s.arg3Nat, Memory.get m (s.srcBase + i) = Memory.get s.mem (s.srcBase + i) := by
  intro i hi
  refine (decodeStep_makesOnly s (s.srcBase + i) 0#8 hacc w).frame (fun hb => ?_) m w' h
  obtain ⟨o, ho, heq⟩ := hlen s w _ hs.ok hb
  have := hs.apart
  omega

theorem replayReads_step (hw : w.ok own s) (h : decodeStep k s w = .goOn m w')
    (hm : ∀ i < s.arg3Nat, Memory.get m (s.srcBase + i) = Memory.get s.mem (s.srcBase + i)) :
    replayReads (s.setMem m) w' = replayReads s w := by
  cases w with
  | entry =>
    simp only [decodeStep] at h
    split at h
    · cases h
    · obtain ⟨rfl, rfl⟩ := internal_goOn h; rfl
  | header0 => obtain ⟨-, rfl, rfl⟩ := reading_goOn h; rfl
  | header1 rows => obtain ⟨-, rfl, rfl⟩ := reading_goOn h; rfl
  | header rows cols =>
    simp only [decodeStep] at h
    split at h
    · cases h
    · obtain ⟨rfl, rfl⟩ := internal_goOn h; rfl
  | next v x =>
    simp only [decodeStep] at h
    split at h
    · rename_i hlt
      split at h
      · cases h
      · rename_i hp
        obtain ⟨-, rfl, rfl⟩ := reading_goOn h
        have hrun := State.readsFrom_run (Nat.lt_of_not_le hp) (Nat.sub_pos_of_lt hlt)
        rw [Nat.sub_sub] at hrun
        exact hrun.symm
    · rename_i hge
      obtain ⟨-, rfl⟩ := internal_goOn h
      show v.p = s.readsFrom v.p (v.pixels - v.total)
      rw [Nat.sub_eq_zero_of_le (Nat.le_of_not_lt hge), State.readsFrom_zero]
  | overrun v x run =>
    simp only [decodeStep] at h
    split at h
    · cases h
    · obtain ⟨rfl, rfl⟩ := internal_goOn h; rfl
  | put v x left =>
    cases left with
    | zero => obtain ⟨rfl, rfl⟩ := internal_goOn h; rfl
    | succ n =>
      obtain ⟨y, -, rfl⟩ := sinking_goOn h
      exact State.readsFrom_setMem hm
  | putEnd v x left =>
    obtain ⟨-, h1, -⟩ := hw
    obtain ⟨y, -, rfl⟩ := sinking_goOn h
    have hleft : v.putOne.total + (left - 1) = v.total + left := by
      show v.total + 1 + (left - 1) = v.total + left
      omega
    show (s.setMem m).readsFrom v.p (v.pixels - (v.putOne.total + (left - 1))) =
      s.readsFrom v.p (v.pixels - (v.total + left))
    rw [hleft, State.readsFrom_setMem hm]
  | tail v x => obtain ⟨y, -, rfl⟩ := sinking_goOn h; rfl
  | done v x => cases h

/-- A sink's action that writes in memory, or nowhere, does not end the command. -/
theorem sinking_not_endsNext {a : Access} {r r' : Except Err (Memory × σ)} {b : Nat} {u : Byte}
    (hr : SinkMakesOnly s b u a r r') (hin : ∀ b, a = .write b → b < s.config.memBytes) {g : σ → DecWork σ}
    (hw : decodeStep k s w = .sinking r g) : ¬EndsNext (decodeStep k) s w := by
  obtain ⟨z, rfl⟩ := hr.goesOn hin
  exact not_endsNext_of_goOn hw

/-- A read in memory does not end the command. -/
theorem reading_not_endsNext {a : Nat} (ha : a < s.config.memBytes) {g : Byte → DecWork σ}
    (hw : decodeStep k s w = .reading s a g) : ¬EndsNext (decodeStep k) s w :=
  not_endsNext_of_goOn (hw.trans (by rw [Micro.reading_eq, if_pos ha]))

/-- A command that ends has read what its stream says. -/
theorem replayReads_end (hacc : acc.Of k) (hlen : acc.Within own len) (hs : StreamReady own len s w)
    (hend : EndsNext (decodeStep k) s w) : replayReads s w = w.bytesRead := by
  have hin : ∀ b, decodeAccess acc s w = .write b → b < s.config.memBytes := fun b hb => by
    obtain ⟨o, ho, rfl⟩ := hlen s w b hs.ok hb
    have := hs.dstBelow
    omega
  have h2 := hs.hasHeader
  have hsrc := hs.srcBelow
  cases w with
  | entry => exact absurd hend (not_endsNext_of_goOn (if_neg (Nat.not_lt.mpr h2)))
  | header0 => exact absurd hend (reading_not_endsNext (by omega) rfl)
  | header1 rows => exact absurd hend (reading_not_endsNext (by omega) rfl)
  | header rows cols => exact absurd hend (not_endsNext_of_goOn (if_neg (not_or.mpr ⟨hs.rows, hs.cols⟩)))
  | next v x =>
    by_cases hlt : v.total < v.pixels
    · by_cases hp : v.p ≥ s.arg3Nat
      · exact State.readsFrom_end hp
      · have hread : decodeStep k s (.next v x) = .reading s (s.srcBase + v.p) _ := (if_pos hlt).trans (if_neg hp)
        exact absurd hend (reading_not_endsNext (by omega) hread)
    · exact absurd hend (not_endsNext_of_goOn (if_neg hlt))
  | overrun v x run =>
    by_cases hover : v.total + run > v.pixels
    · show s.readsFrom v.p (v.pixels - (v.total + run)) = v.p
      rw [Nat.sub_eq_zero_of_le hover.le, State.readsFrom_zero]
    · exact absurd hend (not_endsNext_of_goOn (if_neg hover))
  | put v x left =>
    cases left with
    | zero => exact absurd hend (not_endsNext_of_goOn rfl)
    | succ n => exact absurd hend (sinking_not_endsNext (hacc.first s v x 0 0#8) hin rfl)
  | putEnd v x left => exact absurd hend (sinking_not_endsNext (hacc.second s v x 0 0#8) hin rfl)
  | tail v x => exact absurd hend (sinking_not_endsNext (hacc.tail s v x 0 0#8) hin rfl)
  | done v x => rfl

/-- A decoding command reads what its stream says. -/
theorem decodeReads_eq_replayReads (hk : SinkKeeps k own) (hacc : acc.Of k) (hlen : acc.Within own len)
    (hs : StreamReady own len s w) : decodeReads k w s = replayReads s w := by
  obtain ⟨j, w', s', hj, hwalk, hend⟩ := runBody_ends (P := fun s w => DecWork.ok own s w) (μ := decodeLeft)
    (fun _ _ _ _ hw h => ⟨decodeStep_ok hk hw h, decodeStep_left hw h⟩) _ w s hs.ok (decodeLeft_lt_bound s w)
  obtain ⟨hs', hsame⟩ : StreamReady own len s' w' ∧ replayReads s' w' = replayReads s w :=
    walk_induction (P := fun u x => StreamReady own len u x ∧ replayReads u x = replayReads s w)
      (fun _ _ _ _ hP h => ⟨hP.1.step hk h,
        (replayReads_step hP.1.ok h (hP.1.stream_step hacc hlen h)).trans hP.2⟩) hwalk ⟨hs, rfl⟩
  exact (runMark_walk j _ w w' s s' hwalk hend hj).trans ((replayReads_end hacc hlen hs' hend).symm.trans hsame)

/-- A decoding command with its stream and destination in memory and apart reads its header, and its run bytes up to the one
that completes or passes its pixels. -/
theorem decodeReads_of_ready (hk : SinkKeeps k own) (hacc : acc.Of k) (hlen : acc.Within own len)
    (hs : s.DecodeReady (len (decDims s (DecWork.entry (σ := σ))))) :
    decodeReads k .entry s = 2 + runsRead (s.streamRows * s.streamCols) s.streamRuns ∧
      decodeReads k .entry s ≤ s.l3.toNat := by
  obtain ⟨-, -, h2, hrows, hcols, hsrc, hdst, hapart⟩ := hs
  have hready : StreamReady own len s .entry :=
    { ok := trivial
      hasHeader := h2
      rows := fun h0 => hrows (congrArg BitVec.toNat h0)
      cols := fun h0 => hcols (congrArg BitVec.toNat h0)
      srcBelow := hsrc
      dstBelow := hdst
      apart := hapart }
  rw [decodeReads_eq_replayReads hk hacc hlen hready]
  exact ⟨rfl, State.readsFrom_le h2⟩

end

/-! ### The header is always read -/

/-- The header bytes of a stream in memory are read before anything else can end the command. -/
theorem two_le_decodeReads {σ : Type} (k : Sink σ) {s : State} (hlen : 2 ≤ s.arg3Nat)
    (hin : s.srcBase + 1 < s.config.memBytes) : 2 ≤ decodeReads k .entry s := by
  have h0 : decodeStep k s .entry = .goOn s.mem .header0 := if_neg (Nat.not_lt.mpr hlen)
  have h1 : decodeStep k s .header0 = .goOn s.mem (.header1 (Memory.get s.mem (s.srcBase + 0))) := by
    rw [decodeStep, Micro.reading_eq, if_pos (by omega)]
  have h2 (rows : Byte) : decodeStep k s (.header1 rows) =
      .goOn s.mem (.header rows (Memory.get s.mem (s.srcBase + 1))) := by
    rw [decodeStep, Micro.reading_eq, if_pos hin]
  obtain ⟨n, hn⟩ : ∃ n, Config.blockStepBound = n + 1 + 1 + 1 := ⟨2 ^ 36 - 3, rfl⟩
  rw [decodeReads, hn, runMark_succ, h0]
  show 2 ≤ runMark (decodeStep k) DecWork.bytesRead (n + 1 + 1) .header0 s
  rw [runMark_succ, h1]
  show 2 ≤ runMark (decodeStep k) DecWork.bytesRead (n + 1) (.header1 _) s
  rw [runMark_succ, h2]
  exact le_runMark (mark := DecWork.bytesRead) (fun _ _ _ _ h => decodeStep_bytesRead h) n (.header _ _) s

section
variable {s : State}

theorem rledecReads_of_fresh (h : s.work = none) : rledecReads s = decodeReads packedSink .entry s := by
  rw [rledecReads, h]; rfl

theorem rlerendReads_of_fresh (h : s.work = none) : rlerendReads s = decodeReads textSink .entry s := by
  rw [rlerendReads, h]; rfl

/-- The header bytes of a command that has made no block step are those at L0. -/
theorem dims_of_fresh (h : s.work = none) :
    ((rledecDims s).1.toNat, (rledecDims s).2.toNat) = (s.streamRows, s.streamCols) ∧
      ((rlerendDims s).1.toNat, (rlerendDims s).2.toNat) = (s.streamRows, s.streamCols) := by
  rw [rledecDims, rlerendDims, h]
  exact ⟨rfl, rfl⟩

end

end Sys2Proof.Machine
end

section
/-!
The obligations on memory, the host's accesses, the ranges of a running command and the frames (spec/20_memory.md).
-/

namespace Sys2Proof.Machine

/-- Settles O23: the byte lies outside the ranges of the running command, and from there a store commutes with the whole run
(`runCommand_store`). An illegal command makes no access. -/
theorem hostStoreOutsideRangesHarmless : Obligations.HostStoreOutsideRangesHarmless := by
  unfold Obligations.HostStoreOutsideRangesHarmless
  intro s a v hs hin hb ha hr hw
  rw [step_nil hin, step_nil (by simpa using hin)]
  cases hi : decode s.lop with
  | ok i =>
    rw [storeHitsReads_of_run hb hi, decide_eq_false_iff_not, readsOf_eq_readSpan] at hr
    rw [storeHitsWrites_of_run hb hi, decide_eq_false_iff_not, writesOf_eq_writeSpan] at hw
    have hout : OutsideRanges i a s ((commandBody i).enter s.work) :=
      ⟨commandBody_enter_ok i s hs.workRange, hs.memWf, ha, hr, hw⟩
    rw [blockMove_of_decode_ok hb hi, blockMove_of_decode_ok (by simpa using hb) (by simpa using hi),
      exec_eq_runCommand, exec_eq_runCommand]
    exact ⟨_, rfl, congrArg _ (runCommand_store hout v _)⟩
  | error e =>
    have hmove : ∀ m, blockMove (s.setMem m) = .next ((s.setMem m).raise .illegalCommand) := fun m => by
      simp [blockMove, hb, hi, illegalMove, State.granted, hs.quotaNone, Config.blockStepBound]
    exact ⟨_, hmove s.mem, hmove _⟩

/-- Settles O20, by the cases of a host access and, for each command, its two ranges. -/
theorem hostMemoryAccesses : Obligations.HostMemoryAccesses := by
  unfold Obligations.HostMemoryAccesses
  intro s a v rest
  refine ⟨?load, ?loadFault, ?store, ?storeFault, storeHits_idle s a, ?getbit, ?putbit, ?pack, ?rleenc, ?rledec, ?rlerend⟩
  case load => exact fun h ha => by rw [step_memRead h, if_pos ha]
  case loadFault => exact fun h ha => by rw [step_memRead h, if_neg (Nat.not_lt.mpr ha)]
  case store => exact fun h hr hw ha => by rw [step_memWrite_outside h hr hw, if_pos ha]
  case storeFault => exact fun h hr hw ha => by rw [step_memWrite_outside h hr hw, if_neg (Nat.not_lt.mpr ha)]
  case getbit =>
    intro hi ha
    refine storeHits_outside hi (Span.not_contains_of_ne fun o ho => ?_) (Span.not_contains_of_ne nofun)
    obtain rfl : o = 0 := by simpa [readsOf] using ho
    exact ha
  case putbit =>
    intro hi ha
    have hout : ¬(Span.mk (bitAddr s.dstBase s.arg2Nat) 1).contains a := Span.not_contains_of_ne fun o ho => by
      obtain rfl : o = 0 := by simpa using ho
      exact ha
    exact storeHits_outside hi hout hout
  case pack =>
    exact fun hi hr hw => storeHits_outside hi ((Span.not_contains_iff _ a).mpr hr) ((Span.not_contains_iff _ a).mpr hw)
  case rleenc =>
    refine fun hi hr hw => storeHits_outside hi ?_ ((Span.not_contains_iff _ a).mpr hw)
    rw [readsOf_rleenc]
    split
    · exact (Span.not_contains_iff _ a).mpr hr
    · exact Span.not_contains_of_ne nofun
  case rledec =>
    exact fun hi hr hw => storeHits_outside hi ((Span.not_contains_iff _ a).mpr hr)
      (decWrites_not_contains ((Span.not_contains_iff _ a).mpr hw))
  case rlerend =>
    exact fun hi hr hw => storeHits_outside hi ((Span.not_contains_iff _ a).mpr hr)
      (decWrites_not_contains ((Span.not_contains_iff _ a).mpr hw))

/-- Settles O21: a store into the "reads" range of the latched command is refused, and so is one into its "writes" range;
each clause names bytes of one of the two. -/
theorem hostStoreIntoRunningRangeRefused : Obligations.HostStoreIntoRunningRangeRefused := by
  unfold Obligations.HostStoreIntoRunningRangeRefused
  intro s a v rest h hb
  refine ⟨?getbit, ?putbit, ?packReads, ?packWrites, ?rleencReads, ?rleencWrites, ?rleencResult, ?rledecReads, ?rlerendReads,
    ?header, ?rledecWrites, ?rlerendWrites, dims_of_fresh⟩
  case getbit => exact fun hi ha => step_memWrite_reads h hb hi ⟨ha.ge, Nat.lt_succ_of_le ha.le⟩
  case putbit => exact fun hi ha => step_memWrite_reads h hb hi ⟨ha.ge, Nat.lt_succ_of_le ha.le⟩
  case packReads => exact fun hi hlo hhi => step_memWrite_reads h hb hi ⟨hlo, hhi⟩
  case packWrites => exact fun hi hlo hhi => step_memWrite_writes h hb hi ⟨hlo, hhi⟩
  case rleencReads =>
    intro hi hr hr' hc hc' hlo hhi
    have hcheck : encChecksPass s := ⟨hr, hr', hc, hc'⟩
    refine step_memWrite_reads h hb hi ?_
    rw [readsOf_rleenc, if_pos hcheck]
    exact ⟨hlo, hhi⟩
  case rleencWrites => exact fun hi hlo hhi => step_memWrite_writes h hb hi ⟨hlo, hhi⟩
  case rleencResult =>
    intro hi hs hq t ht he hlo hhi
    rw [← rleencWrites_eq_result hs hq ht he] at hhi
    exact step_memWrite_writes h hb hi ⟨hlo, hhi⟩
  case rledecReads => exact fun hi hlo hhi => step_memWrite_reads h hb hi ⟨hlo, hhi⟩
  case rlerendReads => exact fun hi hlo hhi => step_memWrite_reads h hb hi ⟨hlo, hhi⟩
  case header =>
    intro hi hwork hlen hin ha
    have hlo : s.srcBase ≤ a := by
      show s.l0.toNat ≤ a
      omega
    have hhi : ∀ n, 2 ≤ n → a < s.srcBase + n := fun n hn => by
      show a < s.l0.toNat + n
      omega
    obtain hi | hi := hi
    · have hread := two_le_decodeReads packedSink hlen hin
      rw [← rledecReads_of_fresh hwork] at hread
      exact step_memWrite_reads h hb hi ⟨hlo, hhi _ hread⟩
    · have hread := two_le_decodeReads textSink hlen hin
      rw [← rlerendReads_of_fresh hwork] at hread
      exact step_memWrite_reads h hb hi ⟨hlo, hhi _ hread⟩
  case rledecWrites =>
    exact fun hi hlen hr hc hlo hhi => step_memWrite_writes h hb hi (decWrites_contains_of_header hlen hr hc ⟨hlo, hhi⟩)
  case rlerendWrites =>
    exact fun hi hlen hr hc hlo hhi => step_memWrite_writes h hb hi (decWrites_contains_of_header hlen hr hc ⟨hlo, hhi⟩)

/-- Settles O22: `rleencWrites_eq_result` for RLEENC, and `decodeReads_of_ready` for the two decoders. -/
theorem runningRangesAreThoseReached : Obligations.RunningRangesAreThoseReached := by
  unfold Obligations.RunningRangesAreThoseReached
  refine ⟨fun s t => rleencWrites_eq_result, fun s hs => ?_, fun s hs => ?_⟩
  · rw [rledecReads_of_fresh hs.1.1]
    exact decodeReads_of_ready packedSink_keeps packedAccess_of packedAccess_within hs
  · rw [rlerendReads_of_fresh hs.1.1]
    exact decodeReads_of_ready textSink_keeps textAccess_of textAccess_within hs

/-- Settles O56: PACK's "writes" range is its output bytes. -/
theorem packMemoryFrame : Obligations.PackMemoryFrame := by
  unfold Obligations.PackMemoryFrame
  exact fun s t hs h a ha => exec_frame (commandBody_enter_ok .pack s hs) h (Span.not_contains_of_ne ha)

/-- Settles O57: RLEENC's "writes" range is the bytes it writes until it ends, and these are at most `N + 3`, or none when
the checks fail (`rleencWrites_le`). -/
theorem rleencMemoryFrame : Obligations.RleencMemoryFrame := by
  unfold Obligations.RleencMemoryFrame
  intro s t hs h a ha
  refine exec_frame (commandBody_enter_ok .rleenc s hs) h (Span.not_contains_of_ne fun o ho => ?_)
  have hle := rleencWrites_le hs
  obtain ha | ha := ha
  · split at hle
    · exact ha ‹_› o (lt_of_lt_of_le ho hle)
    · exact absurd (lt_of_lt_of_le ho hle) (Nat.not_lt_zero o)
  · exact ha o ho

/-- Settles O58: the "writes" ranges of the two commands are their output bytes for the header, or no bytes. -/
theorem decoderMemoryFrame : Obligations.DecoderMemoryFrame := by
  unfold Obligations.DecoderMemoryFrame
  intro s t hs
  constructor
  · exact fun h a ha => exec_frame (commandBody_enter_ok .rledec s hs) h
      (decWrites_not_contains (Span.not_contains_of_ne ha))
  · exact fun h a ha => exec_frame (commandBody_enter_ok .rlerend s hs) h
      (decWrites_not_contains (Span.not_contains_of_ne ha))

/-- Settles O55: GETBIT has no "writes" range, and PUTBIT's is the byte it addresses. -/
theorem bitCommandsMemoryFrame : Obligations.BitCommandsMemoryFrame := by
  unfold Obligations.BitCommandsMemoryFrame
  intro s t
  constructor
  · exact fun h a => exec_frame (i := .getbit) trivial h (Span.not_contains_of_ne nofun)
  · intro h a ha
    refine exec_frame (i := .putbit) trivial h (Span.not_contains_of_ne fun o ho => ?_)
    obtain rfl : o = 0 := by simpa [writesOf] using ho
    exact ha

/-- Settles O15, by the two cases of MemRead. -/
theorem memReadRule : Obligations.MemReadRule := by
  unfold Obligations.MemReadRule
  intro s a
  rw [memRead_eq]
  exact ⟨fun ha => if_neg (Nat.not_lt.mpr ha), fun ha => if_pos ha⟩

/-- Settles O16, by the two cases of MemWrite and what memory reads after a write (`Memory.get_set`). -/
theorem memWriteRule : Obligations.MemWriteRule := by
  unfold Obligations.MemWriteRule
  intro s a v hwf
  rw [memWrite_eq]
  exact ⟨fun ha => if_neg (Nat.not_lt.mpr ha), fun ha => ⟨_, if_pos ha, fun b => Memory.get_set s.mem a b v hwf⟩⟩

/-- Settles O17: an address of 2^32 or more lies outside memory, and the first read of the command faults there. -/
theorem addressesDoNotWrap : Obligations.AddressesDoNotWrap := by
  unfold Obligations.AddressesDoNotWrap
  intro s hc hs
  exact ⟨fun ha => exec_firstRead_fault (i := .getbit) hs rfl (le_trans hc.2 ha),
    fun ha => exec_firstRead_fault (i := .putbit) hs rfl (le_trans hc.2 ha)⟩

/-- Settles O18: GetBit is one MemRead and the pixel of its byte. -/
theorem getBitPrimitive : Obligations.GetBitPrimitive := by
  unfold Obligations.GetBitPrimitive
  intro s base idx
  constructor
  · intro ha
    simp only [getBit, bitAddr, memRead_eq, if_pos ha]
    rfl
  · intro ha
    simp only [getBit, bitAddr, memRead_eq, if_neg (Nat.not_lt.mpr ha)]

/-- Settles O19: with BUSY = 0 the block's move only uses its quota up. -/
theorem idleBlockTouchesNothing : Obligations.IdleBlockTouchesNothing := by
  unfold Obligations.IdleBlockTouchesNothing
  intro s hb
  have hmove : ∀ u : State, u.busy = false → blockMove u = .next { u with quota := none } := fun u hu => by
    simp [blockMove, hu]
  exact ⟨fun h => by rw [step_nil h, hmove s hb], fun n rest h => by rw [step_cons h]; exact hmove _ hb⟩

end Sys2Proof.Machine
end

section
/-!
SUPPORT. The decoder and the encoder as one (spec/30_encoding.md R70 to R76).
-/

namespace Sys2Proof

/-- The two fields of a command word make it up (R70). -/
theorem rsvdField_append_opField (w : Word) : rsvdField w ++ opField w = w :=
  (BitVec.extractLsb'_append_extractLsb'_eq_extractLsb' rfl).trans (BitVec.extractLsb'_eq_self)

theorem decodeOp_eq_some_iff (op : BitVec 4) (i : Instr) : decodeOp op = some i ↔ op = opcode i := by
  revert op
  cases i <;> decide

theorem decodeOp_eq_none_iff : ∀ op : BitVec 4, decodeOp op = none ↔ op = 0x0#4 ∨ 0x7#4 ≤ op := by
  decide

theorem decode_of_rsvd_ne {w : Word} (h : rsvdField w ≠ 0#28) : decode w = .error .reservedBits := by
  rw [decode, if_neg h]

theorem decode_of_op_legal {w : Word} {i : Instr} (h : rsvdField w = 0#28) (hop : opField w = opcode i) :
    decode w = .ok i := by
  rw [decode, if_pos h, (decodeOp_eq_some_iff _ i).mpr hop]

theorem decode_of_op_illegal {w : Word} (h : rsvdField w = 0#28) (hop : opField w = 0x0#4 ∨ 0x7#4 ≤ opField w) :
    decode w = .error .reservedOpcode := by
  rw [decode, if_pos h, (decodeOp_eq_none_iff _).mpr hop]

theorem decode_encode (i : Instr) : decode (encode i) = .ok i := by
  cases i <;> rfl

theorem encode_of_decode_ok {w : Word} {i : Instr} (h : decode w = .ok i) : encode i = w := by
  unfold decode at h
  split at h
  · rename_i hrsvd
    split at h
    · rename_i hop
      cases h
      rw [encode, ← hrsvd, ← (decodeOp_eq_some_iff _ _).mp hop, rsvdField_append_opField]
    · cases h
  · cases h

/-- A word decodes to a command exactly when it is the command's word. -/
theorem decode_eq_ok_iff {w : Word} {i : Instr} : decode w = .ok i ↔ w = encode i :=
  ⟨fun h => (encode_of_decode_ok h).symm, fun h => h ▸ decode_encode i⟩

/-- The mask of every row of the table takes all 32 bits (R72). -/
theorem decode_eq_ok_iff_masked {w : Word} {i : Instr} : decode w = .ok i ↔ w &&& 0xFFFFFFFF#32 = encode i := by
  rw [decode_eq_ok_iff, show 0xFFFFFFFF#32 = BitVec.allOnes 32 from rfl, BitVec.and_allOnes]

theorem decode_eq_error_iff {w : Word} : (∃ e, decode w = .error e) ↔ ∀ i, w ≠ encode i := by
  simp only [Ne, ← decode_eq_ok_iff]
  cases decode w <;> simp

/-- Every word from 1 to 6 is the word of a command (R72). -/
theorem exists_eq_encode {w : Word} (hpos : w ≠ 0x00000000#32) (hlt : w < 0x00000007#32) : ∃ i, w = encode i := by
  obtain h | h | h | h | h | h : w = 1#32 ∨ w = 2#32 ∨ w = 3#32 ∨ w = 4#32 ∨ w = 5#32 ∨ w = 6#32 := by bv_omega
  exacts [⟨.getbit, h⟩, ⟨.putbit, h⟩, ⟨.pack, h⟩, ⟨.rleenc, h⟩, ⟨.rledec, h⟩, ⟨.rlerend, h⟩]

/-- The command words are 1 to 6. -/
theorem encode_range (i : Instr) : encode i ≠ 0x00000000#32 ∧ encode i < 0x00000007#32 := by
  cases i <;> decide

theorem ne_encode_iff {w : Word} : (∀ i, w ≠ encode i) ↔ w = 0x00000000#32 ∨ 0x00000007#32 ≤ w := by
  constructor
  · intro h
    by_contra hrange
    obtain ⟨hpos, hlt⟩ := not_or.mp hrange
    obtain ⟨i, hi⟩ := exists_eq_encode hpos (BitVec.not_le.mp hlt)
    exact h i hi
  · rintro h i rfl
    obtain ⟨hpos, hlt⟩ := encode_range i
    exact h.elim hpos (BitVec.not_le.mpr hlt)

end Sys2Proof
end

section
/-!
SUPPORT. The block's move in RUN, by what LOP decodes to (spec/30_encoding.md R74), and the two turns that give it the move.
-/

namespace Sys2Proof.Machine

section
variable {s : State} {rest : List Input}

theorem State.granted_pos (hq : s.quota ≠ some 0) : 0 < s.granted := by
  cases h : s.quota with
  | none => rw [State.granted_none s h]; decide
  | some n => rw [State.granted_some s n h]; exact Nat.pos_of_ne_zero fun hn => hq (hn ▸ h)

/-- An illegal command ends in one block step (R74). -/
theorem blockMove_illegal {e : DecodeError} (hb : s.busy = true) (he : decode s.lop = .error e) (turns : List Input)
    {q : Option Nat} (hq : q ≠ some 0) :
    blockMove { s with inputs := turns, quota := q } =
      .next (State.raise { s with inputs := turns } .illegalCommand) := by
  have hmove : blockMove { s with inputs := turns, quota := q } =
      illegalMove { s with inputs := turns, quota := q } := by
    rw [blockMove, if_pos (show State.busy { s with inputs := turns, quota := q } = true from hb), he]
  obtain ⟨n, hn⟩ := Nat.exists_eq_succ_of_ne_zero
    (State.granted_pos (s := { s with inputs := turns, quota := q }) hq).ne'
  rw [hmove, illegalMove, hn]
  rfl

/-- With no block step granted an illegal command stays (notes/assumptions/5). -/
theorem blockMove_illegal_stays {e : DecodeError} (hb : s.busy = true) (he : decode s.lop = .error e)
    (turns : List Input) :
    blockMove { s with inputs := turns, quota := some 0 } = .next { s with inputs := turns, quota := none } := by
  rw [blockMove, if_pos (show State.busy { s with inputs := turns, quota := some 0 } = true from hb), he]
  rfl

theorem step_block {n : Nat} (h : s.inputs = .block n :: rest) :
    step s = blockMove { s with inputs := rest, quota := some n } := step_cons h

/-- A WAIT in RUN gives the block the move and stays first in line. -/
theorem step_wait_run (h : s.inputs = .wait :: rest) (hb : s.busy = true) :
    step s = blockMove { s with quota := none } := by
  rw [step_cons h, takeTurn, hostWait, if_pos (show State.busy { s with inputs := rest } = true from hb), ← h]

/-- A WAIT in IDLE is over, and the host has STATUS. -/
theorem step_wait_idle (h : s.inputs = .wait :: rest) (hb : s.busy = false) :
    step s = .next { s with inputs := rest, hostData := readReg s .status } := by
  have hb' : State.busy { s with inputs := rest } = false := hb
  rw [step_cons h, takeTurn, hostWait, hb']
  rfl

end

end Sys2Proof.Machine
end

section
/-!
SUPPORT. What a command that nothing interrupts answers, and the value it completes with (spec/60_exceptions.md R201, R202),
whether its ranges overlap or not.
-/

namespace Sys2Proof.Machine

/-! ### What an uninterrupted command answers -/

section
variable {i : Instr} {s t : State}

theorem exec_work_none (hs : s.workOk) (hq : s.quota = none) (h : exec i s = .next t) : t.work = none := by
  obtain ⟨j, w', s', hj, hwalk, hend⟩ := walk_to_end (commandBody_enter_ok i s hs)
  rw [exec_eq_runCommand, State.granted_none s hq, runCommand, runBody_of_walk_end hwalk hend hj] at h
  cases h
  exact work_eq_none_of_endsNext hend

/-- A command that nothing interrupts ends: it has completed, or an error ended it (spec/70_reset_and_hazards.md R244). -/
theorem exec_ends (hs : s.workOk) (hq : s.quota = none) (h : exec i s = .next t) :
    ∃ m, (∃ v, t = (s.setMem m).complete v) ∨ (∃ e, t = (s.setMem m).raise e) := by
  have hnone := exec_work_none hs hq h
  obtain ⟨m, ⟨w, rfl⟩ | hend⟩ := exec_cases h
  · cases hnone
  · exact ⟨m, hend⟩

theorem Err.code_ne_zero (e : Err) : e.code ≠ 0#4 := by
  cases e <;> decide

theorem exec_error_result (hs : s.workOk) (hq : s.quota = none) (h : exec i s = .next t) (he : t.err ≠ 0#4) :
    t.result = 0#32 := by
  obtain ⟨m, ⟨v, rfl⟩ | ⟨e, rfl⟩⟩ := exec_ends hs hq h
  · exact absurd (State.complete_err _ v) he
  · rfl

/-- RESULT after success has every property `R` of the values the command completes with, from working variables in range
for which `P`, kept by every block step, holds. -/
theorem exec_success_result {P : State → (commandBody i).Vars → Prop} {R : Word → Prop}
    (hgo : ∀ u w m w', P u w → (commandBody i).step u w = .goOn m w' → P (u.setMem m) w')
    (hcomplete : ∀ u w x, P u w → ((commandBody i).wrap w).ok u → (commandBody i).step u w = .complete x → R x)
    (hs : s.Fresh) (hP : P s ((commandBody i).enter none)) (h : exec i s = .next t) (he : t.err = 0#4) : R t.result := by
  obtain ⟨hwork, hquota⟩ := hs
  have hok := State.workOk_of_none hwork
  have hw := commandBody_enter_ok i s hok
  have hnone : t.work = none := exec_work_none hok hquota h
  rw [hwork] at hw
  rw [exec_eq_runCommand, hwork] at h
  cases h
  refine runBody_induction (Q := fun t => t.work = none → t.err = 0#4 → R t.result)
    (P := fun u w => P u w ∧ ((commandBody i).wrap w).ok u) ?pause ?goOn ?complete ?raise _ _ s ⟨hP, hw⟩ hnone he
  case pause => exact fun u w _ hnone => by cases hnone
  case goOn => exact fun u w m w' ⟨hu, hw⟩ hstep => ⟨hgo u w m w' hu hstep, commandBody_step_ok hw hstep⟩
  case complete => exact fun u w x ⟨hu, hw⟩ hx _ _ => hcomplete u w x hu hw hx
  case raise => exact fun u w e _ _ _ he => absurd ((u.raise_err e).symm.trans he) e.code_ne_zero

end

/-! ### The value each command completes with -/

theorem ceil8_lt {n : Nat} (h : n < 2 ^ 32) : ceil8 n < 2 ^ 32 := by
  unfold ceil8
  omega

/-- GETBIT makes two block steps, the read of the byte and the completion with its bit (spec/40_bit_primitives.md R100). -/
theorem exec_getbit_inside {s : State} (hs : s.Fresh) (ha : getbitAddr s < s.config.memBytes) :
    exec .getbit s =
      .next (s.complete ((BitVec.ofBool (pixelOf (Memory.get s.mem (getbitAddr s)) s.arg2Nat)).setWidth 32)) := by
  have hread : getbitStep s .read = .goOn s.mem (.got (Memory.get s.mem (getbitAddr s))) := by
    rw [getbitStep, Micro.reading_eq, if_pos ha]
  rw [exec_eq_runCommand, hs.1, State.granted_none s hs.2]
  exact congrArg _ (runBody_walk_complete 1 _ _ _ s s _ (walk_succ 0 _ s s.mem _ hread) rfl (by decide))

theorem putbitStep_complete {s : State} {w : PutbitWork} {x : Word} (h : putbitStep s w = .complete x) : x = 0#32 := by
  cases w with
  | read => exact Micro.NotComplete.elim h (.reading _ _ _)
  | write b => exact Micro.NotComplete.elim h (.writing _ _ _ _)
  | done => cases h; rfl

/-- PACK completes with the number of output bytes (spec/41_packer.md R123). -/
theorem packStep_complete {s : State} {w : PackWork} {x : Word} (h : packStep s w = .complete x) :
    x = BitVec.ofNat 32 (ceil8 s.arg2Nat) := by
  cases w with
  | entry => exact Micro.NotComplete.elim h (.ite (.raise _) (.internal _ _))
  | read c j acc => exact Micro.NotComplete.elim h (.ite (.reading _ _ _) (.internal _ _))
  | check c j acc ch => exact Micro.NotComplete.elim h (.ite (.internal _ _) (.ite (.internal _ _) (.raise _)))
  | write c acc => exact Micro.NotComplete.elim h (.writing _ _ _ _)
  | done => cases h; rfl

/-- RLEENC completes with at least the header and one run byte written (spec/42_rle_encoder.md R145). -/
theorem three_le_written_of_complete {s : State} {w : EncWork} {x : Word} (hw : w.ok s)
    (h : rleencStep s w = .complete x) : 3 ≤ w.written := by
  cases w with
  | done v => exact hw.2.1
  | entry => exact Micro.NotComplete.elim h (.ite (.raise _) (.ite (.raise _) (.internal _ _)))
  | pixel => exact Micro.NotComplete.elim h (.ite (.ite (.reading _ _ _) (.internal _ _)) (.internal _ _))
  | bit => exact Micro.NotComplete.elim h (.ite (.internal _ _) (.internal _ _))
  | emit => exact Micro.NotComplete.elim h (.ite (.writing _ _ _ _) (.writing _ _ _ _))
  | header0 | header1 | emitZero => exact Micro.NotComplete.elim h (.writing _ _ _ _)

theorem Micro.NotComplete.sinking {ω σ : Type} (r : Except Err (Memory × σ)) (k : σ → ω) :
    (Micro.sinking r k).NotComplete := by
  cases r <;> nofun

/-- A decoding command completes with the value of its sink. -/
theorem decodeStep_complete {σ : Type} {k : Sink σ} {s : State} {w : DecWork σ} {x : Word}
    (h : decodeStep k s w = .complete x) : ∃ v y, w = .done v y ∧ x = BitVec.ofNat 32 (k.result v y) := by
  cases w with
  | done v y => cases h; exact ⟨v, y, rfl, rfl⟩
  | entry | header | overrun => exact Micro.NotComplete.elim h (.ite (.raise _) (.internal _ _))
  | header0 | header1 => exact Micro.NotComplete.elim h (.reading _ _ _)
  | next => exact Micro.NotComplete.elim h (.ite (.ite (.raise _) (.reading _ _ _)) (.internal _ _))
  | put v y left =>
    cases left with
    | zero => exact Micro.NotComplete.elim h (.internal _ _)
    | succ n => exact Micro.NotComplete.elim h (.sinking _ _)
  | putEnd | tail => exact Micro.NotComplete.elim h (.sinking _ _)

/-- At its completion a decoding command has put all the pixels that the header, as it stood in memory at the beginning,
gives it (spec/43_rle_decoder.md R160, R166). -/
theorem decodeStep_complete_pixels {σ : Type} {k : Sink σ} {own : ReplayVars → Bool → σ → Prop} {s u : State}
    {w : DecWork σ} {x : Word} (hw : w.ok own u) (hdims : decDims u w = decDims s (.entry (σ := σ)))
    (h : decodeStep k u w = .complete x) :
    ∃ v y, x = BitVec.ofNat 32 (k.result v y) ∧ v.ok u ∧ own v false y ∧ v.total = v.pixels ∧
      v.pixels = s.streamRows * s.streamCols ∧ v.cols.toNat = s.streamCols := by
  obtain ⟨v, y, rfl, hx⟩ := decodeStep_complete h
  obtain ⟨hv, htotal, hown⟩ := hw
  obtain ⟨hrows, hcols⟩ := Prod.mk.inj hdims
  refine ⟨v, y, hx, hv, hown, htotal, ?_, congrArg _ hcols⟩
  rw [ReplayVars.pixels, hrows, hcols]
  rfl

/-! ### RESULT after success -/

section
variable {s t : State} (hs : s.Fresh) (he : t.err = 0#4)
include hs he

theorem getbit_result (h : exec .getbit s = .next t) :
    t.result = if pixelAt s.mem s.l0.toNat s.l2.toNat then 1#32 else 0#32 := by
  by_cases ha : getbitAddr s < s.config.memBytes
  · rw [exec_getbit_inside hs ha] at h
    cases h
    show BitVec.setWidth 32 (BitVec.ofBool (pixelAt s.mem s.l0.toNat s.l2.toNat)) = _
    cases pixelAt s.mem s.l0.toNat s.l2.toNat <;> rfl
  · rw [exec_firstRead_fault (i := .getbit) hs rfl (Nat.le_of_not_lt ha)] at h
    cases h
    exact absurd ((s.raise_err .accessFault).symm.trans he) (Err.code_ne_zero _)

theorem putbit_result (h : exec .putbit s = .next t) : t.result = 0#32 :=
  exec_success_result (i := .putbit) (R := fun x => x = 0#32) (P := fun _ _ => True) (fun _ _ _ _ _ _ => trivial)
    (fun _ _ _ _ _ hx => putbitStep_complete hx) hs trivial h he

theorem pack_result (h : exec .pack s = .next t) : t.result.toNat = ceil8 s.l2.toNat := by
  refine exec_success_result (i := .pack) (R := fun x => x.toNat = ceil8 s.l2.toNat) (P := fun u _ => u.l2 = s.l2)
    (fun _ _ _ _ hu _ => hu) (fun u w x hu _ hx => ?_) hs rfl h he
  rw [packStep_complete hx, State.arg2Nat, hu, BitVec.toNat_ofNat, Nat.mod_eq_of_lt (ceil8_lt s.l2.isLt)]

theorem rleenc_result (h : exec .rleenc s = .next t) : 3 ≤ t.result.toNat := by
  refine exec_success_result (i := .rleenc) (R := fun x => 3 ≤ x.toNat) (P := fun _ _ => True)
    (fun _ _ _ _ _ _ => trivial) (fun u w x _ hw hx => ?_) hs trivial h he
  rw [rleencStep_complete hx, BitVec.toNat_ofNat, Nat.mod_eq_of_lt (EncWork.written_lt hw)]
  exact three_le_written_of_complete hw hx

theorem rledec_result (h : exec .rledec s = .next t) : t.result.toNat = ceil8 (s.streamRows * s.streamCols) := by
  refine exec_success_result (i := .rledec) (R := fun x => x.toNat = ceil8 (s.streamRows * s.streamCols))
    (P := fun u w => decDims u w = decDims s (.entry (σ := Byte)))
    (fun _ _ _ _ hdims hstep => (decDims_step hstep).trans hdims) (fun u w x hdims hw hx => ?_) hs rfl h he
  obtain ⟨v, acc, rfl, -, -, -, hpixels, -⟩ := decodeStep_complete_pixels hw hdims hx
  have hlt : ceil8 v.pixels < 2 ^ 32 := ceil8_lt (lt_of_le_of_lt v.pixels_le (by decide))
  rw [BitVec.toNat_ofNat, ← hpixels]
  exact Nat.mod_eq_of_lt hlt

theorem rlerend_result (h : exec .rlerend s = .next t) :
    t.result.toNat = s.streamRows * s.streamCols + s.streamRows := by
  refine exec_success_result (i := .rlerend) (R := fun x => x.toNat = s.streamRows * s.streamCols + s.streamRows)
    (P := fun u w => decDims u w = decDims s (.entry (σ := Nat)))
    (fun _ _ _ _ hdims hstep => (decDims_step hstep).trans hdims) (fun u w x hdims hw hx => ?_) hs rfl h he
  obtain ⟨v, q, rfl, ⟨-, hne, -, -⟩, hq, htotal, hpixels, hcols⟩ := decodeStep_complete_pixels hw hdims hx
  have hpos : 0 < s.streamCols := by
    rw [← hcols]
    exact Nat.pos_of_ne_zero fun h0 => hne (BitVec.eq_of_toNat_eq h0)
  have hoffset : q = s.streamRows * s.streamCols + s.streamRows :=
    calc q = v.total + v.total / v.cols.toNat := hq
      _ = s.streamRows * s.streamCols + s.streamRows := by
        rw [htotal, hpixels, hcols, Nat.mul_div_cancel _ hpos]
  have hlt : q < 2 ^ 32 := by
    have hle := v.pixels_le
    have hrows : s.streamRows < 2 ^ 8 := BitVec.isLt _
    omega
  rw [← hoffset, BitVec.toNat_ofNat]
  exact Nat.mod_eq_of_lt hlt

end

end Sys2Proof.Machine
end

section
/-!
The obligations on the command words, what they run, and what RESULT holds after it (spec/30_encoding.md).
-/

namespace Sys2Proof.Machine

/-- Settles O2: a word decodes to a command exactly when it is the command's word. -/
theorem decodeInvertsEncode : Obligations.DecodeInvertsEncode := by
  unfold Obligations.DecodeInvertsEncode
  exact ⟨fun i _ => decode_encode i, fun w i => encode_of_decode_ok⟩

/-- Settles O4: RSVD and OP decide what LOP decodes to, and with a block step to make an illegal word ends at once. -/
theorem latchedWordDecides : Obligations.LatchedWordDecides := by
  unfold Obligations.LatchedWordDecides
  intro s hin hb hq
  have hok : ∀ i, rsvdField s.lop = 0#28 → opField s.lop = opcode i → step s = exec i s := fun i hr hop => by
    rw [step_nil hin, blockMove_of_decode_ok hb (decode_of_op_legal hr hop)]
  have hillegal : ∀ e, decode s.lop = .error e → step s = .next (s.raise .illegalCommand) := fun e he => by
    rw [step_nil hin]
    exact blockMove_illegal hb he s.inputs hq
  exact ⟨fun hr => hillegal _ (decode_of_rsvd_ne hr),
    fun hr => ⟨hok .getbit hr, hok .putbit hr, hok .pack hr, hok .rleenc hr, hok .rledec hr, hok .rlerend hr,
      fun hop => hillegal _ (decode_of_op_illegal hr hop)⟩,
    State.raise_err s _, rfl, rfl⟩

/-- Settles O48: an uninterrupted command has completed or was ended by an error, which leaves RESULT 0; the value of each
command's completion follows from the ranges of its working variables and, for the decoders, from the header. -/
theorem resultsOfCommands : Obligations.ResultsOfCommands := by
  unfold Obligations.ResultsOfCommands
  intro s t hs
  exact ⟨fun i h he => exec_error_result (State.workOk_of_none hs.1) hs.2 h he, fun h he => getbit_result hs he h,
    fun h he => putbit_result hs he h, fun h he => pack_result hs he h, fun h he => rleenc_result hs he h,
    fun h he => rledec_result hs he h, fun h he => rlerend_result hs he h⟩

/-- Settles O53: in RUN the block has the move, and the latched command, legal or not, ends with it; in IDLE the host has
STATUS. -/
theorem waitSeesTheBlockIdle : Obligations.WaitSeesTheBlockIdle := by
  unfold Obligations.WaitSeesTheBlockIdle
  intro s rest hs h
  refine ⟨fun hb => ?run, fun hb => step_wait_idle h hb⟩
  rw [step_wait_run h hb]
  cases hi : decode s.lop with
  | ok i =>
    obtain ⟨t, ht⟩ := exec_next i { s with quota := none }
    refine ⟨t, (blockMove_of_decode_ok (s := { s with quota := none }) hb hi).trans ht, ?_⟩
    obtain ⟨m, ⟨v, rfl⟩ | ⟨e, rfl⟩⟩ := exec_ends hs.quotaCleared.workRange rfl ht
    · exact ⟨State.complete_busy _ v, State.complete_done _ v, h⟩
    · exact ⟨State.raise_busy _ e, State.raise_done _ e, h⟩
  | error e =>
    exact ⟨_, blockMove_illegal hb hi s.inputs nofun, State.raise_busy _ _, State.raise_done _ _, h⟩

/-- Settles O1: a command is what its one word decodes to (`decode_eq_ok_iff`), and these words are 1 to 6. -/
theorem commandWordsSelectCommands : Obligations.CommandWordsSelectCommands := by
  unfold Obligations.CommandWordsSelectCommands
  exact fun w => ⟨decode_eq_ok_iff_masked, decode_eq_ok_iff_masked, decode_eq_ok_iff_masked, decode_eq_ok_iff_masked,
    decode_eq_ok_iff_masked, decode_eq_ok_iff_masked, decode_eq_error_iff.trans ne_encode_iff⟩

/-- Settles O3, by evaluating the decoder on the eight words. -/
theorem tableWordsDecode : Obligations.TableWordsDecode := by
  unfold Obligations.TableWordsDecode
  decide

/-- Settles O5, by whether LOP is legal and by the turn that gives the block the move. -/
theorem stepRunsDecodedCommand : Obligations.StepRunsDecodedCommand := by
  unfold Obligations.StepRunsDecodedCommand
  constructor
  · intro s i hb hi
    refine ⟨fun h => ?_, fun n rest h => ?_, fun rest h => ?_⟩
    · rw [step_nil h, blockMove_of_decode_ok hb hi]
    · rw [step_block h]; exact blockMove_of_decode_ok hb hi
    · rw [step_wait_run h hb]; exact blockMove_of_decode_ok hb hi
  · intro s e hb he
    refine ⟨fun h hq => ?_, fun n rest h => ?_, fun rest h => ?_, fun rest h => ?_, fun rest =>
      ⟨State.raise_err _ _, rfl, rfl⟩⟩
    · rw [step_nil h]; exact blockMove_illegal hb he s.inputs hq
    · rw [step_block h]; exact blockMove_illegal hb he rest nofun
    · rw [step_block h]; exact blockMove_illegal_stays hb he rest
    · rw [step_wait_run h hb]; exact blockMove_illegal hb he s.inputs nofun

end Sys2Proof.Machine
end

section
/-!
SUPPORT. What PUTBIT's byte holds, and what the pieces of the pseudocode answer in each case (spec/40_bit_primitives.md R100
to R102).
-/

namespace Sys2Proof.Machine

/-! ### Bits of a byte and pixels of a buffer -/

/-- RESULT of a pixel: 0 or 1 (R100). -/
theorem setWidth_ofBool_word (b : Bool) : (BitVec.ofBool b).setWidth 32 = if b then 1#32 else 0#32 := by
  cases b <;> rfl

/-- The value PUTBIT writes is the one-bit field L3[0] (R101). -/
theorem State.ofBool_putValue (s : State) : BitVec.ofBool s.putValue = s.l3.extractLsb' 0 1 := by
  ext i hi
  obtain rfl : i = 0 := by omega
  simp [State.putValue]

/-- `putBitInto` with the mask to a byte that R101 writes, which masks nothing. -/
theorem putBitInto_eq_masked (b : Byte) (p : Nat) (v : Bool) :
    putBitInto b p v = (b &&& ~~~(1#8 <<< p) &&& 0xFF#8) ||| ((BitVec.ofBool v).setWidth 8 <<< p) := by
  rw [show 0xFF#8 = BitVec.allOnes 8 from rfl, BitVec.and_allOnes, putBitInto]

/-- Bit `p` becomes the value written, and the other bits of the byte stay (R101). -/
theorem getLsbD_putBitInto (b : Byte) (p : Nat) (v : Bool) {k : Nat} (hk : k < 8) :
    (putBitInto b p v).getLsbD k = if k = p then v else b.getLsbD k := by
  rcases Nat.lt_trichotomy k p with hlt | rfl | hgt
  · simp [putBitInto, hk, hlt, hlt.ne]
  · simp [putBitInto, hk]
  · have hbit : k - p ≠ 0 := Nat.sub_ne_zero_of_lt hgt
    simp [putBitInto, hk, hgt.ne', Nat.not_lt.mpr hgt.le, hbit]

/-- Two indices name the same bit only when they are the same (spec/20_memory.md R54). -/
theorem bitPos_ne_of_same_byte {i j : Nat} (hne : j ≠ i) (hbyte : j / 8 = i / 8) : bitPos j ≠ bitPos i := by
  unfold bitPos
  omega

theorem pixelAt_eq (m : Memory) (base i : Nat) : pixelAt m base i = pixelOf (Memory.get m (bitAddr base i)) i := rfl

/-- Bit `i` of a buffer put into its byte is pixel `i` of the memory after it, and every other pixel stays (R101, R102). -/
theorem pixelAt_set_putBitInto {m : Memory} (hm : Memory.wf m) (base i j : Nat) (v : Bool) :
    pixelAt (Memory.set m (bitAddr base i) (putBitInto (Memory.get m (bitAddr base i)) (bitPos i) v)) base j =
      if j = i then v else pixelAt m base j := by
  have hbit : bitPos j < 8 := Nat.lt_succ_of_le (Nat.sub_le 7 _)
  simp only [pixelAt_eq, pixelOf]
  by_cases hbyte : j / 8 = i / 8
  · have haddr : bitAddr base j = bitAddr base i := congrArg (base + ·) hbyte
    rw [haddr, Memory.get_set_self _ _ _ hm, getLsbD_putBitInto _ _ _ hbit]
    by_cases hij : j = i
    · rw [if_pos (congrArg bitPos hij), if_pos hij]
    · rw [if_neg (bitPos_ne_of_same_byte hij hbyte), if_neg hij]
  · have haddr : bitAddr base j ≠ bitAddr base i := fun h => hbyte (Nat.add_left_cancel h)
    rw [Memory.get_set_ne _ _ _ _ haddr, if_neg fun hij => hbyte (congrArg (· / 8) hij)]

/-- GetBit is the pixel, or AccessFault (spec/20_memory.md R54). -/
theorem getBit_eq (s : State) (base idx : Nat) :
    getBit s base idx =
      if bitAddr base idx < s.config.memBytes then .ok (pixelAt s.mem base idx) else .error .accessFault := by
  rw [getBit, memRead_eq]
  by_cases ha : bitAddr base idx < s.config.memBytes
  · rw [if_pos ha, if_pos ha]
    rfl
  · rw [if_neg ha, if_neg ha]

/-! ### The two commands inside memory -/

/-- The byte PUTBIT writes (R101). -/
def putbitByte (s : State) : Byte :=
  putBitInto (Memory.get s.mem (putbitAddr s)) (bitPos s.arg2Nat) s.putValue

/-- The byte PUTBIT writes, as R101 writes it. -/
theorem putbitByte_eq (s : State) :
    putbitByte s =
      (Memory.get s.mem (putbitAddr s) &&& ~~~(1#8 <<< bitPos s.arg2Nat) &&& 0xFF#8) |||
        ((s.l3.extractLsb' 0 1).setWidth 8 <<< bitPos s.arg2Nat) := by
  rw [putbitByte, putBitInto_eq_masked, State.ofBool_putValue]

section
variable {s : State}

/-- GETBIT completes with the pixel (R100). -/
theorem exec_getbit_pixel (hs : s.Fresh) (ha : getbitAddr s < s.config.memBytes) :
    exec .getbit s = .next (s.complete (if pixelAt s.mem s.l0.toNat s.l2.toNat then 1#32 else 0#32)) := by
  rw [exec_getbit_inside hs ha, setWidth_ofBool_word]
  rfl

/-- PUTBIT makes three block steps: the read of the byte, the write of it, and the completion with 0 (R101). -/
theorem exec_putbit_inside (hs : s.Fresh) (ha : putbitAddr s < s.config.memBytes) :
    exec .putbit s = .next ((s.setMem (Memory.set s.mem (putbitAddr s) (putbitByte s))).complete 0#32) := by
  have hread : putbitStep s .read = .goOn s.mem (.write (Memory.get s.mem (putbitAddr s))) := by
    rw [putbitStep, Micro.reading_eq, if_pos ha]
  have hwrite : putbitStep s (.write (Memory.get s.mem (putbitAddr s))) =
      .goOn (Memory.set s.mem (putbitAddr s) (putbitByte s)) .done := by
    rw [putbitStep, Micro.writing_eq, if_pos ha]
    rfl
  rw [exec_eq_runCommand, hs.1, State.granted_none s hs.2]
  exact congrArg _ (runBody_walk_complete 2 _ _ _ s _ _
    ((walk_succ 1 _ s s.mem _ hread).trans (walk_succ 0 _ s _ _ hwrite)) rfl (by decide))

end

/-! ### The pseudocode, one lemma a case -/

section
variable {α β : Type} {s : State} {m m' : Memory} {a : Nat}

theorem Body.load_inside (ha : a < s.config.memBytes) : Body.load s a m = (m, .ok (Memory.get m a)) := by
  simp [Body.load, memRead_eq, ha]

theorem Body.load_outside (ha : s.config.memBytes ≤ a) : Body.load s a m = (m, .error .accessFault) := by
  simp [Body.load, memRead_eq, Nat.not_lt.mpr ha]

theorem Body.store_inside (v : Byte) (ha : a < s.config.memBytes) :
    Body.store s a v m = (Memory.set m a v, .ok ()) := by
  simp [Body.store, memWrite_eq, ha]

theorem Body.andThen_ok {b : Body α} {x : α} (k : α → Body β) (h : b m = (m', .ok x)) : b.andThen k m = k x m' := by
  rw [Body.andThen, h]

theorem Body.andThen_error {b : Body α} {e : Err} (k : α → Body β) (h : b m = (m', .error e)) :
    b.andThen k m = (m', .error e) := by
  rw [Body.andThen, h]

theorem conclude_ok {b : Body Nat} {n : Nat} (h : b s.mem = (m, .ok n)) :
    conclude s b = (s.setMem m).complete (BitVec.ofNat 32 n) := by
  rw [conclude, h]

theorem conclude_error {b : Body Nat} {e : Err} (h : b s.mem = (m, .error e)) :
    conclude s b = (s.setMem m).raise e := by
  rw [conclude, h]

/-- The pseudocode of GETBIT inside memory (R100). -/
theorem pseudoGetbit_inside (ha : getbitAddr s < s.config.memBytes) :
    pseudoGetbit s m = (m, .ok (if pixelAt m s.l0.toNat s.l2.toNat then 1 else 0)) :=
  Body.andThen_ok _ (Body.load_inside ha)

theorem pseudoGetbit_outside (ha : s.config.memBytes ≤ getbitAddr s) :
    pseudoGetbit s m = (m, .error .accessFault) :=
  Body.andThen_error _ (Body.load_outside ha)

/-- The pseudocode of PUTBIT inside memory (R101). -/
theorem pseudoPutbit_inside (ha : putbitAddr s < s.config.memBytes) :
    pseudoPutbit s s.mem = (Memory.set s.mem (putbitAddr s) (putbitByte s), .ok 0) := by
  rw [putbitByte_eq]
  exact (Body.andThen_ok _ (Body.load_inside ha)).trans (Body.andThen_ok _ (Body.store_inside _ ha))

theorem pseudoPutbit_outside (ha : s.config.memBytes ≤ putbitAddr s) :
    pseudoPutbit s m = (m, .error .accessFault) :=
  Body.andThen_error _ (Body.load_outside ha)

end

end Sys2Proof.Machine
end

section
/-!
The obligations on GETBIT and PUTBIT (spec/40_bit_primitives.md).
-/

namespace Sys2Proof.Machine

/-- Settles O24: GETBIT completes with the pixel inside memory, and its one read faults outside. -/
theorem getbitReadsTheBit : Obligations.GetbitReadsTheBit := by
  unfold Obligations.GetbitReadsTheBit
  exact ⟨decode_encode .getbit,
    fun s hs => ⟨exec_getbit_pixel hs, exec_firstRead_fault (i := .getbit) hs rfl⟩⟩

/-- Settles O25: the byte PUTBIT writes is the rule's (`putbitByte_eq`), and its bits are those of `getLsbD_putBitInto`. -/
theorem putbitWritesTheBit : Obligations.PutbitWritesTheBit := by
  unfold Obligations.PutbitWritesTheBit
  refine ⟨decode_encode .putbit, fun s hs => ⟨fun ha => ?_, exec_firstRead_fault (i := .putbit) hs rfl⟩⟩
  exact ⟨putbitByte s, exec_putbit_inside hs ha, putbitByte_eq s, fun k hk => getLsbD_putBitInto _ _ _ hk⟩

/-- Settles O26: PUTBIT changes one pixel of the buffer (`pixelAt_set_putBitInto`), and GETBIT answers that pixel of any
memory with the same byte. -/
theorem putbitThenGetbitAgree : Obligations.PutbitThenGetbitAgree := by
  unfold Obligations.PutbitThenGetbitAgree
  intro s hs hwf ha
  have hpixel : ∀ idx, pixelAt (Memory.set s.mem (putbitAddr s) (putbitByte s)) s.l1.toNat idx =
      if idx = s.l2.toNat then s.putValue else pixelAt s.mem s.l1.toNat idx :=
    fun idx => pixelAt_set_putBitInto hwf s.l1.toNat s.l2.toNat idx s.putValue
  refine ⟨_, exec_putbit_inside hs ha, State.complete_err _ _, ?others, ?same⟩
  case others =>
    intro idx hidx
    rw [getBit_eq, getBit_eq, State.complete_mem, State.setMem_mem, hpixel, if_neg hidx]
    rfl
  case same =>
    intro u hu hconfig hbase hindex hbyte
    have hvalue : pixelAt u.mem u.l0.toNat u.l2.toNat = s.putValue := by
      rw [hbase, hindex, pixelAt, hbyte]
      exact (hpixel _).trans (if_pos rfl)
    have hinside : getbitAddr u < u.config.memBytes := by
      rw [hconfig, getbitAddr, State.srcBase, State.arg2Nat, hbase, hindex]
      exact ha
    rw [exec_getbit_pixel hu hinside, hvalue]
    rfl

/-- Settles O40, by whether the byte lies in memory: the block steps and the pseudocode answer the same there, and
AccessFault elsewhere. -/
theorem bitCommandsFollowPseudocode : Obligations.BitCommandsFollowPseudocode := by
  unfold Obligations.BitCommandsFollowPseudocode
  refine fun s hs => ⟨?getbit, ?putbit⟩
  case getbit =>
    rcases lt_or_ge (getbitAddr s) s.config.memBytes with ha | ha
    · rw [exec_getbit_pixel hs ha, conclude_ok (pseudoGetbit_inside ha), apply_ite (BitVec.ofNat 32)]
      rfl
    · rw [exec_firstRead_fault (i := .getbit) hs rfl ha, conclude_error (pseudoGetbit_outside ha)]
      rfl
  case putbit =>
    rcases lt_or_ge (putbitAddr s) s.config.memBytes with ha | ha
    · rw [exec_putbit_inside hs ha, conclude_ok (pseudoPutbit_inside ha)]
    · rw [exec_firstRead_fault (i := .putbit) hs rfl ha, conclude_error (pseudoPutbit_outside ha)]
      rfl

end Sys2Proof.Machine
end

section
/-!
SUPPORT. What a piece of pseudocode may end with, one rule for each of the ways to build one, and the principle by which a
command that goes through its pseudocode block step by block step does the same (spec/20_memory.md R63).
-/

namespace Sys2Proof.Machine

/-! ### The endings of a piece of pseudocode -/

section
variable {α β σ : Type} {s : State} {m : Memory} {E : Err → Memory → Prop}

theorem Body.store_outside {a : Nat} (v : Byte) (ha : s.config.memBytes ≤ a) :
    Body.store s a v m = (m, .error .accessFault) := by
  simp [Body.store, memWrite_eq, Nat.not_lt.mpr ha]

/-- Run from memory `m`, the body ends with a value and a memory of `Q`, or with an error and a memory of `E`. -/
def Body.Meets (b : Body α) (m : Memory) (Q : α → Memory → Prop) (E : Err → Memory → Prop) : Prop :=
  match b m with
  | (m', .ok x) => Q x m'
  | (m', .error e) => E e m'

variable {Q : α → Memory → Prop}

theorem Body.Meets.of_ok {b : Body α} {x : α} {m' : Memory} (h : b m = (m', .ok x)) (hx : Q x m') : b.Meets m Q E := by
  rw [Body.Meets, h]
  exact hx

theorem Body.Meets.of_error {b : Body α} {e : Err} {m' : Memory} (h : b m = (m', .error e)) (he : E e m') :
    b.Meets m Q E := by
  rw [Body.Meets, h]
  exact he

theorem Body.Meets.cases {b : Body α} (h : b.Meets m Q E) :
    (∃ x m', b m = (m', .ok x) ∧ Q x m') ∨ ∃ e m', b m = (m', .error e) ∧ E e m' := by
  unfold Body.Meets at h
  split at h
  · exact .inl ⟨_, _, ‹_›, h⟩
  · exact .inr ⟨_, _, ‹_›, h⟩

theorem Body.Meets.give {x : α} (h : Q x m) : (Body.give x).Meets m Q E := h

theorem Body.Meets.fail {e : Err} (h : E e m) : (Body.fail e : Body α).Meets m Q E := h

theorem Body.Meets.andThen {b : Body α} {k : α → Body β} {R : β → Memory → Prop} (hb : b.Meets m Q E)
    (hk : ∀ x m', Q x m' → (k x).Meets m' R E) : (b.andThen k).Meets m R E := by
  obtain ⟨x, m', h, hx⟩ | ⟨e, m', h, he⟩ := hb.cases
  · have hnext := hk x m' hx
    rwa [Body.Meets, ← Body.andThen_ok k h] at hnext
  · exact .of_error (Body.andThen_error k h) he

theorem Body.Meets.load {a : Nat} {Q : Byte → Memory → Prop} (hin : a < s.config.memBytes → Q (Memory.get m a) m)
    (hout : s.config.memBytes ≤ a → E .accessFault m) : (Body.load s a).Meets m Q E := by
  obtain ha | ha := Nat.lt_or_ge a s.config.memBytes
  · exact .of_ok (Body.load_inside ha) (hin ha)
  · exact .of_error (Body.load_outside ha) (hout ha)

theorem Body.Meets.store {a : Nat} {v : Byte} {Q : Unit → Memory → Prop}
    (hin : a < s.config.memBytes → Q () (Memory.set m a v)) (hout : s.config.memBytes ≤ a → E .accessFault m) :
    (Body.store s a v).Meets m Q E := by
  obtain ha | ha := Nat.lt_or_ge a s.config.memBytes
  · exact .of_ok (Body.store_inside v ha) (hin ha)
  · exact .of_error (Body.store_outside v ha) (hout ha)

/-- A loop whose every pass takes `P` of its index to `P` of the next one takes `P` of the first to `P` behind the last. -/
theorem Body.Meets.loop {f : Nat → σ → Body σ} {P : Nat → σ → Memory → Prop} {n i : Nat} {x : σ}
    (hpass : ∀ k y m', i ≤ k → k < i + n → P k y m' → (f k y).Meets m' (P (k + 1)) E) (h : P i x m) :
    (Body.loop n i x f).Meets m (P (i + n)) E := by
  induction n generalizing i x m with
  | zero => exact .give h
  | succ n ih =>
    refine .andThen (hpass i x m (Nat.le_refl i) (by omega) h) fun y m' hy => ?_
    rw [Nat.add_comm n 1, ← Nat.add_assoc]
    exact ih (fun k z m'' hlo hhi => hpass k z m'' (by omega) (by omega)) hy

end

/-! ### Block steps that follow the pseudocode -/

section
variable {ω α : Type} {f : State → ω → Micro ω} {s : State} {m m' : Memory} {w₀ w w' : ω}

/-- Block steps lead from `s` and `w₀` to the memory `m` and `w`. -/
def Reaches (f : State → ω → Micro ω) (s : State) (w₀ : ω) (m : Memory) (w : ω) : Prop :=
  ∃ j, walk f j w₀ s = some (w, s.setMem m)

/-- Block steps lead from `s` and `w₀` to the memory `m` and a last block step, `x`. -/
def ReachesEnd (f : State → ω → Micro ω) (s : State) (w₀ : ω) (x : Micro ω) (m : Memory) : Prop :=
  ∃ w, Reaches f s w₀ m w ∧ f (s.setMem m) w = x

/-- Block steps lead from `s` and `w₀` to the memory `m` and the error `e`. -/
abbrev ReachesRaise (f : State → ω → Micro ω) (s : State) (w₀ : ω) (e : Err) (m : Memory) : Prop :=
  ReachesEnd f s w₀ (.raise e) m

theorem Reaches.refl : Reaches f s w s.mem w := ⟨0, rfl⟩

theorem Reaches.goOn (h : Reaches f s w₀ m w) (hf : f (s.setMem m) w = .goOn m' w') : Reaches f s w₀ m' w' := by
  obtain ⟨j, hj⟩ := h
  exact ⟨j + 1, (walk_add j 1 w₀ w s _ hj).trans (walk_succ 0 w _ m' w' hf)⟩

theorem Reaches.raise (h : Reaches f s w₀ m w) {e : Err} (hf : f (s.setMem m) w = .raise e) :
    ReachesRaise f s w₀ e m :=
  ⟨w, h, hf⟩

/-- A reading block step does what MemRead does (spec/20_memory.md R51). -/
theorem Reaches.load (h : Reaches f s w₀ m w) {a : Nat} {k : Byte → ω}
    (hf : f (s.setMem m) w = .reading (s.setMem m) a k) :
    (Body.load s a).Meets m (fun b m' => Reaches f s w₀ m' (k b)) (ReachesRaise f s w₀) := by
  rw [Micro.reading_eq] at hf
  exact .load (fun ha => h.goOn (hf.trans (if_pos ha))) fun ha => h.raise (hf.trans (if_neg (Nat.not_lt.mpr ha)))

/-- A writing block step does what MemWrite does (R52). -/
theorem Reaches.store (h : Reaches f s w₀ m w) {a : Nat} {v : Byte}
    (hf : f (s.setMem m) w = .writing (s.setMem m) a v w') :
    (Body.store s a v).Meets m (fun _ m' => Reaches f s w₀ m' w') (ReachesRaise f s w₀) := by
  rw [Micro.writing_eq] at hf
  exact .store (fun ha => h.goOn (hf.trans (if_pos ha))) fun ha => h.raise (hf.trans (if_neg (Nat.not_lt.mpr ha)))

end

section
variable {i : Instr} {s : State} {m : Memory}

/-- A command from variables in range ends as any walk to an end of its body ends. -/
theorem runCommand_of_walk_end {j : Nat} {w w' : (commandBody i).Vars} {s' : State}
    (hw : ((commandBody i).wrap w).ok s) (hwalk : walk (commandBody i).step j w s = some (w', s'))
    (hend : EndsNext (commandBody i).step s' w') :
    runCommand i Config.blockStepBound w s = runCommand i 1 w' s' := by
  obtain ⟨j₁, w₁, s₁, hj₁, hwalk₁, hend₁⟩ := walk_to_end hw
  have hbound := runBody_of_walk_end (inj := (commandBody i).wrap) hwalk₁ hend₁ hj₁
  have hlong := runBody_of_walk_end (inj := (commandBody i).wrap) hwalk₁ hend₁ (k := j + j₁ + 1) (by omega)
  exact hbound.trans (hlong.symm.trans (runBody_of_walk_end hwalk hend (by omega)))

/-- A command whose block steps lead to an end ends with that block step. -/
theorem exec_of_reachesEnd (hs : s.Fresh) {x : Micro (commandBody i).Vars}
    (h : ReachesEnd (commandBody i).step s ((commandBody i).enter none) x m)
    (hx : (∃ v, x = .complete v) ∨ ∃ e, x = .raise e) :
    ∃ w, (commandBody i).step (s.setMem m) w = x ∧ exec i s = .next (runCommand i 1 w (s.setMem m)) := by
  obtain ⟨w, ⟨j, hj⟩, rfl⟩ := h
  have hw := commandBody_enter_ok i s (State.workOk_of_none hs.1)
  rw [hs.1] at hw
  refine ⟨w, rfl, ?_⟩
  rw [exec_eq_runCommand, hs.1, State.granted_none s hs.2, runCommand_of_walk_end hw hj hx]

/-- A command whose block steps lead, from its beginning, to a completion with the value its pseudocode ends with, or to the
error its pseudocode ends with, does what its pseudocode does. -/
theorem exec_eq_conclude (hs : s.Fresh) {b : Body Nat}
    (h : b.Meets s.mem
      (fun n => ReachesEnd (commandBody i).step s ((commandBody i).enter none) (.complete (BitVec.ofNat 32 n)))
      (ReachesRaise (commandBody i).step s ((commandBody i).enter none))) :
    exec i s = .next (conclude s b) := by
  obtain ⟨n, m, hb, hend⟩ | ⟨e, m, hb, hend⟩ := h.cases
  · obtain ⟨w, hw, hexec⟩ := exec_of_reachesEnd hs hend (.inl ⟨_, rfl⟩)
    rw [hexec, runCommand, runBody_succ, hw, conclude_ok hb]
  · obtain ⟨w, hw, hexec⟩ := exec_of_reachesEnd hs hend (.inr ⟨_, rfl⟩)
    rw [hexec, runCommand, runBody_succ, hw, conclude_error hb]

end

end Sys2Proof.Machine
end

section
/-!
SUPPORT. PACK goes through its pseudocode block step by block step (spec/41_packer.md R120).
-/

namespace Sys2Proof.Machine

/-- PACK before pixel `8c + j` of chunk `c`, or, behind the last one, before the write of its byte. -/
def packAtPixel (c j : Nat) (acc : Byte) : PackWork := if j < 8 then .read c j acc else .write c acc

theorem packNext_eq (c j : Nat) (acc : Byte) : packNext c j acc = packAtPixel c (j + 1) acc :=
  if_congr Nat.succ_lt_succ_iff.symm rfl rfl

/-- PACK before chunk `c`, or behind the last one. -/
def packAtChunk (s : State) (c : Nat) : PackWork := if c < ceil8 s.l2.toNat then .read c 0 0#8 else .done

theorem ceil8_pos {n : Nat} (h : n ≠ 0) : 0 < ceil8 n := by
  unfold ceil8
  omega

/-- Chunk `c` of the pseudocode: its eight pixels and the write of its byte (R120). -/
def pseudoPackChunk (s : State) (c : Nat) : Body Unit :=
  (Body.loop 8 0 0#8 (fun j acc => pseudoPackPixel s c j acc)).andThen (fun acc => Body.store s (s.l1.toNat + c) acc)

/-- With some pixels the pseudocode is its chunks and the answer of their number. -/
theorem pseudoPack_of_ne_zero {s : State} (hn : s.l2.toNat ≠ 0) :
    pseudoPack s =
      (Body.loop (ceil8 s.l2.toNat) 0 () (fun c _ => pseudoPackChunk s c)).andThen (fun _ =>
        Body.give (ceil8 s.l2.toNat)) :=
  if_neg hn

theorem pseudoPack_of_zero {s : State} (hn : s.l2.toNat = 0) : pseudoPack s = Body.fail .invalidPhotoSize :=
  if_pos hn

section
variable {s : State} {m : Memory} {c j : Nat} {acc : Byte}

/-- The block steps of one pixel: its read and its check, or nothing for a pad bit (R121, R122). -/
theorem pack_pixel_follows (h : Reaches packStep s .entry m (.read c j acc)) :
    (pseudoPackPixel s c j acc).Meets m (fun acc' m' => Reaches packStep s .entry m' (packAtPixel c (j + 1) acc'))
      (ReachesRaise packStep s .entry) := by
  unfold pseudoPackPixel
  by_cases hn : 8 * c + j < s.l2.toNat
  · rw [if_pos hn]
    have hread : packStep (s.setMem m) (.read c j acc) =
        .reading (s.setMem m) (s.l0.toNat + (8 * c + j)) (.check c j acc) := if_pos hn
    refine .andThen (h.load hread) fun ch m' hch => ?_
    have hcheck : packStep (s.setMem m') (.check c j acc ch) =
        if ch = 0x31#8 then .internal (s.setMem m') (packAtPixel c (j + 1) (acc ||| (1#8 <<< (7 - j))))
        else if ch = 0x30#8 then .internal (s.setMem m') (packAtPixel c (j + 1) acc)
        else .raise .unknownCharacter := by
      rw [← packNext_eq, ← packNext_eq]
      rfl
    by_cases hone : ch = 0x31#8
    · rw [if_pos hone] at hcheck ⊢
      exact .give (hch.goOn hcheck)
    · rw [if_neg hone] at hcheck ⊢
      by_cases hzero : ch = 0x30#8
      · rw [if_pos hzero] at hcheck ⊢
        exact .give (hch.goOn hcheck)
      · rw [if_neg hzero] at hcheck ⊢
        exact .fail (hch.raise hcheck)
  · rw [if_neg hn]
    have hpad : packStep (s.setMem m) (.read c j acc) = .internal (s.setMem m) (packNext c j acc) := if_neg hn
    rw [packNext_eq] at hpad
    exact .give (h.goOn hpad)

/-- The block steps of one chunk: its eight pixels and the write of its byte. -/
theorem pack_chunk_follows (hc : c < ceil8 s.l2.toNat) (h : Reaches packStep s .entry m (packAtChunk s c)) :
    (pseudoPackChunk s c).Meets m (fun _ m' => Reaches packStep s .entry m' (packAtChunk s (c + 1)))
      (ReachesRaise packStep s .entry) := by
  rw [packAtChunk, if_pos hc] at h
  refine .andThen (.loop (P := fun j acc m' => Reaches packStep s .entry m' (packAtPixel c j acc)) ?pixel h)
    fun acc m' hacc => hacc.store rfl
  case pixel =>
    intro j acc m' _ hj hpixel
    rw [packAtPixel, if_pos (by omega)] at hpixel
    exact pack_pixel_follows hpixel

end

/-- PACK answers the outcome of its pseudocode. -/
theorem exec_pack_eq (s : State) (hs : s.Fresh) : exec .pack s = .next (conclude s (pseudoPack s)) := by
  refine exec_eq_conclude hs ?_
  have hstart : Reaches packStep s .entry s.mem .entry := .refl
  by_cases hn : s.l2.toNat = 0
  · rw [pseudoPack_of_zero hn]
    exact .fail (hstart.raise (if_pos hn))
  · rw [pseudoPack_of_ne_zero hn]
    have hentry : Reaches packStep s .entry s.mem (packAtChunk s 0) := by
      rw [packAtChunk, if_pos (ceil8_pos hn)]
      exact hstart.goOn (if_neg hn)
    refine .andThen (.loop (P := fun c _ m => Reaches packStep s .entry m (packAtChunk s c))
      (fun c _ m _ hc => pack_chunk_follows (by omega)) hentry) fun _ m hdone => .give ⟨.done, ?_, rfl⟩
    rwa [packAtChunk, if_neg (by omega)] at hdone

end Sys2Proof.Machine
end

section
/-!
SUPPORT. What PACK's pseudocode leaves in memory, whether it completes or an error ends it (spec/41_packer.md R121 to R124),
as long as it overwrites no pixel that it has still to read.
-/

namespace Sys2Proof.Machine

/-! ### The pixels of the source and the bytes of the destination -/

/-- Pixel `i` of the source, with the pad bits 0 (R122). -/
def State.inkAt (s : State) (i : Nat) : Bool :=
  decide (i < s.l2.toNat) && decide (Memory.get s.mem (s.l0.toNat + i) = 0x31#8)

/-- Pixel `i` lies in memory and is '0' or '1'. -/
def State.GoodPixel (s : State) (i : Nat) : Prop :=
  s.l0.toNat + i < s.config.memBytes ∧
    (Memory.get s.mem (s.l0.toNat + i) = 0x31#8 ∨ Memory.get s.mem (s.l0.toNat + i) = 0x30#8)

/-- The pixels of the photo before pixel `k` are good. -/
def State.GoodPixels (s : State) (k : Nat) : Prop := ∀ i < k, i < s.l2.toNat → s.GoodPixel i

/-- No output byte lies on a pixel that PACK reads after writing it. -/
def State.SourceKept (s : State) : Prop :=
  ∀ i < s.l2.toNat, s.GoodPixels i → ∀ c < i / 8, s.l0.toNat + i ≠ s.l1.toNat + c

/-- `m` is the memory of `s` after the first `c` output bytes of PACK. -/
structure PackedTo (s : State) (c : Nat) (m : Memory) : Prop where
  memWf : Memory.wf m
  pixels : s.GoodPixels (8 * c)
  inMemory : ∀ d < c, s.l1.toNat + d < s.config.memBytes
  bits : ∀ d < c, ∀ j < 8, (Memory.get m (s.l1.toNat + d)).getLsbD (7 - j) = s.inkAt (8 * d + j)
  frame : ∀ a, (∀ d < c, a ≠ s.l1.toNat + d) → Memory.get m a = Memory.get s.mem a

/-- PACK after the first `c` output bytes and the first `j` pixels of chunk `c`, which are in `acc`. -/
structure PackedPixels (s : State) (c j : Nat) (acc : Byte) (m : Memory) : Prop where
  packed : PackedTo s c m
  pixels : s.GoodPixels (8 * c + j)
  bits : ∀ k < 8, acc.getLsbD (7 - k) = (decide (k < j) && s.inkAt (8 * c + k))

/-- The errors that end PACK of some pixels, each with the memory it leaves (R121, R124). -/
inductive PackStops (s : State) : Err → Memory → Prop where
  /-- Pixel `i` lies outside memory. -/
  | readFault {i : Nat} {m : Memory} (hi : i < s.l2.toNat) (hgood : s.GoodPixels i) (hm : PackedTo s (i / 8) m)
      (ha : s.config.memBytes ≤ s.l0.toNat + i) : PackStops s .accessFault m
  /-- Pixel `i` is neither '0' nor '1'. -/
  | badPixel {i : Nat} {m : Memory} (hi : i < s.l2.toNat) (hgood : s.GoodPixels i) (hm : PackedTo s (i / 8) m)
      (hone : Memory.get s.mem (s.l0.toNat + i) ≠ 0x31#8) (hzero : Memory.get s.mem (s.l0.toNat + i) ≠ 0x30#8) :
      PackStops s .unknownCharacter m
  /-- Output byte `c` lies outside memory. -/
  | writeFault {c : Nat} {m : Memory} (hc : c < ceil8 s.l2.toNat) (hgood : s.GoodPixels (8 * c + 8))
      (hm : PackedTo s c m) (ha : s.config.memBytes ≤ s.l1.toNat + c) : PackStops s .accessFault m

/-! ### One pixel, one chunk, the whole command -/

/-- Or-ing in pixel `j` changes bit `7 - j` alone (R120). -/
theorem getLsbD_orPixel (acc : Byte) {j k : Nat} (b : Bool) (hj : j < 8) (hk : k < 8) :
    (orPixel acc j b).getLsbD (7 - k) = (acc.getLsbD (7 - k) || (decide (k = j) && b)) := by
  have hbit : 7 - k < 8 := by omega
  rw [orPixel, BitVec.getLsbD_or, BitVec.getLsbD_shiftLeft, BitVec.getLsbD_setWidth, BitVec.getLsbD_ofBool]
  obtain hlt | rfl | hgt := Nat.lt_trichotomy k j
  · have hshift : 7 - k - (7 - j) ≠ 0 := by omega
    simp [hlt.ne, hshift]
  · simp [hbit]
  · have hshift : 7 - k < 7 - j := by omega
    simp [hgt.ne', hshift]

theorem orPixel_false (acc : Byte) (j : Nat) : orPixel acc j false = acc := by
  simp [orPixel]

section
variable {s : State} {m : Memory} {c j : Nat} {acc : Byte}

theorem State.GoodPixels.succ {k : Nat} (h : s.GoodPixels k) (hk : k < s.l2.toNat → s.GoodPixel k) :
    s.GoodPixels (k + 1) := by
  intro i hi hn
  obtain hlt | rfl := Nat.lt_succ_iff_lt_or_eq.mp hi
  · exact h i hlt hn
  · exact hk hn

theorem PackedTo.start (hwf : Memory.wf s.mem) : PackedTo s 0 s.mem :=
  ⟨hwf, nofun, nofun, nofun, fun _ _ => rfl⟩

theorem PackedPixels.start (h : PackedTo s c m) : PackedPixels s c 0 0#8 m :=
  ⟨h, h.pixels, fun k _ => by simp⟩

/-- The chunk's pixel is still the source's when PACK reads it. -/
theorem PackedPixels.get_pixel (hs : s.SourceKept) (h : PackedPixels s c j acc m) (hn : 8 * c + j < s.l2.toNat) :
    Memory.get m (s.l0.toNat + (8 * c + j)) = Memory.get s.mem (s.l0.toNat + (8 * c + j)) :=
  h.packed.frame _ fun d hd => hs _ hn h.pixels d (by omega)

/-- A good pixel, or a pad bit, goes into the accumulator. -/
theorem PackedPixels.pixelAdded (h : PackedPixels s c j acc m) (hj : j < 8)
    (hgood : 8 * c + j < s.l2.toNat → s.GoodPixel (8 * c + j)) :
    PackedPixels s c (j + 1) (orPixel acc j (s.inkAt (8 * c + j))) m := by
  refine ⟨h.packed, h.pixels.succ hgood, fun k hk => ?_⟩
  rw [getLsbD_orPixel acc _ hj hk, h.bits k hk]
  obtain hlt | rfl | hgt := Nat.lt_trichotomy k j
  · simp [hlt, hlt.ne, Nat.lt_succ_of_lt hlt]
  · simp
  · simp [hgt.ne', Nat.not_lt.mpr hgt.le, Nat.not_lt.mpr (Nat.succ_le_of_lt hgt)]

theorem PackedPixels.blackAdded (h : PackedPixels s c j acc m) (hj : j < 8) (hn : 8 * c + j < s.l2.toNat)
    (ha : s.l0.toNat + (8 * c + j) < s.config.memBytes)
    (hone : Memory.get s.mem (s.l0.toNat + (8 * c + j)) = 0x31#8) :
    PackedPixels s c (j + 1) (acc ||| (1#8 <<< (7 - j))) m := by
  have hink : s.inkAt (8 * c + j) = true := by simp [State.inkAt, hn, hone]
  have hnext := h.pixelAdded hj fun _ => ⟨ha, .inl hone⟩
  rwa [hink] at hnext

theorem PackedPixels.blankAdded (h : PackedPixels s c j acc m) (hj : j < 8)
    (hgood : 8 * c + j < s.l2.toNat → s.GoodPixel (8 * c + j)) (hink : s.inkAt (8 * c + j) = false) :
    PackedPixels s c (j + 1) acc m := by
  have hnext := h.pixelAdded hj hgood
  rwa [hink, orPixel_false] at hnext

/-- The accumulator of a whole chunk goes into its output byte. -/
theorem PackedPixels.write (h : PackedPixels s c 8 acc m) (ha : s.l1.toNat + c < s.config.memBytes) :
    PackedTo s (c + 1) (Memory.set m (s.l1.toNat + c) acc) where
  memWf := Memory.wf_set _ _ _ h.packed.memWf
  pixels := h.pixels
  inMemory d hd := by
    obtain hlt | rfl := Nat.lt_succ_iff_lt_or_eq.mp hd
    · exact h.packed.inMemory d hlt
    · exact ha
  bits d hd k hk := by
    obtain hlt | rfl := Nat.lt_succ_iff_lt_or_eq.mp hd
    · rw [Memory.get_set_ne _ _ _ _ (by omega)]
      exact h.packed.bits d hlt k hk
    · rw [Memory.get_set_self _ _ _ h.packed.memWf, h.bits k hk, decide_eq_true hk, Bool.true_and]
  frame a hne := by
    rw [Memory.get_set_ne _ _ _ _ (hne c (Nat.lt_succ_self c))]
    exact h.packed.frame a fun d hd => hne d (Nat.lt_succ_of_lt hd)

/-- One pixel leaves memory alone and goes into the accumulator, or ends the command (R121, R122). -/
theorem pack_pixel_meets (hs : s.SourceKept) (hj : j < 8) (h : PackedPixels s c j acc m) :
    (pseudoPackPixel s c j acc).Meets m (PackedPixels s c (j + 1)) (PackStops s) := by
  have hchunk : (8 * c + j) / 8 = c := by omega
  have hpacked : PackedTo s ((8 * c + j) / 8) m := by rw [hchunk]; exact h.packed
  unfold pseudoPackPixel
  by_cases hn : 8 * c + j < s.l2.toNat
  · rw [if_pos hn]
    refine .andThen (Q := fun ch m' => m' = m ∧ ch = Memory.get s.mem (s.l0.toNat + (8 * c + j)) ∧
      s.l0.toNat + (8 * c + j) < s.config.memBytes)
      (.load (fun ha => ⟨rfl, h.get_pixel hs hn, ha⟩) (.readFault hn h.pixels hpacked)) ?_
    rintro ch m' ⟨rfl, rfl, ha⟩
    by_cases hone : Memory.get s.mem (s.l0.toNat + (8 * c + j)) = 0x31#8
    · rw [if_pos hone]
      exact .give (h.blackAdded hj hn ha hone)
    · rw [if_neg hone]
      by_cases hzero : Memory.get s.mem (s.l0.toNat + (8 * c + j)) = 0x30#8
      · rw [if_pos hzero]
        exact .give (h.blankAdded hj (fun _ => ⟨ha, .inr hzero⟩) (by simp [State.inkAt, hone]))
      · rw [if_neg hzero]
        exact .fail (.badPixel hn h.pixels hpacked hone hzero)
  · rw [if_neg hn]
    exact .give (h.blankAdded hj (fun hlt => absurd hlt hn) (by simp [State.inkAt, hn]))

theorem pack_chunk_meets (hs : s.SourceKept) (hc : c < ceil8 s.l2.toNat) (h : PackedTo s c m) :
    (pseudoPackChunk s c).Meets m (fun _ => PackedTo s (c + 1)) (PackStops s) :=
  .andThen (.loop (P := PackedPixels s c) (fun j _ _ _ hj => pack_pixel_meets hs (by omega)) (.start h))
    fun _ m' hacc => .store hacc.write (.writeFault hc hacc.pixels hacc.packed)

theorem pseudoPack_meets (hs : s.SourceKept) (hwf : Memory.wf s.mem) (hn : s.l2.toNat ≠ 0) :
    (pseudoPack s).Meets s.mem (fun n m => n = ceil8 s.l2.toNat ∧ PackedTo s (ceil8 s.l2.toNat) m) (PackStops s) := by
  rw [pseudoPack_of_ne_zero hn]
  refine .andThen (.loop (P := fun c _ => PackedTo s c) (fun c _ _ _ hc => pack_chunk_meets hs (by omega)) (.start hwf))
    fun _ m hm => .give ⟨rfl, ?_⟩
  rwa [Nat.zero_add] at hm

/-- PACK of some pixels completes with all its output bytes written, or stops with some of them (R121 to R124). -/
theorem exec_pack_cases (hfresh : s.Fresh) (hs : s.SourceKept) (hwf : Memory.wf s.mem) (hn : s.l2.toNat ≠ 0) :
    (∃ m, exec .pack s = .next ((s.setMem m).complete (BitVec.ofNat 32 (ceil8 s.l2.toNat))) ∧
        PackedTo s (ceil8 s.l2.toNat) m) ∨
      ∃ e m, exec .pack s = .next ((s.setMem m).raise e) ∧ PackStops s e m := by
  rw [exec_pack_eq s hfresh]
  obtain ⟨n, m, h, rfl, hm⟩ | ⟨e, m, h, he⟩ := (pseudoPack_meets hs hwf hn).cases
  · exact .inl ⟨m, congrArg _ (conclude_ok h), hm⟩
  · exact .inr ⟨e, m, congrArg _ (conclude_error h), he⟩

/-- Buffers that do not overlap keep the source. -/
theorem State.sourceKept_of_apart (h : Apart s.l0.toNat s.l2.toNat s.l1.toNat (ceil8 s.l2.toNat)) : s.SourceKept := by
  intro i hi _ c hc
  unfold ceil8 at h
  omega

/-- All output bytes are written only after all pixels. -/
theorem PackedTo.goodPixel (h : PackedTo s (ceil8 s.l2.toNat) m) {i : Nat} (hi : i < s.l2.toNat) : s.GoodPixel i :=
  h.pixels i (by unfold ceil8; omega) hi

end

end Sys2Proof.Machine
end

section
/-!
The obligations on PACK (spec/41_packer.md).
-/

namespace Sys2Proof.Machine

/-- Settles O41: the block steps go through the pseudocode access by access (`exec_pack_eq`). -/
theorem packFollowsPseudocode : Obligations.PackFollowsPseudocode := by
  unfold Obligations.PackFollowsPseudocode
  exact exec_pack_eq

/-- Settles O28: with valid pixels and both ranges in memory none of the errors of `PackStops` is left. -/
theorem packWritesPackedBytes : Obligations.PackWritesPackedBytes := by
  unfold Obligations.PackWritesPackedBytes
  intro s ⟨hfresh, hwf, hn, hpixels, hsrc, hdst, hapart⟩
  obtain ⟨m, hexec, hm⟩ | ⟨e, m, -, hstop⟩ := exec_pack_cases hfresh (State.sourceKept_of_apart hapart) hwf hn
  · exact ⟨m, hexec, hm.bits, hm.frame⟩
  · exfalso
    cases hstop with
    | @readFault i _ hi hgood hm ha => omega
    | @badPixel i _ hi hgood hm hone hzero => exact (hpixels i hi).elim hone hzero
    | @writeFault c _ hc hgood hm ha => omega

/-- Settles O29: the pixels before pixel `i` are good and pixel `i` is not, so that PACK stops there and nowhere else. -/
theorem packStopsAtFirstBadPixel : Obligations.PackStopsAtFirstBadPixel := by
  unfold Obligations.PackStopsAtFirstBadPixel
  intro s i hfresh hwf hi hpixels hone hzero hsrc hdst hapart
  have hbad : ∀ k, s.GoodPixels k → k ≤ i := fun k hk =>
    Nat.le_of_not_lt fun hlt => (hk i hlt hi).2.elim hone hzero
  have hkept : s.SourceKept := fun k _ hgood c hc => by
    have hle := hbad k hgood
    omega
  obtain ⟨m, -, hm⟩ | ⟨e, m, hexec, hstop⟩ := exec_pack_cases hfresh hkept hwf (by omega)
  · exact absurd (hm.goodPixel hi).2 (not_or.mpr ⟨hone, hzero⟩)
  · cases hstop with
    | @readFault k _ hk hgood hm ha =>
      have hle := hbad k hgood
      omega
    | @writeFault c _ hc hgood hm ha =>
      have hle := hbad _ hgood
      omega
    | @badPixel k _ hk hgood hm hone' hzero' =>
      obtain rfl : k = i := by
        refine Nat.le_antisymm (hbad k hgood) (Nat.le_of_not_lt fun hlt => ?_)
        exact (hpixels k hlt).elim hone' hzero'
      refine ⟨m, hexec, fun c hc j hj => ?_, hm.frame⟩
      have hn : 8 * c + j < s.l2.toNat := by omega
      rw [hm.bits c hc j hj, State.inkAt, decide_eq_true hn, Bool.true_and]

/-- Settles O30: a PACK that ends with no error has written all its output bytes, and pixel `i` of them is bit `i % 8` of
byte `i / 8`. -/
theorem packRoundTrip : Obligations.PackRoundTrip := by
  unfold Obligations.PackRoundTrip
  intro s t hfresh hwf hexec herr hapart i hi
  obtain ⟨m, hdone, hm⟩ | ⟨e, m, hstop, -⟩ := exec_pack_cases hfresh (State.sourceKept_of_apart hapart) hwf (by omega)
  · rw [hdone] at hexec
    cases hexec
    have hbyte : i / 8 < ceil8 s.l2.toNat := by
      unfold ceil8
      omega
    have hpixel : pixelAt m s.l1.toNat i = s.inkAt i := by
      rw [pixelAt, hm.bits _ hbyte _ (Nat.mod_lt i (by decide)), Nat.div_add_mod]
    have hin : bitAddr s.l1.toNat i < s.config.memBytes := hm.inMemory _ hbyte
    rw [getBit_eq, State.complete_config, State.setMem_config, if_pos hin, State.complete_mem, State.setMem_mem, hpixel,
      State.inkAt, decide_eq_true hi, Bool.true_and]
  · rw [hstop] at hexec
    cases hexec
    exact absurd ((State.raise_err _ e).symm.trans herr) e.code_ne_zero

/-- Settles O27: the first check of the pseudocode. -/
theorem packRejectsNoPixels : Obligations.PackRejectsNoPixels := by
  unfold Obligations.PackRejectsNoPixels
  intro s hs hn
  have hfail : pseudoPack s s.mem = (s.mem, .error .invalidPhotoSize) := by
    rw [pseudoPack_of_zero (by rw [hn]; rfl), Body.fail]
  rw [exec_pack_eq s hs, conclude_error hfail]
  rfl

end Sys2Proof.Machine
end

section
/-!
SUPPORT. RLEENC goes through its pseudocode block step by block step, overlapping ranges and errors included
(spec/42_rle_encoder.md R140), and what may end it with an error (R141).
-/

namespace Sys2Proof.Machine

/-- A body that meets `Q` meets what follows from `Q`. -/
theorem Body.Meets.imp {α : Type} {b : Body α} {m : Memory} {Q R : α → Memory → Prop} {E : Err → Memory → Prop}
    (h : b.Meets m Q E) (hQR : ∀ x m', Q x m' → R x m') : b.Meets m R E := by
  obtain ⟨x, m', hb, hx⟩ | ⟨e, m', hb, he⟩ := h.cases
  · exact .of_ok hb (hQR x m' hx)
  · exact .of_error hb he

/-- RLEENC's variables for the pseudocode's before pixel `i`. -/
def encVarsAt (i : Nat) (r : PseudoRun) : EncVars :=
  { i := i, o := r.o, black := r.color, count := r.count, b := r.b }

/-- Where RLEENC goes on when Emit leaves the variables `v`: at its completion, or at the next pixel. -/
def encAfterEmit (v : EncVars) (last : Bool) : EncWork := if last then .done v else .pixel v.flipped.counted

/-- What RLEENC's pseudocode does once its checks have passed (R140). -/
def pseudoEncode (s : State) : Body Nat :=
  (Body.store s (s.l1.toNat + 0) (BitVec.ofNat 8 s.l2.toNat)).andThen (fun _ =>
    (Body.store s (s.l1.toNat + 1) (BitVec.ofNat 8 s.l3.toNat)).andThen (fun _ =>
      (Body.loop s.encPixels 0 { o := 2, color := true, count := 0, b := 0#8 } (pseudoEncodePixel s)).andThen (fun r =>
        pseudoEmit s r.o r.count)))

section
variable {s : State} {m : Memory}

theorem pseudoRleenc_of_zero (h : s.l2.toNat = 0 ∨ s.l3.toNat = 0) : pseudoRleenc s = Body.fail .invalidPhotoSize :=
  if_pos h

theorem pseudoRleenc_of_limit (h0 : ¬(s.l2.toNat = 0 ∨ s.l3.toNat = 0)) (h : 255 < s.l2.toNat ∨ 255 < s.l3.toNat) :
    pseudoRleenc s = Body.fail .rleLimitExceeded :=
  (if_neg h0).trans (if_pos h)

theorem pseudoRleenc_of_checks (h0 : ¬(s.l2.toNat = 0 ∨ s.l3.toNat = 0)) (h : ¬(255 < s.l2.toNat ∨ 255 < s.l3.toNat)) :
    pseudoRleenc s = pseudoEncode s :=
  (if_neg h0).trans (if_neg h)

/-- Emit(k) makes one pass of its loop for each 255 that the split leaves behind, and then writes the rest (R144). -/
theorem rleenc_emit_follows {v : EncVars} {k : Nat} {last : Bool}
    (h : Reaches rleencStep s .entry m (.emit v k last)) :
    (pseudoEmit s v.o k).Meets m
      (fun o m' => Reaches rleencStep s .entry m' (encAfterEmit { v with o := o } last))
      (ReachesRaise rleencStep s .entry) := by
  refine .andThen (.loop (P := fun j o m' => Reaches rleencStep s .entry m' (.emit { v with o := o } (k - 255 * j) last))
    ?pair h) fun o m' hrest => ?rest
  case pair =>
    intro j o m' _ hj hreach
    have hlong : k - 255 * j > 255 := by omega
    have hnext : k - 255 * j - 255 = k - 255 * (j + 1) := by omega
    refine .andThen (hreach.store (if_pos hlong)) fun _ m₁ h₁ => .andThen (h₁.store rfl) fun _ m₂ h₂ => .give ?_
    rw [← hnext]
    exact h₂
  case rest =>
    have hshort : ¬k - 255 * (0 + (k - 1) / 255) > 255 := by omega
    have hlast := hrest.store (if_neg hshort)
    rw [Nat.zero_add] at hlast
    exact .andThen hlast fun _ m₁ h₁ => .give h₁

/-- The block steps of one pixel: its byte, when it is the first pixel of it, the comparison, and Emit when a run ends. -/
theorem rleenc_pixel_follows {i : Nat} {r : PseudoRun} (hi : i < s.encPixels)
    (h : Reaches rleencStep s .entry m (.pixel (encVarsAt i r))) :
    (pseudoEncodePixel s i r).Meets m (fun r' m' => Reaches rleencStep s .entry m' (.pixel (encVarsAt (i + 1) r')))
      (ReachesRaise rleencStep s .entry) := by
  have hpixel : ∀ m', rleencStep (s.setMem m') (.pixel (encVarsAt i r)) =
      if i % 8 = 0 then .reading (s.setMem m') (s.l0.toNat + i / 8) (fun b => .bit (encVarsAt i { r with b := b }))
      else .internal (s.setMem m') (.bit (encVarsAt i r)) := fun m' => if_pos hi
  refine .andThen (Q := fun b m' => Reaches rleencStep s .entry m' (.bit (encVarsAt i { r with b := b }))) ?byte
    fun b m' hbit => ?compare
  case byte =>
    by_cases hfirst : i % 8 = 0
    · rw [if_pos hfirst]
      exact h.load ((hpixel m).trans (if_pos hfirst))
    · rw [if_neg hfirst]
      exact .give (h.goOn ((hpixel m).trans (if_neg hfirst)))
  case compare =>
    by_cases hsame : b.getLsbD (7 - i % 8) = r.color
    · rw [if_pos hsame]
      exact .give (hbit.goOn (if_pos hsame))
    · rw [if_neg hsame]
      exact .andThen (rleenc_emit_follows (hbit.goOn (if_neg hsame))) fun o m'' hnext => .give hnext

/-- The two header bytes, the pixels, the last run and the completion (R142, R145). -/
theorem rleenc_encode_follows (h : Reaches rleencStep s .entry m .header0) :
    (pseudoEncode s).Meets m (fun n => ReachesEnd rleencStep s .entry (.complete (BitVec.ofNat 32 n)))
      (ReachesRaise rleencStep s .entry) := by
  refine .andThen (h.store rfl) fun _ m₁ h₁ => .andThen (h₁.store rfl) fun _ m₂ h₂ =>
    .andThen (.loop (P := fun i r m' => Reaches rleencStep s .entry m' (.pixel (encVarsAt i r)))
      (fun i r m' _ hi => rleenc_pixel_follows (by omega)) h₂) fun r m₃ h₃ => ?_
  have hend : rleencStep (s.setMem m₃) (.pixel (encVarsAt (0 + s.encPixels) r)) =
      .internal (s.setMem m₃) (.emit (encVarsAt (0 + s.encPixels) r) r.count true) := by
    rw [Nat.zero_add]
    exact if_neg (Nat.lt_irrefl s.encPixels)
  exact (rleenc_emit_follows (h₃.goOn hend)).imp fun o m' hdone => ⟨_, hdone, rfl⟩

end

theorem pseudoRleenc_follows (s : State) :
    (pseudoRleenc s).Meets s.mem (fun n => ReachesEnd rleencStep s .entry (.complete (BitVec.ofNat 32 n)))
      (ReachesRaise rleencStep s .entry) := by
  have hstart : Reaches rleencStep s .entry s.mem .entry := .refl
  by_cases hzero : s.l2.toNat = 0 ∨ s.l3.toNat = 0
  · rw [pseudoRleenc_of_zero hzero]
    exact .fail (hstart.raise (if_pos hzero))
  · by_cases hlimit : 255 < s.l2.toNat ∨ 255 < s.l3.toNat
    · rw [pseudoRleenc_of_limit hzero hlimit]
      exact .fail (hstart.raise ((if_neg hzero).trans (if_pos hlimit)))
    · rw [pseudoRleenc_of_checks hzero hlimit]
      exact rleenc_encode_follows (hstart.goOn ((if_neg hzero).trans (if_neg hlimit)))

/-- RLEENC answers the outcome of its pseudocode. -/
theorem exec_rleenc_eq (s : State) (hs : s.Fresh) : exec .rleenc s = .next (conclude s (pseudoRleenc s)) :=
  exec_eq_conclude (i := .rleenc) hs (pseudoRleenc_follows s)

end Sys2Proof.Machine
end

section
/-!
SUPPORT. The EncodedBuffer on lists (spec/42_rle_encoder.md R143, R144): its run bytes sum to the number of pixels and replay
to the pixels (R147), and they are at most one more than the pixels (R148).
-/

namespace Sys2Proof.Machine

/-! ### The bytes of one run (R144) -/

/-- A property of runs holds of every length, when it holds up to 255 and a longer run has it from the run without its first
255 pixels. -/
theorem run_induction {P : Nat → Prop} (short : ∀ len, len ≤ 255 → P len)
    (long : ∀ len, 255 < len → P (len - 255) → P len) (len : Nat) : P len := by
  induction len using Nat.strongRecOn with
  | ind len ih =>
    obtain h | h := Nat.lt_or_ge 255 len
    · exact long len h (ih (len - 255) (by omega))
    · exact short len h

theorem runBytes_of_le {len : Nat} (h : len ≤ 255) : runBytes len = [BitVec.ofNat 8 len] := by
  have hpairs : (len - 1) / 255 = 0 := by omega
  rw [runBytes, hpairs]
  rfl

theorem runBytes_of_gt {len : Nat} (h : 255 < len) : runBytes len = 255#8 :: 0#8 :: runBytes (len - 255) := by
  have hpairs : (len - 1) / 255 = (len - 255 - 1) / 255 + 1 := by omega
  have hrest : len - 255 * ((len - 255 - 1) / 255 + 1) = len - 255 - 255 * ((len - 255 - 1) / 255) := by omega
  rw [runBytes, runBytes, hpairs, hrest, List.replicate_succ, List.flatten_cons]
  rfl

theorem toNat_ofNat_run {len : Nat} (h : len ≤ 255) : (BitVec.ofNat 8 len).toNat = len :=
  Nat.mod_eq_of_lt (Nat.lt_succ_of_le h)

theorem runBytes_sum (len : Nat) : ((runBytes len).map BitVec.toNat).sum = len := by
  induction len using run_induction with
  | short len h => rw [runBytes_of_le h, List.map_singleton, List.sum_singleton, toNat_ofNat_run h]
  | long len h ih =>
    rw [runBytes_of_gt h, List.map_cons, List.map_cons, List.sum_cons, List.sum_cons, ih]
    show 255 + (0 + (len - 255)) = len
    omega

theorem runBytes_length_le (len : Nat) : (runBytes len).length ≤ max len 1 := by
  induction len using run_induction with
  | short len h =>
    rw [runBytes_of_le h]
    exact Nat.le_max_right len 1
  | long len h ih =>
    rw [runBytes_of_gt h, List.length_cons, List.length_cons]
    omega

section
variable {n : Nat} {color : Bool} {done px : List Bool} {runs : List Byte}

/-- A run byte that fits is replayed, and the colour after it is the other one (spec/43_rle_decoder.md R163). -/
theorem replayRuns_cons {r : Byte} (hopen : done.length < n) (hfits : done.length + r.toNat ≤ n) :
    replayRuns n color done (r :: runs) = replayRuns n (!color) (done ++ List.replicate r.toNat color) runs := by
  rw [replayRuns, if_pos hopen, if_neg (Nat.not_lt.mpr hfits)]

/-- The bytes of a run replay to its pixels, and the colour after them is the other one (R144). -/
theorem replayRuns_runBytes {len : Nat} (hopen : done.length < n) (hfits : done.length + len ≤ n) :
    replayRuns n color done (runBytes len ++ runs) = replayRuns n (!color) (done ++ List.replicate len color) runs := by
  induction len using run_induction generalizing done with
  | short len h =>
    have hbyte := toNat_ofNat_run h
    rw [runBytes_of_le h, List.singleton_append, replayRuns_cons hopen (by rwa [hbyte]), hbyte]
  | long len h ih =>
    have hlen : (done ++ List.replicate 255 color).length = done.length + 255 := by
      rw [List.length_append, List.length_replicate]
    have hsplit : List.replicate len color = List.replicate 255 color ++ List.replicate (len - 255) color := by
      rw [List.replicate_append_replicate, Nat.add_sub_cancel' h.le]
    calc replayRuns n color done (runBytes len ++ runs)
        = replayRuns n color done (255#8 :: 0#8 :: (runBytes (len - 255) ++ runs)) := by rw [runBytes_of_gt h]; rfl
      _ = replayRuns n (!color) (done ++ List.replicate 255 color) (0#8 :: (runBytes (len - 255) ++ runs)) :=
        replayRuns_cons hopen (show done.length + 255 ≤ n by omega)
      _ = replayRuns n (!!color) ((done ++ List.replicate 255 color) ++ []) (runBytes (len - 255) ++ runs) :=
        replayRuns_cons (by omega) (show _ + 0 ≤ n by omega)
      _ = replayRuns n (!color) ((done ++ List.replicate 255 color) ++ List.replicate (len - 255) color) runs := by
        rw [Bool.not_not, List.append_nil, ih (by omega) (by omega)]
      _ = replayRuns n (!color) (done ++ List.replicate len color) runs := by rw [hsplit, List.append_assoc]

/-! ### The runs of a picture (R143) -/

/-- The run bytes of the pixels `px` that come after `count` pixels of `color`. -/
def runBytesFrom (color : Bool) (count : Nat) (px : List Bool) : List Byte :=
  (runLengths color count px).flatMap runBytes

theorem encodedBuffer_eq (rows cols : Nat) (px : List Bool) :
    encodedBuffer rows cols px = [BitVec.ofNat 8 rows, BitVec.ofNat 8 cols] ++ runBytesFrom true 0 px := rfl

theorem runBytesFrom_nil (color : Bool) (count : Nat) : runBytesFrom color count [] = runBytes count :=
  List.append_nil _

variable {b : Bool} {count : Nat}

theorem runBytesFrom_same (h : b = color) : runBytesFrom color count (b :: px) = runBytesFrom color (count + 1) px := by
  rw [runBytesFrom, runLengths, if_pos h]
  rfl

theorem runBytesFrom_other (h : b ≠ color) :
    runBytesFrom color count (b :: px) = runBytes count ++ runBytesFrom (!color) 1 px := by
  rw [runBytesFrom, runLengths, if_neg h]
  rfl

theorem runBytesFrom_sum : ((runBytesFrom color count px).map BitVec.toNat).sum = count + px.length := by
  induction px generalizing color count with
  | nil => rw [runBytesFrom_nil, runBytes_sum]; rfl
  | cons b px ih =>
    rw [List.length_cons]
    by_cases h : b = color
    · rw [runBytesFrom_same h, ih]
      omega
    · rw [runBytesFrom_other h, List.map_append, List.sum_append, runBytes_sum, ih]
      omega

/-- Each run takes at most as many bytes as it has pixels, and an empty one takes one (R148). -/
theorem runBytesFrom_length_le : (runBytesFrom color count px).length ≤ max count 1 + px.length := by
  induction px generalizing color count with
  | nil => rw [runBytesFrom_nil]; exact runBytes_length_le count
  | cons b px ih =>
    rw [List.length_cons]
    by_cases h : b = color
    · rw [runBytesFrom_same h]
      have hrest := ih (color := color) (count := count + 1)
      omega
    · rw [runBytesFrom_other h, List.length_append]
      have hrun := runBytes_length_le count
      have hrest := ih (color := !color) (count := 1)
      omega

theorem encodedBuffer_length_le (rows cols : Nat) (px : List Bool) :
    (encodedBuffer rows cols px).length ≤ px.length + 3 := by
  have hruns := runBytesFrom_length_le (color := true) (count := 0) (px := px)
  rw [encodedBuffer_eq, List.length_append]
  show 2 + (runBytesFrom true 0 px).length ≤ px.length + 3
  omega

/-- Pixels that change colour at every step make runs of one pixel, behind the run that ends before them. -/
theorem runBytesFrom_length_of_isChain (h : (color :: px).IsChain (· ≠ ·)) (hcount : count ≤ 255) :
    (runBytesFrom color count px).length = px.length + 1 := by
  induction px generalizing color count with
  | nil => rw [runBytesFrom_nil, runBytes_of_le hcount]; rfl
  | cons b px ih =>
    obtain ⟨hne, htail⟩ := List.isChain_cons_cons.mp h
    obtain rfl : b = !color := Bool.eq_not.mpr hne.symm
    rw [runBytesFrom_other hne.symm, List.length_append, runBytes_of_le hcount, ih htail (by decide)]
    exact Nat.add_comm 1 _

/-- The run bytes replay to the pixels, unless there is none (R147). -/
theorem replayRuns_runBytesFrom (hn : done.length + count + px.length = n) (hopen : done.length < n) :
    replayRuns n color done (runBytesFrom color count px) = .ok (done ++ List.replicate count color ++ px) := by
  induction px generalizing color count done with
  | nil =>
    rw [List.length_nil, Nat.add_zero] at hn
    have hlen : ¬(done ++ List.replicate count color).length < n := by simp [hn]
    rw [runBytesFrom_nil, ← List.append_nil (runBytes count), replayRuns_runBytes hopen hn.le, replayRuns,
      if_neg hlen, List.append_nil]
  | cons b px ih =>
    rw [List.length_cons] at hn
    by_cases h : b = color
    · rw [runBytesFrom_same h, ih (by omega) hopen, h, List.replicate_succ', List.append_assoc, List.append_assoc,
        List.append_assoc]
      rfl
    · have hlen : (done ++ List.replicate count color).length = done.length + count := by simp
      rw [runBytesFrom_other h, replayRuns_runBytes hopen (by omega), ih (by omega) (by omega), Bool.eq_not.mpr h,
        List.append_assoc _ _ px]
      rfl

end

end Sys2Proof.Machine
end

section
/-!
SUPPORT. What RLEENC's pseudocode leaves in memory when it completes (spec/42_rle_encoder.md R142 to R147): the EncodedBuffer
of the pixels it has read, which are those of the source as long as no byte written lies on the source.
-/

namespace Sys2Proof.Machine

/-! ### Bytes and pixels of a buffer -/

theorem bytesAt_length (m : Memory) (base n : Nat) : (bytesAt m base n).length = n := by
  simp [bytesAt]

theorem bytesAt_succ_last (m : Memory) (base n : Nat) :
    bytesAt m base (n + 1) = bytesAt m base n ++ [Memory.get m (base + n)] := by
  simp [bytesAt, List.range_succ]

theorem pixelsAt_length (m : Memory) (base n : Nat) : (pixelsAt m base n).length = n := by
  simp [pixelsAt]

theorem pixelsAt_succ (m : Memory) (base n : Nat) :
    pixelsAt m base (n + 1) = pixelsAt m base n ++ [pixelAt m base n] := by
  simp [pixelsAt, List.range_succ]

/-- Pixels that alternate from white on change colour at every step, and the first one is not black. -/
theorem isChain_pixelsAt_of_alternating {m : Memory} {base n : Nat}
    (h : ∀ i < n, pixelAt m base i = decide (i % 2 = 1)) : (true :: pixelsAt m base n).IsChain (· ≠ ·) := by
  have hpx : true :: pixelsAt m base n = (List.range (n + 1)).map (fun i => decide (i % 2 = 0)) := by
    rw [List.range_succ_eq_map, List.map_cons, List.map_map]
    refine congrArg _ (List.map_congr_left fun i hi => (h i (List.mem_range.mp hi)).trans (decide_eq_decide.mpr ?_))
    omega
  rw [hpx, List.isChain_map, List.isChain_range_succ]
  intro i _ heq
  have hiff := decide_eq_decide.mp heq
  omega

/-! ### The bytes written -/

/-- `m` is the memory of `s` after the bytes `bs` have been written from the destination base up, and `o` is their number. -/
structure WrittenTo (s : State) (bs : List Byte) (o : Nat) (m : Memory) : Prop where
  memWf : Memory.wf m
  bytes : bytesAt m s.l1.toNat o = bs
  frame : ∀ a, (∀ d < o, a ≠ s.l1.toNat + d) → Memory.get m a = Memory.get s.mem a

section
variable {s : State} {bs : List Byte} {o : Nat} {m : Memory}

theorem WrittenTo.start (hwf : Memory.wf s.mem) : WrittenTo s [] 0 s.mem :=
  ⟨hwf, rfl, fun _ _ => rfl⟩

theorem WrittenTo.offset_eq (h : WrittenTo s bs o m) : o = bs.length := by
  rw [← h.bytes, bytesAt_length]

theorem WrittenTo.append (h : WrittenTo s bs o m) (v : Byte) :
    WrittenTo s (bs ++ [v]) (o + 1) (Memory.set m (s.l1.toNat + o) v) where
  memWf := Memory.wf_set _ _ _ h.memWf
  bytes := by
    have hkept : bytesAt (Memory.set m (s.l1.toNat + o) v) s.l1.toNat o = bytesAt m s.l1.toNat o :=
      bytesAt_congr fun d hd => Memory.get_set_ne _ _ _ _ (by omega)
    rw [bytesAt_succ_last, hkept, h.bytes, Memory.get_set_self _ _ _ h.memWf]
  frame a hne := by
    rw [Memory.get_set_ne _ _ _ _ (hne o (Nat.lt_succ_self o))]
    exact h.frame a fun d hd => hne d (Nat.lt_succ_of_lt hd)

theorem WrittenTo.offset_le {bs' : List Byte} {o' : Nat} {m' : Memory} (h : WrittenTo s bs o m)
    (h' : WrittenTo s (bs ++ bs') o' m') : o ≤ o' := by
  rw [h.offset_eq, h'.offset_eq, List.length_append]
  exact Nat.le_add_right _ _

/-- A store behind the bytes written writes one more, or is outside memory. -/
theorem WrittenTo.store (h : WrittenTo s bs o m) (v : Byte) :
    (Body.store s (s.l1.toNat + o) v).Meets m (fun _ => WrittenTo s (bs ++ [v]) (o + 1)) (fun _ _ => True) :=
  .store (fun _ => h.append v) fun _ => trivial

/-- Emit(k) writes the bytes of a run of `k` pixels (R144). -/
theorem WrittenTo.emit (h : WrittenTo s bs o m) (k : Nat) :
    (pseudoEmit s o k).Meets m (WrittenTo s (bs ++ runBytes k)) (fun _ _ => True) := by
  refine .andThen
    (.loop (P := fun j => WrittenTo s (bs ++ (List.replicate j [255#8, 0#8]).flatten)) ?pair ?start) fun o m' hpairs => ?rest
  case start =>
    rw [List.replicate_zero, List.flatten_nil, List.append_nil]
    exact h
  case pair =>
    intro j o m' _ _ hj
    refine .andThen (hj.store 255#8) fun _ m₁ h₁ => .andThen (h₁.store 0#8) fun _ m₂ h₂ => .give ?_
    rw [List.replicate_succ', List.flatten_append, List.flatten_singleton, ← List.append_assoc]
    rwa [List.append_assoc _ [255#8] [0#8]] at h₂
  case rest =>
    refine .andThen (hpairs.store _) fun _ m₁ h₁ => .give ?_
    rwa [Nat.zero_add, List.append_assoc] at h₁

end

/-! ### The pixels read -/

/-- No byte of the source lies among the first `o` bytes of the destination (R146, spec/20_memory.md R68). -/
abbrev State.SourceApart (s : State) (o : Nat) : Prop := Apart s.l0.toNat (ceil8 s.encPixels) s.l1.toNat o

/-- RLEENC before pixel `i`, when the pixels it has read are `px` and the bytes it has written are `bs`. `byte` is about the
source byte at hand in the middle of its pixels. -/
structure EncodedPixels (s : State) (px : List Bool) (bs : List Byte) (i : Nat) (r : PseudoRun) (m : Memory) : Prop where
  length : px.length = i
  written : WrittenTo s bs r.o m
  encoding : ∀ rest, encodedBuffer s.l2.toNat s.l3.toNat (px ++ rest) = bs ++ runBytesFrom r.color r.count rest
  source : s.SourceApart r.o → px = pixelsAt s.mem s.l0.toNat i
  byte : s.SourceApart r.o → i % 8 ≠ 0 → r.b = Memory.get s.mem (s.l0.toNat + i / 8)

/-- RLEENC of a picture `px` is complete in the memory `m`, and `o` is the number of bytes written. -/
structure EncodedAll (s : State) (px : List Bool) (o : Nat) (m : Memory) : Prop where
  length : px.length = s.encPixels
  written : WrittenTo s (encodedBuffer s.l2.toNat s.l3.toNat px) o m
  source : s.SourceApart o → px = pixelsAt s.mem s.l0.toNat s.encPixels

section
variable {s : State} {px : List Bool} {bs : List Byte} {i o : Nat} {r : PseudoRun} {b : Byte} {m m' : Memory}

theorem State.SourceApart.mono {o' : Nat} (h : s.SourceApart o') (ho : o ≤ o') : s.SourceApart o := by
  unfold State.SourceApart Apart at h ⊢
  omega

/-- The byte of pixel `i` is at hand when its bit is compared (R146). -/
theorem EncodedPixels.load_byte (h : EncodedPixels s px bs i r m) (hi : i < s.encPixels) :
    (if i % 8 = 0 then Body.load s (s.l0.toNat + i / 8) else Body.give r.b).Meets m
      (fun b m' => m' = m ∧ (s.SourceApart r.o → b = Memory.get s.mem (s.l0.toNat + i / 8))) (fun _ _ => True) := by
  by_cases hfirst : i % 8 = 0
  · rw [if_pos hfirst]
    refine .load (fun _ => ⟨rfl, fun hapart => h.written.frame _ fun d hd => ?_⟩) fun _ => trivial
    unfold State.SourceApart Apart ceil8 at hapart
    omega
  · rw [if_neg hfirst]
    exact .give ⟨rfl, fun hapart => h.byte hapart hfirst⟩

/-- The bit compared is the next pixel read, and goes into the run that is under way or into a new one. -/
theorem EncodedPixels.pixelRead (h : EncodedPixels s px bs i r m) {bs' : List Byte} {r' : PseudoRun}
    (hb : s.SourceApart r.o → b = Memory.get s.mem (s.l0.toNat + i / 8)) (ho : r.o ≤ r'.o) (hbyte : r'.b = b)
    (hm : WrittenTo s bs' r'.o m')
    (hruns : ∀ rest, bs ++ runBytesFrom r.color r.count (b.getLsbD (7 - i % 8) :: rest) =
      bs' ++ runBytesFrom r'.color r'.count rest) :
    EncodedPixels s (px ++ [b.getLsbD (7 - i % 8)]) bs' (i + 1) r' m' where
  length := by rw [List.length_append, h.length]; rfl
  written := hm
  encoding rest := by rw [List.append_assoc, h.encoding]; exact hruns rest
  source hapart := by
    have hapart' := hapart.mono ho
    rw [pixelsAt_succ, ← h.source hapart', hb hapart']
    rfl
  byte hapart hmid := by
    have hsame : (i + 1) / 8 = i / 8 := by omega
    rw [hbyte, hb (hapart.mono ho), hsame]

/-- One pixel is counted in the run under way, or Emit writes that run and the pixel begins the next one (R143). -/
theorem EncodedPixels.pixel_meets (h : EncodedPixels s px bs i r m) (hi : i < s.encPixels) :
    (pseudoEncodePixel s i r).Meets m (fun r' m' => ∃ px' bs', EncodedPixels s px' bs' (i + 1) r' m')
      (fun _ _ => True) := by
  refine .andThen (h.load_byte hi) ?_
  rintro b _ ⟨rfl, hb⟩
  by_cases hsame : b.getLsbD (7 - i % 8) = r.color
  · rw [if_pos hsame]
    exact .give ⟨_, _, h.pixelRead hb (Nat.le_refl _) rfl h.written fun rest => by rw [runBytesFrom_same hsame]⟩
  · rw [if_neg hsame]
    refine .andThen (h.written.emit r.count) fun o m' hm =>
      .give ⟨_, _, h.pixelRead hb (h.written.offset_le hm) rfl hm fun rest => ?_⟩
    rw [runBytesFrom_other hsame, List.append_assoc]

theorem EncodedPixels.start (hm : WrittenTo s [BitVec.ofNat 8 s.l2.toNat, BitVec.ofNat 8 s.l3.toNat] 2 m) :
    EncodedPixels s [] [BitVec.ofNat 8 s.l2.toNat, BitVec.ofNat 8 s.l3.toNat] 0
      { o := 2, color := true, count := 0, b := 0#8 } m :=
  ⟨rfl, hm, fun _ => rfl, fun _ => rfl, fun _ h => absurd rfl h⟩

/-- The last run ends the encoding (R145). -/
theorem EncodedPixels.emit_last (h : EncodedPixels s px bs s.encPixels r m) :
    (pseudoEmit s r.o r.count).Meets m (EncodedAll s px) (fun _ _ => True) := by
  have henc : encodedBuffer s.l2.toNat s.l3.toNat px = bs ++ runBytes r.count := by
    rw [← runBytesFrom_nil r.color, ← h.encoding [], List.append_nil]
  refine (h.written.emit r.count).imp fun o m' hm => ⟨h.length, ?_, fun hapart => ?_⟩
  · rw [henc]
    exact hm
  · exact h.source (hapart.mono (h.written.offset_le hm))

/-- RLEENC whose checks pass ends with the EncodedBuffer of the pixels it has read, or with an error. -/
theorem pseudoEncode_meets (hwf : Memory.wf s.mem) :
    (pseudoEncode s).Meets s.mem (fun o m => ∃ px, EncodedAll s px o m) (fun _ _ => True) := by
  refine .andThen ((WrittenTo.start hwf).store _) fun _ m₁ h₁ => .andThen (h₁.store _) fun _ m₂ h₂ =>
    .andThen (.loop (P := fun i r m => ∃ px bs, EncodedPixels s px bs i r m) ?pixel ⟨_, _, .start h₂⟩) fun r m₃ hpixels => ?last
  case pixel =>
    rintro i r m - hi ⟨px, bs, h⟩
    exact h.pixel_meets (by omega)
  case last =>
    obtain ⟨px, bs, h⟩ := hpixels
    rw [Nat.zero_add] at h
    exact h.emit_last.imp fun o m hm => ⟨px, hm⟩

theorem pseudoRleenc_meets (hwf : Memory.wf s.mem) :
    (pseudoRleenc s).Meets s.mem (fun o m => ∃ px, encChecksPass s ∧ EncodedAll s px o m) (fun _ _ => True) := by
  by_cases hzero : s.l2.toNat = 0 ∨ s.l3.toNat = 0
  · rw [pseudoRleenc_of_zero hzero]
    exact .fail trivial
  · by_cases hlimit : 255 < s.l2.toNat ∨ 255 < s.l3.toNat
    · rw [pseudoRleenc_of_limit hzero hlimit]
      exact .fail trivial
    · rw [pseudoRleenc_of_checks hzero hlimit]
      have hchecks : encChecksPass s := by
        show 1 ≤ s.l2.toNat ∧ s.l2.toNat ≤ 255 ∧ 1 ≤ s.l3.toNat ∧ s.l3.toNat ≤ 255
        omega
      exact (pseudoEncode_meets hwf).imp fun o m ⟨px, hm⟩ => ⟨px, hchecks, hm⟩

end

end Sys2Proof.Machine
end

section
/-!
SUPPORT. What an uninterrupted RLEENC answers: the EncodedBuffer of a picture (spec/42_rle_encoder.md R142 to R148), or an
error, of which none is left when its checks pass and its source and largest destination lie in memory.
-/

namespace Sys2Proof.Machine

section
variable {ω : Type} {s : State} {e : Err}

theorem Micro.reading_raise {a : Nat} {k : Byte → ω} (h : Micro.reading s a k = .raise e) : s.config.memBytes ≤ a := by
  rw [Micro.reading_eq] at h
  split at h
  · cases h
  · exact Nat.le_of_not_lt ‹_›

theorem Micro.writing_raise {a : Nat} {v : Byte} {w : ω} (h : Micro.writing s a v w = .raise e) :
    s.config.memBytes ≤ a := by
  rw [Micro.writing_eq] at h
  split at h
  · cases h
  · exact Nat.le_of_not_lt ‹_›

/-- Behind the checks, a block step of RLEENC raises an error only at a byte of its ranges that is outside memory
(R141, R148, spec/20_memory.md R62). -/
theorem rleencStep_raise {w : EncWork} (hc : encChecksPass s) (hw : w.ok s) (h : rleencStep s w = .raise e) :
    s.config.memBytes < s.srcBase + ceil8 s.encPixels ∨ s.config.memBytes < s.dstBase + (s.encPixels + 3) := by
  cases w with
  | entry =>
    unfold encChecksPass at hc
    simp only [rleencStep] at h
    split at h
    · omega
    · split at h
      · omega
      · cases h
  | header0 => have := Micro.writing_raise h; omega
  | header1 => have := Micro.writing_raise h; omega
  | pixel v =>
    simp only [rleencStep] at h
    split at h
    · split at h
      · have := Micro.reading_raise h
        unfold ceil8
        omega
      · cases h
    · cases h
  | bit v =>
    simp only [rleencStep] at h
    split at h
    · cases h
    · cases h
  | emit v k last =>
    obtain ⟨-, hl, hn, -, -, ho⟩ := hw
    have hi := pixel_le_of_emit hl hn
    simp only [rleencStep] at h
    split at h
    · have := Micro.writing_raise h; omega
    · have := Micro.writing_raise h; omega
  | emitZero v k last =>
    obtain ⟨-, -, hl, hn, -, -, ho⟩ := hw
    have hi := pixel_le_of_emit hl hn
    have := Micro.writing_raise h
    omega
  | done v => cases h

end

section
variable {s t : State}

/-- An error that ends RLEENC behind its checks is an access outside memory. -/
theorem rleenc_raise_outside {e : Err} {m : Memory} (hc : encChecksPass s) (h : ReachesRaise rleencStep s .entry e m) :
    s.config.memBytes < s.srcBase + ceil8 s.encPixels ∨ s.config.memBytes < s.dstBase + (s.encPixels + 3) := by
  obtain ⟨w, ⟨j, hwalk⟩, hraise⟩ := h
  have hok : w.ok (s.setMem m) :=
    walk_induction (P := fun u w => w.ok u) (fun _ _ _ _ => rleencStep_ok) hwalk trivial
  exact rleencStep_raise (s := s.setMem m) hc hok hraise

theorem EncodedAll.length_le {px : List Bool} {o : Nat} {m : Memory} (h : EncodedAll s px o m) : o ≤ s.encPixels + 3 := by
  rw [h.written.offset_eq, ← h.length]
  exact encodedBuffer_length_le _ _ _

/-- The run bytes begin behind the two header bytes (R142, R143). -/
theorem EncodedAll.runBytes_eq {px : List Bool} {o : Nat} {m : Memory} (h : EncodedAll s px o m) :
    bytesAt m (s.l1.toNat + 2) (o - 2) = runBytesFrom true 0 px := by
  obtain ⟨n, rfl⟩ : ∃ n, o = n + 2 := ⟨_, h.written.offset_eq⟩
  have hbytes := h.written.bytes
  rw [bytesAt_succ, bytesAt_succ] at hbytes
  exact (List.cons.inj (List.cons.inj hbytes).2).2

/-- RESULT holds the number of bytes written, with no wrap (R145, R148). -/
theorem EncodedAll.toNat_result {px : List Bool} {o : Nat} {m : Memory} (hc : encChecksPass s)
    (h : EncodedAll s px o m) : (BitVec.ofNat 32 o).toNat = o := by
  have hle := h.length_le
  have hN := encPixels_le hc
  exact Nat.mod_eq_of_lt (by omega)

/-- An RLEENC that ends with no error leaves the EncodedBuffer of a picture, with RESULT its length. -/
theorem exec_rleenc_success (hs : s.Fresh) (hwf : Memory.wf s.mem) (h : exec .rleenc s = .next t) (he : t.err = 0#4) :
    ∃ px, encChecksPass s ∧ EncodedAll s px t.result.toNat t.mem := by
  rw [exec_rleenc_eq s hs] at h
  obtain ⟨o, m, hbody, px, hc, hm⟩ | ⟨e, m, hbody, -⟩ := (pseudoRleenc_meets hwf).cases
  · rw [conclude_ok hbody] at h
    cases h
    refine ⟨px, hc, ?_⟩
    rw [State.complete_result, hm.toNat_result hc]
    exact hm
  · rw [conclude_error hbody] at h
    cases h
    exact absurd ((State.raise_err _ e).symm.trans he) e.code_ne_zero

/-- With its ranges in memory and apart RLEENC completes with the EncodedBuffer of the source picture. -/
theorem exec_rleenc_ready (hs : s.RleencReady) :
    ∃ o m, exec .rleenc s = .next ((s.setMem m).complete (BitVec.ofNat 32 o)) ∧ (BitVec.ofNat 32 o).toNat = o ∧
      EncodedAll s (pixelsAt s.mem s.l0.toNat s.encPixels) o m := by
  obtain ⟨hfresh, hwf, hrows, hrows', hcols, hcols', hsrc, hdst, hapart⟩ := hs
  have hchecks : encChecksPass s := ⟨hrows, hrows', hcols, hcols'⟩
  rw [exec_rleenc_eq s hfresh]
  obtain ⟨o, m, hbody, px, -, hm⟩ | ⟨e, m, hbody, -⟩ := (pseudoRleenc_meets hwf).cases
  · have hpx := hm.source (State.SourceApart.mono hapart hm.length_le)
    exact ⟨o, m, congrArg _ (conclude_ok hbody), hm.toNat_result hchecks, hpx ▸ hm⟩
  · exfalso
    have hraise := pseudoRleenc_follows s
    rw [Body.Meets, hbody] at hraise
    exact (rleenc_raise_outside hchecks hraise).elim (Nat.not_lt.mpr hsrc) (Nat.not_lt.mpr hdst)

end

end Sys2Proof.Machine
end

section
/-!
The obligations on RLEENC (spec/42_rle_encoder.md).
-/

namespace Sys2Proof.Machine

/-- Settles O42: the block steps go through the pseudocode access by access (`exec_rleenc_eq`). -/
theorem rleencFollowsPseudocode : Obligations.RleencFollowsPseudocode := by
  unfold Obligations.RleencFollowsPseudocode
  exact exec_rleenc_eq

/-- Settles O32: with its ranges in memory and apart RLEENC leaves the EncodedBuffer of the source (`exec_rleenc_ready`). -/
theorem rleencWritesEncodedBuffer : Obligations.RleencWritesEncodedBuffer := by
  unfold Obligations.RleencWritesEncodedBuffer
  intro s hs
  obtain ⟨o, m, hexec, -, hm⟩ := exec_rleenc_ready hs
  obtain rfl := hm.written.offset_eq
  exact ⟨m, _, rfl, hexec, hm.written.bytes, hm.written.frame⟩

/-- Settles O33: what RLEENC leaves is the EncodedBuffer of the pixels it has read, whose run bytes sum to their number and
replay to them; without overlap they are the pixels of the source. -/
theorem encodedRunsReplayToPicture : Obligations.EncodedRunsReplayToPicture := by
  unfold Obligations.EncodedRunsReplayToPicture
  intro s t hfresh hwf hexec herr
  obtain ⟨px, ⟨hrows, -, hcols, -⟩, hm⟩ := exec_rleenc_success hfresh hwf hexec herr
  rw [hm.runBytes_eq]
  refine ⟨?_, fun hapart => ?_⟩
  · rw [runBytesFrom_sum, Nat.zero_add]
    exact hm.length
  · have hlength : ([] : List Bool).length + 0 + px.length = s.encPixels := (Nat.zero_add _).trans hm.length
    have hreplay := replayRuns_runBytesFrom (color := true) hlength (Nat.mul_pos hrows hcols)
    rw [hm.source hapart] at hreplay ⊢
    exact hreplay

/-- Settles O34: the bytes RLEENC writes are at most `N + 3` (`rleencWrites_le`); pixels that alternate from white on make an
empty run and `N` runs of one pixel. -/
theorem encodedSizeBound : Obligations.EncodedSizeBound := by
  unfold Obligations.EncodedSizeBound
  refine ⟨fun s t hfresh hexec herr => ?_, fun s hs halt => ?_⟩
  · have hok := State.workOk_of_none hfresh.1
    have hle := rleencWrites_le hok
    have h3 := rleenc_result hfresh herr hexec
    rw [rleencWrites_eq_result hok hfresh.2 hexec herr] at hle
    split at hle
    · have hN := encPixels_le ‹_›
      exact ⟨hle, by omega⟩
    · omega
  · obtain ⟨o, m, hexec, ho, hm⟩ := exec_rleenc_ready hs
    have hlength := runBytesFrom_length_of_isChain (isChain_pixelsAt_of_alternating halt) (Nat.zero_le 255)
    refine ⟨_, hexec, State.complete_err _ _, ?_⟩
    rw [State.complete_result, ho, hm.written.offset_eq, encodedBuffer_eq, List.length_append]
    rw [pixelsAt_length] at hlength
    show 2 + (runBytesFrom true 0 (pixelsAt s.mem s.l0.toNat (s.l2.toNat * s.l3.toNat))).length = _
    omega

/-- Settles O31: the two checks of the pseudocode, in their order. -/
theorem rleencChecksDimensions : Obligations.RleencChecksDimensions := by
  unfold Obligations.RleencChecksDimensions
  intro s hs
  have hraise : ∀ e : Err, pseudoRleenc s = Body.fail e → exec .rleenc s = .next (s.raise e) := fun e he => by
    rw [exec_rleenc_eq s hs, he]
    rfl
  refine ⟨fun hzero => hraise _ (pseudoRleenc_of_zero ?_), fun hrows hcols hlimit =>
    hraise _ (pseudoRleenc_of_limit (not_or.mpr ⟨?_, ?_⟩) hlimit)⟩
  · exact hzero.imp (congrArg BitVec.toNat) (congrArg BitVec.toNat)
  · exact fun h0 => hrows (BitVec.eq_of_toNat_eq h0)
  · exact fun h0 => hcols (BitVec.eq_of_toNat_eq h0)

end Sys2Proof.Machine
end

section
/-!
SUPPORT. RLEDEC and RLEREND go through their pseudocode block step by block step, overlapping ranges and errors included:
the front end and the replay once for both, around what each of them puts (spec/43_rle_decoder.md R160 to R163).
-/

namespace Sys2Proof.Machine

/-! ### The pieces of the pseudocode -/

/-- RLEDEC's `Put(color, t)` (R161). -/
def pseudoPutPacked (s : State) (color : Bool) (t : Nat) (acc : Byte) : Body Byte :=
  if t % 8 = 7 then
    (Body.store s (s.l1.toNat + t / 8) (orPixel (if t % 8 = 0 then 0#8 else acc) (t % 8) color)).andThen (fun _ =>
      Body.give (orPixel (if t % 8 = 0 then 0#8 else acc) (t % 8) color))
  else Body.give (orPixel (if t % 8 = 0 then 0#8 else acc) (t % 8) color)

/-- What RLEDEC does behind Replay of `n` pixels (R161, R167). -/
def pseudoPackedTail (s : State) (n : Nat) (acc : Byte) : Body Nat :=
  if n % 8 = 0 then Body.give (ceil8 n)
  else (Body.store s (s.l1.toNat + n / 8) acc).andThen (fun _ => Body.give (ceil8 n))

/-- RLEREND's `Put(color, t)` for rows of `cols` pixels (R162, R168). -/
def pseudoPutGlyph (s : State) (cols : Nat) (color : Bool) (t q : Nat) : Body Nat :=
  (Body.store s (s.l1.toNat + q) (if color then 0x23#8 else 0x20#8)).andThen (fun _ =>
    if (t + 1) % cols = 0 then
      (Body.store s (s.l1.toNat + (q + 1)) 0x0A#8).andThen (fun _ => Body.give (q + 2))
    else Body.give (q + 1))

theorem pseudoRledec_eq (s : State) :
    pseudoRledec s = (pseudoFront s).andThen (fun d =>
      (pseudoReplay s (d.1.toNat * d.2.toNat) (pseudoPutPacked s) (s.l3.toNat - 2) 2 0 true 0#8).andThen
        (pseudoPackedTail s (d.1.toNat * d.2.toNat))) := rfl

theorem pseudoRlerend_eq (s : State) :
    pseudoRlerend s = (pseudoFront s).andThen (fun d =>
      pseudoReplay s (d.1.toNat * d.2.toNat) (pseudoPutGlyph s d.2.toNat) (s.l3.toNat - 2) 2 0 true 0) := rfl

section
variable {σ : Type} {s : State} {n : Nat} {put : Bool → Nat → σ → Body σ} {left p total : Nat} {color : Bool} {x : σ}

/-- Replay is over when all pixels are put (R166). -/
theorem pseudoReplay_of_le (h : n ≤ total) : pseudoReplay s n put left p total color x = Body.give x := by
  cases left <;> exact if_neg (Nat.not_lt.mpr h)

/-- With no byte of the stream left the pixels that are missing make it truncated (R164). -/
theorem pseudoReplay_zero (h : total < n) :
    pseudoReplay s n put 0 p total color x = Body.fail .malformedStream :=
  if_pos h

/-- One pass of Replay's loop (R163, R165). -/
theorem pseudoReplay_succ (h : total < n) :
    pseudoReplay s n put (left + 1) p total color x = (Body.load s (s.l0.toNat + p)).andThen (fun run =>
      if n < total + run.toNat then Body.fail .malformedStream
      else (Body.loop run.toNat total x (put color)).andThen
        (pseudoReplay s n put left (p + 1) (total + run.toNat) (!color))) :=
  if_pos h

end

/-! ### The front end and the replay -/

section
variable {σ : Type} {k : Sink σ} {s : State} {m : Memory}

/-- The block steps of the front end (R160). -/
theorem decode_front_follows :
    (pseudoFront s).Meets s.mem
      (fun d m => Reaches (decodeStep k) s .entry m (.next (replayStart d.1 d.2) k.init))
      (ReachesRaise (decodeStep k) s .entry) := by
  have hstart : Reaches (decodeStep k) s .entry s.mem .entry := .refl
  unfold pseudoFront
  by_cases hlen : s.l3.toNat < 2
  · rw [if_pos hlen]
    exact .fail (hstart.raise (if_pos hlen))
  · rw [if_neg hlen]
    refine .andThen ((hstart.goOn (if_neg hlen)).load rfl) fun rows m₁ h₁ => .andThen (h₁.load rfl) fun cols m₂ h₂ => ?_
    by_cases hzero : rows = 0#8 ∨ cols = 0#8
    · rw [if_pos hzero]
      exact .fail (h₂.raise (if_pos hzero))
    · rw [if_neg hzero]
      exact .give (h₂.goOn (if_neg hzero))

/-- The two halves of the sink's Put do what `put` does, for a stream with the header bytes `rows` and `cols`. -/
def Sink.Follows (k : Sink σ) (s : State) (rows cols : Byte) (put : Bool → Nat → σ → Body σ) : Prop :=
  ∀ (total : Nat) (color : Bool) (p : Nat) (x : σ) (left : Nat) (m : Memory),
    Reaches (decodeStep k) s .entry m (.put ⟨rows, cols, total, color, p⟩ x (left + 1)) →
    (put color total x).Meets m
      (fun y m' => Reaches (decodeStep k) s .entry m' (.put ⟨rows, cols, total + 1, color, p⟩ y left))
      (ReachesRaise (decodeStep k) s .entry)

variable {rows cols : Byte} {put : Bool → Nat → σ → Body σ}

/-- The block steps of one run: a Put for each of its pixels, and the change of colour (R163). -/
theorem decode_run_follows (hput : k.Follows s rows cols put) {total p run : Nat} {color : Bool} {x : σ}
    (h : Reaches (decodeStep k) s .entry m (.put ⟨rows, cols, total, color, p⟩ x run)) :
    (Body.loop run total x (put color)).Meets m
      (fun y m' => Reaches (decodeStep k) s .entry m' (.next ⟨rows, cols, total + run, !color, p⟩ y))
      (ReachesRaise (decodeStep k) s .entry) := by
  refine Body.Meets.imp (.loop (P := fun t y m' =>
    Reaches (decodeStep k) s .entry m' (.put ⟨rows, cols, t, color, p⟩ y (total + run - t))) ?pixel ?start) ?flip
  case start => rwa [Nat.add_sub_cancel_left]
  case pixel =>
    intro t y m' _ ht hy
    obtain ⟨left, hleft⟩ : ∃ left, total + run - t = left + 1 := ⟨total + run - t - 1, by omega⟩
    have hnext : total + run - (t + 1) = left := by omega
    rw [hleft] at hy
    rw [hnext]
    exact hput t color p y left m' hy
  case flip =>
    intro y m' hy
    rw [Nat.sub_self] at hy
    exact hy.goOn rfl

/-- The block steps of Replay lead behind it, or to the error that ends it (R163 to R166). -/
theorem decode_replay_follows (hput : k.Follows s rows cols put) {left total p : Nat} {color : Bool} {x : σ}
    (hleft : s.l3.toNat - p = left)
    (h : Reaches (decodeStep k) s .entry m (.next ⟨rows, cols, total, color, p⟩ x)) :
    (pseudoReplay s (rows.toNat * cols.toNat) put left p total color x).Meets m
      (fun y m' => ∃ total' color' p',
        Reaches (decodeStep k) s .entry m' (.tail ⟨rows, cols, total', color', p'⟩ y))
      (ReachesRaise (decodeStep k) s .entry) := by
  induction left generalizing total p color x m with
  | zero =>
    obtain hopen | hdone := Nat.lt_or_ge total (rows.toNat * cols.toNat)
    · rw [pseudoReplay_zero hopen]
      have hend : s.l3.toNat ≤ p := Nat.le_of_sub_eq_zero hleft
      exact .fail (h.raise ((if_pos hopen).trans (if_pos hend)))
    · rw [pseudoReplay_of_le hdone]
      exact .give ⟨_, _, _, h.goOn (if_neg (Nat.not_lt.mpr hdone))⟩
  | succ left ih =>
    obtain hopen | hdone := Nat.lt_or_ge total (rows.toNat * cols.toNat)
    · rw [pseudoReplay_succ hopen]
      have hmore : ¬s.l3.toNat ≤ p := by omega
      refine .andThen (h.load ((if_pos hopen).trans (if_neg hmore))) fun run m₁ h₁ => ?_
      by_cases hover : rows.toNat * cols.toNat < total + run.toNat
      · rw [if_pos hover]
        exact .fail (h₁.raise (if_pos hover))
      · rw [if_neg hover]
        exact .andThen (decode_run_follows hput (h₁.goOn (if_neg hover))) fun y m₂ h₂ => ih (by omega) h₂
    · rw [pseudoReplay_of_le hdone]
      exact .give ⟨_, _, _, h.goOn (if_neg (Nat.not_lt.mpr hdone))⟩

end

/-! ### What each of the two commands puts -/

section
variable {ω σ : Type} {f : State → ω → Micro ω} {s : State} {m : Memory} {w₀ w : ω} {r : Except Err (Memory × σ)}
  {g : σ → ω}

/-- An action of a sink that writes does what MemWrite does (spec/20_memory.md R52). -/
theorem Reaches.sinkStore (h : Reaches f s w₀ m w) (hf : f (s.setMem m) w = .sinking r g) {a : Nat} {v : Byte} {x : σ}
    (hr : r = sinkWrite (s.setMem m) a v x) :
    (Body.store s a v).Meets m (fun _ m' => Reaches f s w₀ m' (g x)) (ReachesRaise f s w₀) := by
  refine h.store (hf.trans ?_)
  rw [hr, sinkWrite, Micro.writing]
  cases memWrite (s.setMem m) a v <;> rfl

/-- An action of a sink that writes nothing leaves memory as it was. -/
theorem Reaches.sinkKeep (h : Reaches f s w₀ m w) (hf : f (s.setMem m) w = .sinking r g) {x : σ} (hr : r = .ok (m, x)) :
    Reaches f s w₀ m (g x) := by
  rw [hr] at hf
  exact h.goOn hf

end

section
variable {s : State} {m : Memory} {rows cols : Byte}

/-- RLEDEC's Put is a step for the accumulator and one for the byte, when it is whole (R161). -/
theorem packedSink_follows : packedSink.Follows s rows cols (pseudoPutPacked s) := by
  intro total color p acc left m h
  have hbyte := h.sinkKeep rfl rfl
  unfold pseudoPutPacked
  by_cases hlast : total % 8 = 7
  · rw [if_pos hlast]
    exact .andThen (hbyte.sinkStore rfl (if_pos hlast)) fun _ _ hnext => .give hnext
  · rw [if_neg hlast]
    exact .give (hbyte.sinkKeep rfl (if_neg hlast))

/-- The last byte, when it is not whole, and the completion (R161, R167). -/
theorem packedTail_follows {total p : Nat} {color : Bool} {acc : Byte}
    (h : Reaches (decodeStep packedSink) s .entry m (.tail ⟨rows, cols, total, color, p⟩ acc)) :
    (pseudoPackedTail s (rows.toNat * cols.toNat) acc).Meets m
      (fun n => ReachesEnd (decodeStep packedSink) s .entry (.complete (BitVec.ofNat 32 n)))
      (ReachesRaise (decodeStep packedSink) s .entry) := by
  unfold pseudoPackedTail
  by_cases hwhole : rows.toNat * cols.toNat % 8 = 0
  · rw [if_pos hwhole]
    exact .give ⟨_, h.sinkKeep rfl (if_neg (not_not.mpr hwhole)), rfl⟩
  · rw [if_neg hwhole]
    exact .andThen (h.sinkStore rfl (if_pos hwhole)) fun _ _ hdone => .give ⟨_, hdone, rfl⟩

/-- RLEREND's Put is a step for the glyph and one for the line feed, when a row ends (R162, R168). -/
theorem textSink_follows : textSink.Follows s rows cols (pseudoPutGlyph s cols.toNat) := by
  intro total color p q left m h
  refine .andThen (h.sinkStore rfl rfl) fun _ m₁ hfeed => ?_
  by_cases hrow : (total + 1) % cols.toNat = 0
  · rw [if_pos hrow]
    exact .andThen (hfeed.sinkStore rfl (if_pos hrow)) fun _ _ hnext => .give hnext
  · rw [if_neg hrow]
    exact .give (hfeed.sinkKeep rfl (if_neg hrow))

end

/-- RLEDEC answers the outcome of its pseudocode. -/
theorem exec_rledec_eq (s : State) (hs : s.Fresh) : exec .rledec s = .next (conclude s (pseudoRledec s)) := by
  refine exec_eq_conclude (i := .rledec) hs ?_
  rw [pseudoRledec_eq]
  exact .andThen decode_front_follows fun d _ hfront =>
    .andThen (decode_replay_follows packedSink_follows rfl hfront) fun acc _ ⟨_, _, _, htail⟩ => packedTail_follows htail

/-- RLEREND answers the outcome of its pseudocode. -/
theorem exec_rlerend_eq (s : State) (hs : s.Fresh) : exec .rlerend s = .next (conclude s (pseudoRlerend s)) := by
  refine exec_eq_conclude (i := .rlerend) hs ?_
  rw [pseudoRlerend_eq]
  exact .andThen decode_front_follows fun d _ hfront =>
    (decode_replay_follows textSink_follows rfl hfront).imp fun q _ ⟨_, _, _, htail⟩ => ⟨_, htail.goOn rfl, rfl⟩

end Sys2Proof.Machine
end

section
/-!
SUPPORT. What the decode front end answers, and what Replay leaves when every Put keeps a property of the pixels put so far:
the same outcome as the replay of the run bytes on lists (spec/43_rle_decoder.md R160, R163 to R166).
-/

namespace Sys2Proof.Machine

/-! ### The front end -/

section
variable {s : State} {m : Memory}

theorem pseudoFront_short (h : s.l3.toNat < 2) : pseudoFront s m = (m, .error .malformedStream) := by
  rw [pseudoFront, if_pos h, Body.fail]

theorem pseudoFront_outside (h : 2 ≤ s.l3.toNat) (ha : s.config.memBytes ≤ s.l0.toNat + 1) :
    pseudoFront s m = (m, .error .accessFault) := by
  rw [pseudoFront, if_neg (Nat.not_lt.mpr h)]
  obtain h0 | h0 := Nat.lt_or_ge (s.l0.toNat + 0) s.config.memBytes
  · exact (Body.andThen_ok _ (Body.load_inside h0)).trans (Body.andThen_error _ (Body.load_outside ha))
  · exact Body.andThen_error _ (Body.load_outside h0)

/-- A header in memory is read and checked. -/
theorem pseudoFront_inside (h : 2 ≤ s.l3.toNat) (ha : s.l0.toNat + 1 < s.config.memBytes) :
    pseudoFront s m =
      if Memory.get m s.l0.toNat = 0#8 ∨ Memory.get m (s.l0.toNat + 1) = 0#8 then (m, .error .invalidPhotoSize)
      else (m, .ok (Memory.get m s.l0.toNat, Memory.get m (s.l0.toNat + 1))) := by
  have h0 : s.l0.toNat + 0 < s.config.memBytes := by omega
  rw [pseudoFront, if_neg (Nat.not_lt.mpr h), Body.andThen_ok _ (Body.load_inside h0),
    Body.andThen_ok _ (Body.load_inside ha), Nat.add_zero]
  split <;> rfl

/-- What follows a body that ends with a value. -/
theorem Body.Meets.after_ok {α β : Type} {b : Body α} {k : α → Body β} {m' : Memory} {x : α} {R : β → Memory → Prop}
    {E : Err → Memory → Prop} (h : b m = (m', .ok x)) (hk : (k x).Meets m' R E) : (b.andThen k).Meets m R E := by
  rwa [Body.Meets, Body.andThen_ok k h]

/-- Either decoding command ends with the error its front end meets, and writes nothing. -/
theorem exec_decoder_front_error {i : Instr} {e : Err} (hs : s.Fresh) (hi : i = .rledec ∨ i = .rlerend)
    (h : pseudoFront s s.mem = (s.mem, .error e)) : exec i s = .next (s.raise e) := by
  obtain rfl | rfl := hi
  · exact (exec_rledec_eq s hs).trans (congrArg _ (conclude_error (Body.andThen_error _ h)))
  · exact (exec_rlerend_eq s hs).trans (congrArg _ (conclude_error (Body.andThen_error _ h)))

end

/-! ### Replay on lists -/

section
variable {n : Nat} {color : Bool} {done : List Bool}

theorem replayRuns_of_le {runs : List Byte} (h : n ≤ done.length) : replayRuns n color done runs = .ok done := by
  cases runs <;> exact if_neg (Nat.not_lt.mpr h)

theorem replayRuns_nil (h : done.length < n) : replayRuns n color done [] = .error .malformedStream :=
  if_pos h

theorem replayRuns_overrun {r : Byte} {runs : List Byte} (h : done.length < n) (hover : n < done.length + r.toNat) :
    replayRuns n color done (r :: runs) = .error .malformedStream :=
  (if_pos h).trans (if_pos hover)

end

/-! ### The stream and the destination -/

/-- The stream has a header without 0 and at least `k` run bytes, those and the `n` bytes of the destination lie in memory,
and they do not overlap. -/
structure State.StreamApart (s : State) (k n : Nat) : Prop where
  memWf : Memory.wf s.mem
  fits : 2 + k ≤ s.l3.toNat
  rows : s.streamRows ≠ 0
  cols : s.streamCols ≠ 0
  srcBelow : s.l0.toNat + (2 + k) ≤ s.config.memBytes
  dstBelow : s.l1.toNat + n ≤ s.config.memBytes
  apart : Apart s.l0.toNat (2 + k) s.l1.toNat n

/-- The stream replayed from its first `k` run bytes. -/
def State.replayFirst (s : State) (k : Nat) : Except Err (List Bool) :=
  replayRuns (s.streamRows * s.streamCols) true [] (bytesAt s.mem (s.l0.toNat + 2) k)

section
variable {s : State} {k n : Nat}

/-- The header and the run bytes are all that `src_len` allows. -/
theorem State.DecodeReady.allRuns (h : s.DecodeReady n) : 2 + (s.l3.toNat - 2) = s.l3.toNat := by
  obtain ⟨-, -, hlen, -⟩ := h
  omega

theorem State.DecodeReady.streamApart (h : s.DecodeReady n) : s.StreamApart (s.l3.toNat - 2) n := by
  have hruns := h.allRuns
  obtain ⟨-, hwf, -, hrows, hcols, hsrc, hdst, hapart⟩ := h
  exact ⟨hwf, hruns.le, hrows, hcols, by rwa [hruns], hdst, by rwa [hruns]⟩

/-- A memory that differs in the destination alone holds the same stream. -/
theorem State.StreamApart.stream_kept (h : s.StreamApart k n) {m : Memory}
    (hframe : ∀ a, (∀ d < n, a ≠ s.l1.toNat + d) → Memory.get m a = Memory.get s.mem a) :
    ∀ i < 2 + k, Memory.get m (s.l0.toNat + i) = Memory.get s.mem (s.l0.toNat + i) := by
  intro i hi
  refine hframe _ fun d hd => ?_
  have hapart := h.apart
  omega

/-- The front end answers the header bytes. -/
theorem State.StreamApart.pseudoFront_ok (h : s.StreamApart k n) :
    pseudoFront s s.mem = (s.mem, .ok (Memory.get s.mem s.l0.toNat, Memory.get s.mem (s.l0.toNat + 1))) := by
  have hsrc := h.srcBelow
  have hheader : ¬(Memory.get s.mem s.l0.toNat = 0#8 ∨ Memory.get s.mem (s.l0.toNat + 1) = 0#8) :=
    not_or.mpr ⟨fun h0 => h.rows (congrArg BitVec.toNat h0), fun h0 => h.cols (congrArg BitVec.toNat h0)⟩
  rw [pseudoFront_inside (by have := h.fits; omega) (by omega), if_neg hheader]

end

/-! ### Replay in memory -/

/-- `I` of the pixels put so far, the command's own variable and memory is kept by every Put of one of the `n` pixels, which
ends with no error; and memory holds the first `len` bytes of the stream of `s` as long as `I` holds. -/
structure ReplayKeeps {σ : Type} (s : State) (n len : Nat) (put : Bool → Nat → σ → Body σ)
    (I : List Bool → σ → Memory → Prop) : Prop where
  length_le : ∀ {px x m}, I px x m → px.length ≤ n
  stream : ∀ {px x m}, I px x m → ∀ i < len, Memory.get m (s.l0.toNat + i) = Memory.get s.mem (s.l0.toNat + i)
  put : ∀ {px x m E} (color : Bool), I px x m → px.length < n →
    (put color px.length x).Meets m (I (px ++ [color])) E

/-- Replay is over with the pixels that `replayed` holds. -/
def ReplayEnds {σ : Type} (I : List Bool → σ → Memory → Prop) (n : Nat) (replayed : Except Err (List Bool)) (x : σ)
    (m : Memory) : Prop :=
  ∃ px, replayed = .ok px ∧ px.length = n ∧ I px x m

/-- Replay ends with MalformedStream, as `replayed` says, with some pixels put. -/
def ReplayStops {σ : Type} (I : List Bool → σ → Memory → Prop) (replayed : Except Err (List Bool)) (e : Err)
    (m : Memory) : Prop :=
  e = .malformedStream ∧ replayed = .error e ∧ ∃ px x, I px x m

section
variable {σ : Type} {s : State} {n len : Nat} {put : Bool → Nat → σ → Body σ} {I : List Bool → σ → Memory → Prop}
  {E : Err → Memory → Prop} {done : List Bool} {color : Bool} {x : σ} {m : Memory}

/-- A run puts its pixels (R163). -/
theorem ReplayKeeps.run_meets (hI : ReplayKeeps s n len put I) {run : Nat} (h : I done x m) (hfits : done.length + run ≤ n) :
    (Body.loop run done.length x (put color)).Meets m (I (done ++ List.replicate run color)) E := by
  refine Body.Meets.imp (.loop (P := fun t y m' => I (done ++ List.replicate (t - done.length) color) y m') ?pixel ?start)
    ?finish
  case start => rwa [Nat.sub_self, List.replicate_zero, List.append_nil]
  case pixel =>
    intro t y m' hlo hhi hy
    have hlen : (done ++ List.replicate (t - done.length) color).length = t := by
      rw [List.length_append, List.length_replicate]
      omega
    have hput := hI.put (E := E) color hy (by omega)
    rwa [hlen, List.append_assoc, ← List.replicate_succ', ← Nat.sub_add_comm hlo] at hput
  case finish =>
    intro y m' hy
    rwa [Nat.add_sub_cancel_left] at hy

/-- Replay over run bytes in memory ends as the replay of their list does. They are all that `src_len` allows, or enough. -/
theorem ReplayKeeps.replay_meets (hI : ReplayKeeps s n len put I) (hin : s.l0.toNat + len ≤ s.config.memBytes)
    {k left p : Nat} (h : I done x m) (hlen : p + k ≤ len) (hleft : k ≤ left)
    (henough : k = left ∨ ∃ px, replayRuns n color done (bytesAt s.mem (s.l0.toNat + p) k) = .ok px) :
    (pseudoReplay s n put left p done.length color x).Meets m
      (ReplayEnds I n (replayRuns n color done (bytesAt s.mem (s.l0.toNat + p) k)))
      (ReplayStops I (replayRuns n color done (bytesAt s.mem (s.l0.toNat + p) k))) := by
  induction k generalizing left p done color x m with
  | zero =>
    obtain hopen | hdone := Nat.lt_or_ge done.length n
    · have hnil : replayRuns n color done (bytesAt s.mem (s.l0.toNat + p) 0) = .error .malformedStream :=
        replayRuns_nil hopen
      obtain rfl | ⟨px, hpx⟩ := henough
      · rw [pseudoReplay_zero hopen]
        exact .fail ⟨rfl, hnil, done, x, h⟩
      · rw [hnil] at hpx
        cases hpx
    · rw [pseudoReplay_of_le hdone, replayRuns_of_le hdone]
      exact .give ⟨done, rfl, Nat.le_antisymm (hI.length_le h) hdone, h⟩
  | succ k ih =>
    obtain hopen | hdone := Nat.lt_or_ge done.length n
    · obtain ⟨left, rfl⟩ : ∃ l, left = l + 1 := ⟨left - 1, by omega⟩
      rw [bytesAt_succ] at henough ⊢
      rw [pseudoReplay_succ hopen]
      refine .andThen (Q := fun run m' => run = Memory.get s.mem (s.l0.toNat + p) ∧ m' = m)
        (.load (fun _ => ⟨hI.stream h p (by omega), rfl⟩) (by omega)) ?_
      rintro _ _ ⟨rfl, rfl⟩
      by_cases hover : n < done.length + (Memory.get s.mem (s.l0.toNat + p)).toNat
      · rw [if_pos hover]
        exact .fail ⟨rfl, replayRuns_overrun hopen hover, done, x, h⟩
      · rw [if_neg hover]
        rw [replayRuns_cons hopen (Nat.le_of_not_lt hover)] at henough ⊢
        refine .andThen (hI.run_meets h (Nat.le_of_not_lt hover)) fun y m' hy => ?_
        have hrest := ih hy (p := p + 1) (left := left) (color := !color) (by omega) (by omega)
          (henough.imp_left Nat.succ.inj)
        rwa [List.length_append, List.length_replicate] at hrest
    · rw [pseudoReplay_of_le hdone, replayRuns_of_le hdone]
      exact .give ⟨done, rfl, Nat.le_antisymm (hI.length_le h) hdone, h⟩

end

end Sys2Proof.Machine
end

section
/-!
SUPPORT. What RLEDEC leaves in memory: the pixels its stream replays to, as a PackedBuffer with pad bits 0, or the whole bytes
of those before a MalformedStream (spec/43_rle_decoder.md R161, R167, R170).
-/

namespace Sys2Proof.Machine

/-! ### The bytes written -/

/-- `m` is the memory of `s` after the first `c` bytes of the PackedBuffer of `px`, pad bits 0, have been written at the
destination. -/
structure PixelsWritten (s : State) (px : List Bool) (c : Nat) (m : Memory) : Prop where
  memWf : Memory.wf m
  pixels : ∀ i < 8 * c, pixelAt m s.l1.toNat i = px.getD i false
  frame : ∀ a, (∀ d < c, a ≠ s.l1.toNat + d) → Memory.get m a = Memory.get s.mem a

/-- RLEDEC after the pixels `px`, at most `n`: their whole bytes are written, and the rest of them is in `acc`. -/
structure PackedSoFar (s : State) (n : Nat) (px : List Bool) (acc : Byte) (m : Memory) : Prop where
  length_le : px.length ≤ n
  written : PixelsWritten s px (px.length / 8) m
  bits : px.length % 8 ≠ 0 → ∀ j < 8, acc.getLsbD (7 - j) = px.getD (8 * (px.length / 8) + j) false

theorem getD_append_singleton (px : List Bool) (b : Bool) (i : Nat) :
    (px ++ [b]).getD i false = (px.getD i false || (decide (i = px.length) && b)) := by
  obtain hlt | rfl | hgt := Nat.lt_trichotomy i px.length
  · rw [List.getD_append _ _ _ _ hlt, decide_eq_false hlt.ne, Bool.false_and, Bool.or_false]
  · simp
  · rw [List.getD_eq_default _ _ (List.length_append.trans_le hgt), List.getD_eq_default _ _ hgt.le,
      decide_eq_false hgt.ne']
    rfl

section
variable {s : State} {px : List Bool} {acc : Byte} {c n : Nat} {m : Memory}

theorem PixelsWritten.start (hwf : Memory.wf s.mem) : PixelsWritten s [] 0 s.mem :=
  ⟨hwf, nofun, fun _ _ => rfl⟩

/-- Further pixels change no byte that is whole. -/
theorem PixelsWritten.append (h : PixelsWritten s px c m) (rest : List Bool) (hc : 8 * c ≤ px.length) :
    PixelsWritten s (px ++ rest) c m where
  memWf := h.memWf
  pixels i hi := by rw [h.pixels i hi, List.getD_append _ _ _ _ (by omega)]
  frame := h.frame

/-- The next byte is the accumulator's, bit `7 - j` of it pixel `j` of the byte (R167). -/
theorem PixelsWritten.write (h : PixelsWritten s px c m)
    (hacc : ∀ j < 8, acc.getLsbD (7 - j) = px.getD (8 * c + j) false) :
    PixelsWritten s px (c + 1) (Memory.set m (s.l1.toNat + c) acc) where
  memWf := Memory.wf_set _ _ _ h.memWf
  pixels i hi := by
    obtain hlt | hge := Nat.lt_or_ge i (8 * c)
    · rw [← h.pixels i hlt, pixelAt, Memory.get_set_ne _ _ _ _ (by omega), pixelAt]
    · obtain rfl : i / 8 = c := by omega
      rw [pixelAt, Memory.get_set_self _ _ _ h.memWf, hacc _ (Nat.mod_lt i (by decide)), Nat.div_add_mod]
  frame a hne := by
    rw [Memory.get_set_ne _ _ _ _ (hne c (Nat.lt_succ_self c))]
    exact h.frame a fun d hd => hne d (Nat.lt_succ_of_lt hd)

theorem lt_eight_mul_ceil8 {i : Nat} (h : i < n) : i < 8 * ceil8 n := by
  unfold ceil8
  omega

theorem pixelsAt_getD {base i : Nat} (h : i < n) : (pixelsAt m base n).getD i false = pixelAt m base i := by
  simp [pixelsAt, h]

/-- Once all bytes are written the destination holds the pixels. -/
theorem PixelsWritten.pixelsAt_eq (h : PixelsWritten s px (ceil8 n) m) (hlen : px.length = n) :
    pixelsAt m s.l1.toNat n = px := by
  refine List.ext_getElem ((pixelsAt_length _ _ _).trans hlen.symm) fun i hi hi' => ?_
  have hn : i < n := hlen ▸ hi'
  rw [← List.getD_eq_getElem _ false hi, ← List.getD_eq_getElem _ false hi', pixelsAt_getD hn,
    h.pixels i (lt_eight_mul_ceil8 hn)]

/-! ### One pixel, and the end -/

/-- The next pixel goes into the accumulator, which begins anew with each byte (R161). -/
theorem PackedSoFar.bits_put (h : PackedSoFar s n px acc m) (color : Bool) :
    ∀ j < 8, (orPixel (if px.length % 8 = 0 then 0#8 else acc) (px.length % 8) color).getLsbD (7 - j) =
      (px ++ [color]).getD (8 * (px.length / 8) + j) false := by
  intro j hj
  have hold : (if px.length % 8 = 0 then 0#8 else acc).getLsbD (7 - j) = px.getD (8 * (px.length / 8) + j) false := by
    by_cases hfirst : px.length % 8 = 0
    · rw [if_pos hfirst, List.getD_eq_default _ _ (by omega), BitVec.getLsbD_zero]
    · rw [if_neg hfirst]
      exact h.bits hfirst j hj
  have hpixel : j = px.length % 8 ↔ 8 * (px.length / 8) + j = px.length := by omega
  rw [getLsbD_orPixel _ _ (Nat.mod_lt _ (by decide)) hj, hold, getD_append_singleton, decide_eq_decide.mpr hpixel]

/-- Put writes the byte when its last pixel is in (R161). -/
theorem PackedSoFar.put_meets {E : Err → Memory → Prop} (h : PackedSoFar s n px acc m)
    (hdst : s.l1.toNat + ceil8 n ≤ s.config.memBytes) (hopen : px.length < n) (color : Bool) :
    (pseudoPutPacked s color px.length acc).Meets m (PackedSoFar s n (px ++ [color])) E := by
  have hlen : (px ++ [color]).length = px.length + 1 := List.length_append
  have hbits := h.bits_put color
  have hkept := h.written.append [color] (Nat.mul_div_le _ _)
  unfold pseudoPutPacked
  by_cases hlast : px.length % 8 = 7
  · rw [if_pos hlast]
    have hin : s.l1.toNat + px.length / 8 < s.config.memBytes := by
      unfold ceil8 at hdst
      omega
    have hwhole : (px ++ [color]).length / 8 = px.length / 8 + 1 := by omega
    refine .andThen (Q := fun _ => PixelsWritten s (px ++ [color]) (px.length / 8 + 1))
      (.store (fun _ => hkept.write hbits) (by omega)) fun _ _ hm => .give ⟨by omega, by rwa [hwhole], by omega⟩
  · rw [if_neg hlast]
    have hpart : (px ++ [color]).length / 8 = px.length / 8 := by omega
    exact .give ⟨by omega, by rwa [hpart], fun _ => by rwa [hpart]⟩

/-- At the end the last byte is written, if it is not whole, with its pad bits 0 (R167). -/
theorem PackedSoFar.tail_meets {E : Err → Memory → Prop} (h : PackedSoFar s n px acc m)
    (hdst : s.l1.toNat + ceil8 n ≤ s.config.memBytes) (hall : px.length = n) :
    (pseudoPackedTail s n acc).Meets m (fun r m' => r = ceil8 n ∧ PixelsWritten s px (ceil8 n) m') E := by
  obtain ⟨-, hwritten, hbits⟩ := h
  rw [hall] at hwritten hbits
  unfold pseudoPackedTail
  by_cases hwhole : n % 8 = 0
  · rw [if_pos hwhole]
    have hbytes : ceil8 n = n / 8 := by
      unfold ceil8
      omega
    exact .give ⟨rfl, by rwa [hbytes]⟩
  · rw [if_neg hwhole]
    have hbytes : ceil8 n = n / 8 + 1 := by
      unfold ceil8
      omega
    rw [hbytes] at hdst ⊢
    refine .andThen (Q := fun _ => PixelsWritten s px (n / 8 + 1))
      (.store (fun _ => hwritten.write (hbits hwhole)) (by omega)) fun _ _ hm => .give ⟨rfl, hm⟩

/-! ### The whole command -/

/-- RLEDEC has changed no byte outside its destination. -/
theorem PackedSoFar.frame (h : PackedSoFar s n px acc m) {a : Nat} (ha : ∀ d < ceil8 n, a ≠ s.l1.toNat + d) :
    Memory.get m a = Memory.get s.mem a := by
  refine h.written.frame a fun d hd => ha d ?_
  have hle := h.length_le
  unfold ceil8
  omega

theorem packed_replayKeeps {k : Nat} (h : s.StreamApart k (ceil8 n)) :
    ReplayKeeps s n (2 + k) (pseudoPutPacked s) (PackedSoFar s n) where
  length_le hpx := hpx.length_le
  stream hpx := h.stream_kept fun _ => hpx.frame
  put color hpx hopen := hpx.put_meets h.dstBelow hopen color

/-- RLEDEC ends as the replay of its run bytes does, when the `k` of them that lie in memory and apart from its destination
are all that `src_len` allows, or enough. -/
theorem exec_rledec_cases {k : Nat} (hs : s.Fresh) (h : s.StreamApart k (ceil8 (s.streamRows * s.streamCols)))
    (henough : 2 + k = s.l3.toNat ∨ ∃ px, s.replayFirst k = .ok px) :
    (∃ px m, s.replayFirst k = .ok px ∧ px.length = s.streamRows * s.streamCols ∧
        exec .rledec s =
          .next ((s.setMem m).complete (BitVec.ofNat 32 (ceil8 (s.streamRows * s.streamCols)))) ∧
        PixelsWritten s px (ceil8 (s.streamRows * s.streamCols)) m) ∨
      ∃ e m, s.replayFirst k = .error e ∧ exec .rledec s = .next ((s.setMem m).raise .malformedStream) ∧
        ∀ a, (∀ c < ceil8 (s.streamRows * s.streamCols), a ≠ s.l1.toNat + c) → Memory.get m a = Memory.get s.mem a := by
  have hstart : PackedSoFar s (s.streamRows * s.streamCols) [] 0#8 s.mem :=
    ⟨Nat.zero_le _, .start h.memWf, fun h0 => absurd rfl h0⟩
  have hleft : k ≤ s.l3.toNat - 2 := by have := h.fits; omega
  have hbody : (pseudoRledec s).Meets s.mem
      (fun r m => r = ceil8 (s.streamRows * s.streamCols) ∧ ∃ px, s.replayFirst k = .ok px ∧
        px.length = s.streamRows * s.streamCols ∧ PixelsWritten s px (ceil8 (s.streamRows * s.streamCols)) m)
      (ReplayStops (PackedSoFar s (s.streamRows * s.streamCols)) (s.replayFirst k)) := by
    rw [pseudoRledec_eq]
    refine .after_ok h.pseudoFront_ok (.andThen ((packed_replayKeeps h).replay_meets h.srcBelow hstart (Nat.le_refl _)
      hleft (henough.imp_left fun hk => by omega)) ?_)
    rintro acc m ⟨px, hpx, hall, hm⟩
    exact (hm.tail_meets h.dstBelow hall).imp fun r m' ⟨hr, hw⟩ => ⟨hr, px, hpx, hall, hw⟩
  rw [exec_rledec_eq s hs]
  obtain ⟨r, m, hb, rfl, px, hpx, hall, hm⟩ | ⟨e, m, hb, rfl, hpx, px, acc, hm⟩ := hbody.cases
  · exact .inl ⟨px, m, hpx, hall, congrArg _ (conclude_ok hb), hm⟩
  · exact .inr ⟨_, m, hpx, congrArg _ (conclude_error hb), fun a => hm.frame⟩

end

end Sys2Proof.Machine
end

section
/-!
SUPPORT. What RLEREND leaves in memory: the glyph text of the pixels its stream replays to, or of those before a
MalformedStream (spec/43_rle_decoder.md R162, R168, R170).
-/

namespace Sys2Proof.Machine

/-! ### The text of a list of pixels -/

section
variable {cols t : Nat}

theorem glyphText_singleton_within (b : Bool) (h : (t + 1) % cols ≠ 0) :
    glyphText cols t [b] = [if b then 0x23#8 else 0x20#8] :=
  congrArg _ (if_neg h)

theorem glyphText_singleton_end (b : Bool) (h : (t + 1) % cols = 0) :
    glyphText cols t [b] = [if b then 0x23#8 else 0x20#8] ++ [0x0A#8] :=
  congrArg _ (if_pos h)

theorem glyphText_cons (b : Bool) (px : List Bool) :
    glyphText cols t (b :: px) = glyphText cols t [b] ++ glyphText cols (t + 1) px := by
  by_cases hrow : (t + 1) % cols = 0
  · rw [glyphText_singleton_end b hrow]
    exact congrArg _ (if_pos hrow)
  · rw [glyphText_singleton_within b hrow]
    exact congrArg _ (if_neg hrow)

theorem glyphText_append (px rest : List Bool) :
    glyphText cols t (px ++ rest) = glyphText cols t px ++ glyphText cols (t + px.length) rest := by
  induction px generalizing t with
  | nil => rfl
  | cons b px ih =>
    rw [List.cons_append, glyphText_cons, ih, glyphText_cons b px, List.append_assoc, List.length_cons,
      Nat.add_assoc t 1, Nat.add_comm 1]

/-- The text has a glyph for each pixel and a line feed for each full row (R168). -/
theorem glyphText_length (px : List Bool) : (glyphText cols 0 px).length = px.length + px.length / cols := by
  induction px using List.reverseRecOn with
  | nil => rw [List.length_nil, Nat.zero_div]; rfl
  | append_singleton px b ih =>
    rw [glyphText_append, List.length_append, ih, Nat.zero_add, List.length_append, List.length_singleton, Nat.succ_div]
    by_cases hrow : (px.length + 1) % cols = 0
    · rw [glyphText_singleton_end b hrow, if_pos (Nat.dvd_of_mod_eq_zero hrow), List.length_append,
        List.length_singleton, List.length_singleton]
      omega
    · rw [glyphText_singleton_within b hrow, if_neg fun hdvd => hrow (Nat.mod_eq_zero_of_dvd hdvd), List.length_singleton]
      omega

end

/-! ### One pixel -/

/-- RLEREND after the pixels `px`, at most `n`: their text is written, and `q` is its length. -/
structure TextSoFar (s : State) (n cols : Nat) (px : List Bool) (q : Nat) (m : Memory) : Prop where
  length_le : px.length ≤ n
  written : WrittenTo s (glyphText cols 0 px) q m

section
variable {s : State} {rows cols q : Nat} {px : List Bool} {bs : List Byte} {m : Memory}

/-- A store behind the bytes written, in memory. -/
theorem WrittenTo.store_inside {o : Nat} {E : Err → Memory → Prop} (h : WrittenTo s bs o m) (v : Byte)
    (ha : s.l1.toNat + o < s.config.memBytes) :
    (Body.store s (s.l1.toNat + o) v).Meets m (fun _ => WrittenTo s (bs ++ [v]) (o + 1)) E :=
  .store (fun _ => h.append v) fun hout => absurd ha (Nat.not_lt.mpr hout)

theorem TextSoFar.offset_eq (h : TextSoFar s (rows * cols) cols px q m) : q = px.length + px.length / cols := by
  rw [h.written.offset_eq, glyphText_length]

/-- The text of some pixels of the picture is no longer than that of the picture. -/
theorem TextSoFar.offset_le (h : TextSoFar s (rows * cols) cols px q m) : q ≤ rows * cols + rows := by
  have hrows : px.length / cols ≤ rows := Nat.div_le_of_le_mul (Nat.mul_comm rows cols ▸ h.length_le)
  have hlen := h.length_le
  rw [h.offset_eq]
  omega

/-- Behind a pixel that is missing there is room for its glyph and a line feed. -/
theorem TextSoFar.room (h : TextSoFar s (rows * cols) cols px q m) (hopen : px.length < rows * cols) :
    q + 2 ≤ rows * cols + rows := by
  have hrow : px.length / cols < rows := Nat.div_lt_of_lt_mul (Nat.mul_comm rows cols ▸ hopen)
  rw [h.offset_eq]
  omega

/-- Put writes the glyph, and a line feed when the row is full (R162, R168). -/
theorem TextSoFar.put_meets {E : Err → Memory → Prop} (h : TextSoFar s (rows * cols) cols px q m)
    (hdst : s.l1.toNat + (rows * cols + rows) ≤ s.config.memBytes) (hopen : px.length < rows * cols) (color : Bool) :
    (pseudoPutGlyph s cols color px.length q).Meets m (TextSoFar s (rows * cols) cols (px ++ [color])) E := by
  have hlen : (px ++ [color]).length ≤ rows * cols := List.length_append.trans_le hopen
  have htext := glyphText_append (cols := cols) (t := 0) px [color]
  have hroom := h.room hopen
  rw [Nat.zero_add] at htext
  refine .andThen (h.written.store_inside _ (by omega)) fun _ m₁ h₁ => ?_
  by_cases hrow : (px.length + 1) % cols = 0
  · rw [if_pos hrow]
    refine .andThen (h₁.store_inside 0x0A#8 (by omega)) fun _ m₂ h₂ => .give ⟨hlen, ?_⟩
    rwa [htext, glyphText_singleton_end color hrow, ← List.append_assoc]
  · rw [if_neg hrow]
    refine .give ⟨hlen, ?_⟩
    rwa [htext, glyphText_singleton_within color hrow]

/-! ### The whole command -/

/-- RLEREND has changed no byte outside its destination. -/
theorem TextSoFar.frame (h : TextSoFar s (rows * cols) cols px q m) {a : Nat}
    (ha : ∀ d < rows * cols + rows, a ≠ s.l1.toNat + d) : Memory.get m a = Memory.get s.mem a :=
  h.written.frame a fun d hd => ha d (hd.trans_le h.offset_le)

theorem text_replayKeeps {k : Nat} (h : s.StreamApart k (rows * cols + rows)) :
    ReplayKeeps s (rows * cols) (2 + k) (pseudoPutGlyph s cols) (TextSoFar s (rows * cols) cols) where
  length_le hpx := hpx.length_le
  stream hpx := h.stream_kept fun _ => hpx.frame
  put color hpx hopen := hpx.put_meets h.dstBelow hopen color

/-- All rows are full at the end (R162). -/
theorem TextSoFar.offset_of_all (h : TextSoFar s (rows * cols) cols px q m) (hcols : cols ≠ 0)
    (hall : px.length = rows * cols) : q = rows * cols + rows := by
  rw [h.offset_eq, hall, Nat.mul_div_cancel _ (Nat.pos_of_ne_zero hcols)]

/-- RLEREND ends as the replay of its run bytes does, when its stream and its destination lie in memory and apart. -/
theorem exec_rlerend_cases (h : s.DecodeReady (s.streamRows * s.streamCols + s.streamRows)) :
    (∃ px m, s.streamPixels = .ok px ∧
        exec .rlerend s =
          .next ((s.setMem m).complete (BitVec.ofNat 32 (s.streamRows * s.streamCols + s.streamRows))) ∧
        WrittenTo s (glyphText s.streamCols 0 px) (s.streamRows * s.streamCols + s.streamRows) m) ∨
      ∃ e m, s.streamPixels = .error e ∧ exec .rlerend s = .next ((s.setMem m).raise .malformedStream) ∧
        ∀ a, (∀ q < s.streamRows * s.streamCols + s.streamRows, a ≠ s.l1.toNat + q) →
          Memory.get m a = Memory.get s.mem a := by
  have hstream := h.streamApart
  have hstart : TextSoFar s (s.streamRows * s.streamCols) s.streamCols [] 0 s.mem :=
    ⟨Nat.zero_le _, .start hstream.memWf⟩
  have hbody : (pseudoRlerend s).Meets s.mem
      (ReplayEnds (TextSoFar s (s.streamRows * s.streamCols) s.streamCols) (s.streamRows * s.streamCols) s.streamPixels)
      (ReplayStops (TextSoFar s (s.streamRows * s.streamCols) s.streamCols) s.streamPixels) := by
    rw [pseudoRlerend_eq]
    exact .after_ok hstream.pseudoFront_ok
      ((text_replayKeeps hstream).replay_meets hstream.srcBelow hstart (Nat.le_refl _) (Nat.le_refl _) (.inl rfl))
  rw [exec_rlerend_eq s h.1]
  obtain ⟨q, m, hb, px, hpx, hall, hm⟩ | ⟨e, m, hb, rfl, hpx, px, q, hm⟩ := hbody.cases
  · obtain rfl := hm.offset_of_all hstream.cols hall
    exact .inl ⟨px, m, hpx, congrArg _ (conclude_ok hb), hm.written⟩
  · exact .inr ⟨_, m, hpx, congrArg _ (conclude_error hb), fun a => hm.frame⟩

end

end Sys2Proof.Machine
end

section
/-!
SUPPORT. What the round trip takes from RLEENC: its source lies in memory when it succeeds, and what it leaves is a stream
for RLEDEC that replays to the source's pixels (spec/42_rle_encoder.md R147, spec/43_rle_decoder.md R169).
-/

namespace Sys2Proof.Machine

section
variable {s t : State}

/-- A body may end anyhow. -/
theorem Body.Meets.anyhow {α : Type} (b : Body α) (m : Memory) : b.Meets m (fun _ _ => True) (fun _ _ => True) := by
  unfold Body.Meets
  split <;> trivial

/-- A command that does what `b` does, and ends with no error, completes as `b` meets. -/
theorem Body.Meets.of_conclude {b : Body Nat} {Q : Nat → Memory → Prop} {E : Err → Memory → Prop} (h : b.Meets s.mem Q E)
    (he : (conclude s b).err = 0#4) : ∃ n m, conclude s b = (s.setMem m).complete (BitVec.ofNat 32 n) ∧ Q n m := by
  obtain ⟨n, m, hb, hq⟩ | ⟨e, m, hb, -⟩ := h.cases
  · exact ⟨n, m, conclude_ok hb, hq⟩
  · rw [conclude_error hb, State.raise_err] at he
    exact absurd he e.code_ne_zero

/-- The bytes of the pixels before pixel `i` lie in memory. -/
def State.SourceRead (s : State) (i : Nat) : Prop := ∀ j < i, bitAddr s.l0.toNat j < s.config.memBytes

/-- RLEENC that goes on to the next pixel has read the byte of this one (spec/42_rle_encoder.md R140). -/
theorem State.SourceRead.pixel_meets {i : Nat} {r : PseudoRun} {m : Memory} (h : s.SourceRead i) :
    (pseudoEncodePixel s i r).Meets m (fun _ _ => s.SourceRead (i + 1)) (fun _ _ => True) := by
  refine .andThen (Q := fun _ _ => s.SourceRead (i + 1)) ?byte fun b m' hread => ?compare
  case byte =>
    by_cases hfirst : i % 8 = 0
    · rw [if_pos hfirst]
      refine .load (fun ha j hj => ?_) fun _ => trivial
      obtain hlt | rfl := Nat.lt_succ_iff_lt_or_eq.mp hj
      · exact h j hlt
      · exact ha
    · rw [if_neg hfirst]
      refine .give fun j hj => ?_
      obtain hlt | rfl := Nat.lt_succ_iff_lt_or_eq.mp hj
      · exact h j hlt
      · have hsame : bitAddr s.l0.toNat j = bitAddr s.l0.toNat (j - 1) := by
          unfold bitAddr
          omega
        rw [hsame]
        exact h (j - 1) (by omega)
  case compare =>
    split
    · exact .give hread
    · exact .andThen (.anyhow _ _) fun _ _ _ => .give hread

/-- The last byte that Emit writes lies in memory (R144). -/
theorem pseudoEmit_inside (s : State) (o k : Nat) (m : Memory) :
    (pseudoEmit s o k).Meets m (fun o' _ => s.l1.toNat + o' ≤ s.config.memBytes) (fun _ _ => True) :=
  .andThen (.anyhow _ _) fun o' _ _ => .andThen (Q := fun _ _ => s.l1.toNat + o' < s.config.memBytes)
    (.store id fun _ => trivial) fun _ _ hlast => .give hlast

theorem pseudoEncode_inside (s : State) :
    (pseudoEncode s).Meets s.mem
      (fun o _ => s.SourceRead s.encPixels ∧ s.l1.toNat + o ≤ s.config.memBytes) (fun _ _ => True) := by
  refine .andThen (.anyhow _ _) fun _ m₁ _ => .andThen (.anyhow _ _) fun _ m₂ _ =>
    .andThen (.loop (P := fun i _ _ => s.SourceRead i) (fun _ _ _ _ _ h => h.pixel_meets) nofun) fun r m₃ hread => ?_
  rw [Nat.zero_add] at hread
  exact (pseudoEmit_inside s r.o r.count m₃).imp fun _ _ hlast => ⟨hread, hlast⟩

/-- An RLEENC that ends with no error has its source and the bytes it has written in memory. -/
theorem exec_rleenc_inside (hs : s.Fresh) (hc : encChecksPass s) (h : exec .rleenc s = .next t) (he : t.err = 0#4) :
    s.SourceRead s.encPixels ∧ s.l1.toNat + t.result.toNat ≤ s.config.memBytes := by
  obtain ⟨hrows, hrows', hcols, hcols'⟩ := hc
  have hzero : ¬(s.l2.toNat = 0 ∨ s.l3.toNat = 0) := not_or.mpr ⟨Nat.ne_of_gt hrows, Nat.ne_of_gt hcols⟩
  have hlimit : ¬(255 < s.l2.toNat ∨ 255 < s.l3.toNat) := not_or.mpr ⟨Nat.not_lt.mpr hrows', Nat.not_lt.mpr hcols'⟩
  rw [exec_rleenc_eq s hs, pseudoRleenc_of_checks hzero hlimit] at h
  cases h
  obtain ⟨o, m, hdone, hread, hlast⟩ := (pseudoEncode_inside s).of_conclude he
  have hwrap : (BitVec.ofNat 32 o).toNat ≤ o := Nat.mod_le o _
  rw [hdone, State.complete_result]
  exact ⟨hread, by omega⟩

end

section
variable {s u : State} {px : List Bool} {o : Nat} {m : Memory}

/-- The EncodedBuffer has its dimensions in front of its run bytes (R142). -/
theorem EncodedAll.header_eq (h : EncodedAll s px o m) :
    Memory.get m s.l1.toNat = BitVec.ofNat 8 s.l2.toNat ∧ Memory.get m (s.l1.toNat + 1) = BitVec.ofNat 8 s.l3.toNat := by
  obtain ⟨n, rfl⟩ : ∃ n, o = n + 2 := ⟨_, h.written.offset_eq⟩
  have hbytes := h.written.bytes
  rw [bytesAt_succ, bytesAt_succ] at hbytes
  exact ⟨(List.cons.inj hbytes).1, (List.cons.inj (List.cons.inj hbytes).2).1⟩

/-- A decoding command on the EncodedBuffer that RLEENC has left finds the dimensions. -/
theorem EncodedAll.stream_dims (h : EncodedAll s px o m) (hc : encChecksPass s) (hmem : u.mem = m) (hl : u.l0 = s.l1) :
    u.streamRows = s.l2.toNat ∧ u.streamCols = s.l3.toNat := by
  obtain ⟨-, hrows, -, hcols⟩ := hc
  rw [State.streamRows, State.streamCols, hmem, hl, h.header_eq.1, h.header_eq.2]
  exact ⟨toNat_ofNat_run hrows, toNat_ofNat_run hcols⟩

/-- It replays them to the pixels (R147). -/
theorem EncodedAll.replayFirst_eq (h : EncodedAll s px o m) (hc : encChecksPass s) (hmem : u.mem = m) (hl : u.l0 = s.l1) :
    u.replayFirst (o - 2) = .ok px := by
  have hlength : ([] : List Bool).length + 0 + px.length = s.encPixels := (Nat.zero_add _).trans h.length
  obtain ⟨hrows, hcols⟩ := h.stream_dims hc hmem hl
  obtain ⟨hrow, -, hcol, -⟩ := hc
  rw [State.replayFirst, hrows, hcols, hmem, hl, h.runBytes_eq]
  exact replayRuns_runBytesFrom hlength (Nat.mul_pos hrow hcol)

/-- Its run bytes, and a destination apart from them, are what RLEDEC needs. -/
theorem EncodedAll.streamApart (h : EncodedAll s px o m) (hc : encChecksPass s) (hmem : u.mem = m) (hl : u.l0 = s.l1)
    (hfits : o ≤ u.l3.toNat) (hsrc : s.l1.toNat + o ≤ u.config.memBytes)
    (hdst : u.l1.toNat + ceil8 s.encPixels ≤ u.config.memBytes)
    (hapart : Apart s.l1.toNat o u.l1.toNat (ceil8 s.encPixels)) :
    u.StreamApart (o - 2) (ceil8 (u.streamRows * u.streamCols)) := by
  have ho : 2 + (o - 2) = o := by
    have hlength := h.written.offset_eq
    rw [encodedBuffer_eq, List.length_append, List.length_cons, List.length_singleton] at hlength
    omega
  obtain ⟨hrows, hcols⟩ := h.stream_dims hc hmem hl
  have hpixels : u.streamRows * u.streamCols = s.encPixels := by rw [hrows, hcols]; rfl
  obtain ⟨hrow, -, hcol, -⟩ := hc
  exact
    { memWf := hmem ▸ h.written.memWf
      fits := by rwa [ho]
      rows := hrows ▸ Nat.ne_of_gt hrow
      cols := hcols ▸ Nat.ne_of_gt hcol
      srcBelow := by rwa [ho, hl]
      dstBelow := by rwa [hpixels]
      apart := by rwa [ho, hl, hpixels] }

end

end Sys2Proof.Machine
end

section
/-!
The obligations on RLEDEC and RLEREND (spec/43_rle_decoder.md).
-/

namespace Sys2Proof.Machine

/-- Settles O43: the block steps go through the pseudocode access by access (`exec_rledec_eq`). -/
theorem rledecFollowsPseudocode : Obligations.RledecFollowsPseudocode := by
  unfold Obligations.RledecFollowsPseudocode
  exact exec_rledec_eq

/-- Settles O44: the block steps go through the pseudocode access by access (`exec_rlerend_eq`). -/
theorem rlerendFollowsPseudocode : Obligations.RlerendFollowsPseudocode := by
  unfold Obligations.RlerendFollowsPseudocode
  exact exec_rlerend_eq

/-- Settles O36: the replay of the run bytes gives the pixels, so RLEDEC completes with their PackedBuffer written, in which
the pixels behind the last one are 0. -/
theorem rledecWritesPackedBuffer : Obligations.RledecWritesPackedBuffer := by
  unfold Obligations.RledecWritesPackedBuffer
  intro s px hs hpx
  obtain ⟨px', m, hpx', hlen, hexec, hm⟩ | ⟨e, m, he, -⟩ :=
    exec_rledec_cases hs.1 hs.streamApart (.inl hs.allRuns)
  · obtain rfl : px' = px := Except.ok.inj (hpx'.symm.trans hpx)
    refine ⟨m, hexec, hm.pixelsAt_eq hlen, fun i hlo hhi => ?_, hm.frame⟩
    rw [hm.pixels i hhi, List.getD_eq_default _ _ (by omega)]
  · cases he.symm.trans hpx

/-- Settles O37: the replay of the run bytes gives the pixels, so RLEREND completes with their text written. -/
theorem rlerendWritesGlyphText : Obligations.RlerendWritesGlyphText := by
  unfold Obligations.RlerendWritesGlyphText
  intro s px hs hpx
  obtain ⟨px', m, hpx', hexec, hm⟩ | ⟨e, m, he, -⟩ := exec_rlerend_cases hs
  · obtain rfl : px' = px := Except.ok.inj (hpx'.symm.trans hpx)
    exact ⟨m, hexec, hm.bytes, hm.frame⟩
  · cases he.symm.trans hpx

/-- Settles O38: a replay that fails ends either command with MalformedStream, after writes to its destination alone. -/
theorem malformedStreamsAreReported : Obligations.MalformedStreamsAreReported := by
  unfold Obligations.MalformedStreamsAreReported
  refine fun s e he => ⟨fun hs => ?rledec, fun hs => ?rlerend⟩
  case rledec =>
    obtain ⟨px, m, hpx, -⟩ | ⟨e', m, -, hexec, hframe⟩ :=
      exec_rledec_cases hs.1 hs.streamApart (.inl hs.allRuns)
    · cases he.symm.trans hpx
    · exact ⟨m, hexec, hframe⟩
  case rlerend =>
    obtain ⟨px, m, hpx, -⟩ | ⟨e', m, -, hexec, hframe⟩ := exec_rlerend_cases hs
    · cases he.symm.trans hpx
    · exact ⟨m, hexec, hframe⟩

/-- Settles O35: the three checks of the front end. -/
theorem decodeFrontEndChecks : Obligations.DecodeFrontEndChecks := by
  unfold Obligations.DecodeFrontEndChecks
  refine fun s i hs hi => ⟨fun hshort => ?_, fun hlen hout => ?_, fun hlen hin hzero => ?_⟩
  · exact exec_decoder_front_error hs hi (pseudoFront_short hshort)
  · exact exec_decoder_front_error hs hi (pseudoFront_outside hlen hout)
  · refine exec_decoder_front_error hs hi ((pseudoFront_inside hlen hin).trans (if_pos ?_))
    exact hzero.imp BitVec.eq_of_toNat_eq BitVec.eq_of_toNat_eq

/-- Settles O39: RLEENC leaves the EncodedBuffer of its source's pixels, the first `r - 2` run bytes of which RLEDEC finds and
replays to those pixels. -/
theorem rleRoundTrip : Obligations.RleRoundTrip := by
  unfold Obligations.RleRoundTrip
  intro s t u hs hwf hexec herr hu hmem hconfig hl hfits hsource _ hstream hdst
  obtain ⟨px, hc, hm⟩ := exec_rleenc_success hs hwf hexec herr
  obtain ⟨hread, hwritten⟩ := exec_rleenc_inside hs hc hexec herr
  obtain ⟨hrows, hcols⟩ := hm.stream_dims hc hmem hl
  have hruns := hm.replayFirst_eq hc hmem hl
  have hready := hm.streamApart hc hmem hl hfits (hconfig ▸ hwritten) hdst hstream
  obtain ⟨px', m, hpx', -, hdec, hw⟩ | ⟨e, m, he, -⟩ := exec_rledec_cases hu hready (.inr ⟨px, hruns⟩)
  · obtain rfl : px' = px := Except.ok.inj (hpx'.symm.trans hruns)
    have hresult := rledec_result hu (State.complete_err _ _) hdec
    rw [hrows, hcols] at hdec hw hresult
    refine ⟨_, hdec, State.complete_err _ _, hresult, fun i hi => ?_⟩
    have hpixel : pixelAt m u.l1.toNat i = pixelAt s.mem s.l0.toNat i := by
      rw [hw.pixels i (lt_eight_mul_ceil8 hi), hm.source hsource]
      exact pixelsAt_getD hi
    have hbyte : bitAddr u.l1.toNat i < u.config.memBytes := by
      have hlt := lt_eight_mul_ceil8 hi
      unfold bitAddr
      omega
    rw [getBit_eq, getBit_eq, State.complete_config, State.setMem_config, if_pos hbyte, if_pos (hread i hi),
      State.complete_mem, State.setMem_mem, hpixel]
  · cases he.symm.trans hruns

end Sys2Proof.Machine
end

section
/-!
Completion, errors and the interrupt output (spec/60_exceptions.md).
-/

namespace Sys2Proof.Machine

theorem State.control_idle {s : State} (h : s.busy = false) : s.control = .idle := by
  rw [State.control, h, if_neg Bool.false_ne_true]

theorem State.irq_of_done {s : State} (h : s.done = true) : s.irq = s.ie := by
  rw [State.irq, h, Bool.and_true]

theorem State.irq_of_not_done {s : State} (h : s.done = false) : s.irq = false := by
  rw [State.irq, h, Bool.and_false]

/-- After a write to STATUS with bit 1 set, DONE is 0 whether it was 1 or not (R28). -/
theorem writeReg_status_done {s : State} {v : Word} (hv : v.getLsbD 1 = true) : (writeReg s .status v).done = false := by
  cases hd : s.done with
  | true => rw [writeReg_status_clear hv hd, State.clearDone_done]
  | false => rw [writeReg_status_keep (.inr hd), hd]

theorem writeReg_ctrl_ie (s : State) (v : Word) : (writeReg s .ctrl v).ie = v.getLsbD 0 :=
  (getLsbD_and_ctrlMask v 0).trans (by rw [decide_eq_true rfl, Bool.true_and])

/-- A write to CTRL takes IE from bit 0 and leaves DONE (R23, R206). -/
theorem writeReg_ctrl_irq (s : State) (v : Word) : (writeReg s .ctrl v).irq = (v.getLsbD 0 && s.done) := by
  rw [State.irq, writeReg_ctrl_ie]
  rfl

/-- Settles O45: the code table entry by entry, then STATUS and RESULT after `State.raise` and its register frame. -/
theorem errorEndsCommand : Obligations.ErrorEndsCommand := by
  unfold Obligations.ErrorEndsCommand
  refine ⟨⟨rfl, rfl, rfl, rfl, rfl, rfl⟩, fun s e => ?_⟩
  have hbusy := s.raise_busy e
  exact ⟨s.raise_err e, s.raise_result e, hbusy, s.raise_done e, s.raise_mem e, s.keepsRegisters_raise s.mem e,
    State.control_idle hbusy⟩

/-- Settles O46: STATUS and RESULT after `State.complete`, and its register frame. -/
theorem successEndsCommand : Obligations.SuccessEndsCommand := by
  unfold Obligations.SuccessEndsCommand
  intro s v
  have hbusy := s.complete_busy v
  exact ⟨s.complete_result v, s.complete_err v, hbusy, s.complete_done v, s.complete_mem v,
    s.keepsRegisters_complete s.mem v, State.control_idle hbusy⟩

/-- Settles O47: each event settles DONE or IE, and irq follows: it is IE when DONE is 1 (`State.irq_of_done`), 0 when DONE
is 0 (`State.irq_of_not_done`), and after a write to CTRL the bit written and DONE (`writeReg_ctrl_irq`). -/
theorem interruptIsIeAndDone : Obligations.InterruptIsIeAndDone := by
  unfold Obligations.InterruptIsIeAndDone
  refine fun s => ⟨rfl, fun v => State.irq_of_done (s.complete_done v), fun e => State.irq_of_done (s.raise_done e),
    fun w => State.irq_of_not_done (s.accept_done w), State.irq_of_not_done s.resetBlock_done,
    fun v hv => State.irq_of_not_done (writeReg_status_done hv), fun v hv => ?ieSet, fun v hv => ?ieCleared⟩
  case ieSet => rw [writeReg_ctrl_irq, hv, Bool.true_and]
  case ieCleared => rw [writeReg_ctrl_irq, hv, Bool.false_and]

end Sys2Proof.Machine
end

section
/-!
Reset and progress (spec/70_reset_and_hazards.md).
-/

namespace Sys2Proof.Machine

/-- Right after a reset, with no further turn, the machine stays as it is: it is idle and reset leaves no quota to use up. -/
theorem step_resetBlock {s : State} (h : s.inputs = []) : step s.resetBlock = .next s.resetBlock :=
  (idleBlockTouchesNothing s.resetBlock s.resetBlock_busy).1 h

/-- Settles O51: what an uninterrupted command answers is a completion or an error (`exec_ends`), and either clears BUSY, sets
DONE and drops the working variables. -/
theorem everyCommandCompletes : Obligations.EveryCommandCompletes := by
  unfold Obligations.EveryCommandCompletes
  intro i s hs hq
  obtain ⟨t, ht⟩ := exec_next i s
  refine ⟨t, ht, ?_⟩
  obtain ⟨m, ⟨v, rfl⟩ | ⟨e, rfl⟩⟩ := exec_ends hs hq ht
  · exact ⟨State.complete_work _ v, State.complete_busy _ v, State.complete_done _ v, State.complete_quota _ v⟩
  · exact ⟨State.raise_work _ e, State.raise_busy _ e, State.raise_done _ e, State.raise_quota _ e⟩

/-- Settles O49: the step is `State.resetBlock`, after which BUSY and DONE are 0, so that the block is IDLE and irq 0. -/
theorem resetClearsTheBlock : Obligations.ResetClearsTheBlock := by
  unfold Obligations.ResetClearsTheBlock
  intro s rest h
  have hstep : step s = .next (State.resetBlock { s with inputs := rest }) := step_cons h
  exact ⟨_, hstep, rfl, rfl, rfl, rfl, rfl, rfl, rfl, rfl, rfl, rfl, rfl, rfl, rfl, rfl,
    State.control_idle (State.resetBlock_busy _), State.irq_of_not_done (State.resetBlock_done _), rfl, rfl, rfl, rfl,
    step_resetBlock (s := { s with inputs := rest })⟩

end Sys2Proof.Machine
end
